-- ==== Sys2Proof/Word.lean ====
section
/-! DEFINITION. The byte, the command word, and the fixed-size byte buffers of the Opossum CORE
(00_scope.md section 5; 10_state.md rule R20). -/

namespace Sys2Proof

/-- An unsigned 8-bit value, bit 7 most significant (00_scope.md section 5). -/
abbrev Byte := BitVec 8

/-- A command or micro-operation word (rule R90): a number, not a byte string. -/
abbrev Word32 := BitVec 32

/-- A 256-byte buffer, index 0 first (rules R7, R20, R68). -/
abbrev Block := Vector Byte 256

/-- The 16-byte snapshot of one MixColumns group (rule R34). -/
abbrev Group := Vector Byte 16

/-- The vector whose element `i` is `f i`. -/
def tab {α : Type} {n : Nat} (f : Fin n → α) : Vector α n :=
  ⟨((List.finRange n).map f).toArray, by simp⟩

/-- 256 bytes each `0x00`, the notation `00×256` of 00_scope.md section 5. -/
def zeroBlock : Block := tab fun _ => 0#8

end Sys2Proof
end

