-- ==== Sys2Proof/Syntax.lean ====
section
/-! DEFINITION. The operations of the Opossum CORE: one constructor per row of the opcode map
(30_encoding.md rule R93). An operand is the word's `imm16`, unsigned (rule R92). -/

namespace Sys2Proof

/-- The twenty-six operations of rule R93, in the order of the map. -/
inductive Instr where
  /-- `CONSTRUCT R` (rule R121): build the cipher context with round count `R`. -/
  | construct (r : BitVec 16)
  /-- `ENCRYPT` (rule R200). -/
  | encrypt
  /-- `DECRYPT` (rule R201). -/
  | decrypt
  /-- `RELEASE` (rule R230). -/
  | release
  /-- `KEYEXPAND` (rule R140). -/
  | keyexpand
  /-- `BLOCKENC` (rule R160). -/
  | blockenc
  /-- `CTRINIT` (rule R204). -/
  | ctrinit
  /-- `ENCCTR` (rule R205). -/
  | encctr
  /-- `KSXOR` (rule R209). -/
  | ksxor
  /-- `INCCTR` (rule R212). -/
  | incctr
  /-- `LDST sel` (rule R162): `sel = 0` loads `DIN`, `sel = 1` loads `CNT`. -/
  | ldst (sel : BitVec 16)
  /-- `STST sel` (rule R163): `sel = 0` stores to `DOUT`, `sel = 1` stores to `KS`. -/
  | stst (sel : BitVec 16)
  /-- `ADDKEY r` (rule R164): `r` is the round-key index. -/
  | addkey (r : BitVec 16)
  /-- `SUBBYTES` (rule R165). -/
  | subbytes
  /-- `PERMUTE` (rule R166). -/
  | permute
  /-- `MIXCOL` (rule R167). -/
  | mixcol
  /-- `ROTL k` (rule R170): rotate the state left by `k` bits. -/
  | rotl (k : BitVec 16)
  /-- `XORMASK round` (rule R171). -/
  | xormask (round : BitVec 16)
  /-- `RDT round` (rule R169). -/
  | rdt (round : BitVec 16)
  /-- `KSINIT` (rule R141). -/
  | ksinit
  /-- `KSLOAD w` (rule R142): `w` is the window index. -/
  | ksload (w : BitVec 16)
  /-- `KSROT3` (rule R143). -/
  | ksrot3
  /-- `KSSUB4` (rule R144). -/
  | kssub4
  /-- `KSRCON w` (rule R145). -/
  | ksrcon (w : BitVec 16)
  /-- `KSXORP w` (rule R146). -/
  | ksxorp (w : BitVec 16)
  /-- `KSSTORE w` (rule R147). -/
  | ksstore (w : BitVec 16)
  deriving DecidableEq, Repr

end Sys2Proof
end

