-- ==== Sys2Proof/WellFormed.lean ====
section
/-! DEFINITION. Which operations are well formed: the immediate constraints of 30_encoding.md
rules R91 and R92 that do not depend on the state. The bound `imm16 ≤ R` that rule R92 adds for
the indexed micro-operations depends on the context: where such an index lies beyond `R`, the
operation's meaning stops (Machine/Ops.lean, `State.withWindow` and `State.withIndex`). -/

namespace Sys2Proof

/-- The state-independent constraint of rule R92 on the immediate. -/
def Instr.wellFormed : Instr → Bool
  | .construct r => r != 0#16
  | .encrypt => true
  | .decrypt => true
  | .release => true
  | .keyexpand => true
  | .blockenc => true
  | .ctrinit => true
  | .encctr => true
  | .ksxor => true
  | .incctr => true
  | .ldst sel => sel.toNat ≤ 1
  | .stst sel => sel.toNat ≤ 1
  | .addkey _ => true
  | .subbytes => true
  | .permute => true
  | .mixcol => true
  | .rotl _ => true
  | .xormask _ => true
  | .rdt _ => true
  | .ksinit => true
  | .ksload w => w != 0#16
  | .ksrot3 => true
  | .kssub4 => true
  | .ksrcon w => w != 0#16
  | .ksxorp w => w != 0#16
  | .ksstore w => w != 0#16

/-- Whether only the core's sequencer may put the operation into execution: the rows of rule R93
whose issuer is `seq` alone (rule R94). -/
def Instr.seqOnly : Instr → Bool
  | .construct _ => false
  | .encrypt => false
  | .decrypt => false
  | .release => false
  | .keyexpand => false
  | .blockenc => false
  | .ctrinit => true
  | .encctr => true
  | .ksxor => true
  | .incctr => true
  | .ldst _ => true
  | .stst _ => true
  | .addkey _ => true
  | .subbytes => true
  | .permute => true
  | .mixcol => true
  | .rotl _ => true
  | .xormask _ => true
  | .rdt _ => true
  | .ksinit => true
  | .ksload _ => true
  | .ksrot3 => true
  | .kssub4 => true
  | .ksrcon _ => true
  | .ksxorp _ => true
  | .ksstore _ => true

/-- Whether only the host may put the operation into execution: the rows of rule R93 whose issuer is
`host` alone. RELEASE and KEYEXPAND have both issuers. -/
def Instr.hostOnly : Instr → Bool
  | .construct _ => true
  | .encrypt => true
  | .decrypt => true
  | .release => false
  | .keyexpand => false
  | .blockenc => true
  | .ctrinit => false
  | .encctr => false
  | .ksxor => false
  | .incctr => false
  | .ldst _ => false
  | .stst _ => false
  | .addkey _ => false
  | .subbytes => false
  | .permute => false
  | .mixcol => false
  | .rotl _ => false
  | .xormask _ => false
  | .rdt _ => false
  | .ksinit => false
  | .ksload _ => false
  | .ksrot3 => false
  | .kssub4 => false
  | .ksrcon _ => false
  | .ksxorp _ => false
  | .ksstore _ => false

end Sys2Proof
end

