-- ==== Sys2Proof/Decode.lean ====
section
/-! DEFINITION. Decoding and encoding of the 32-bit command word (30_encoding.md rules R90 to
R96). The word is a number (rule R90): the spec fixes no byte layout for it, so the decoder takes
the word itself. -/

namespace Sys2Proof

/-- Why a word is not well formed (rules R91 and R95 a to c). -/
inductive Reject where
  /-- `word[31:24]` is not an opcode of rule R93 (rule R95 a). -/
  | reservedOpcode
  /-- `word[23:16]` is not zero (rule R95 b). -/
  | zeroField
  /-- `imm16` is outside the constraint of rule R92 (rule R95 c). -/
  | immediate
  deriving DecidableEq, Repr

/-- `word[31:24]` (rule R90). -/
def opcodeField (w : Word32) : BitVec 8 := w.extractLsb' 24 8

/-- `word[23:16]`, which must be zero (rule R90). -/
def zeroField (w : Word32) : BitVec 8 := w.extractLsb' 16 8

/-- `word[15:0]`, the unsigned immediate (rules R90 and R92). -/
def imm16Field (w : Word32) : BitVec 16 := w.extractLsb' 0 16

/-- The operation a row of rule R93 stands for, before the immediate is checked; the rows that take
no immediate ignore it here. -/
def rowOf (opcode : BitVec 8) (imm : BitVec 16) : Option Instr :=
  match opcode with
  | 0x01#8 => some (.construct imm)
  | 0x02#8 => some .encrypt
  | 0x03#8 => some .decrypt
  | 0x04#8 => some .release
  | 0x10#8 => some .keyexpand
  | 0x11#8 => some .blockenc
  | 0x12#8 => some .ctrinit
  | 0x13#8 => some .encctr
  | 0x14#8 => some .ksxor
  | 0x15#8 => some .incctr
  | 0x20#8 => some (.ldst imm)
  | 0x21#8 => some (.stst imm)
  | 0x22#8 => some (.addkey imm)
  | 0x23#8 => some .subbytes
  | 0x24#8 => some .permute
  | 0x25#8 => some .mixcol
  | 0x26#8 => some (.rotl imm)
  | 0x27#8 => some (.xormask imm)
  | 0x28#8 => some (.rdt imm)
  | 0x30#8 => some .ksinit
  | 0x31#8 => some (.ksload imm)
  | 0x32#8 => some .ksrot3
  | 0x33#8 => some .kssub4
  | 0x34#8 => some (.ksrcon imm)
  | 0x35#8 => some (.ksxorp imm)
  | 0x36#8 => some (.ksstore imm)
  | _ => none

/-- Whether the row uses `imm16`; where it does not, `imm16` must be 0 (rule R92, "all others"). -/
def Instr.takesImmediate : Instr → Bool
  | .construct _ => true
  | .ldst _ => true
  | .stst _ => true
  | .addkey _ => true
  | .rotl _ => true
  | .xormask _ => true
  | .rdt _ => true
  | .ksload _ => true
  | .ksrcon _ => true
  | .ksxorp _ => true
  | .ksstore _ => true
  | .encrypt => false
  | .decrypt => false
  | .release => false
  | .keyexpand => false
  | .blockenc => false
  | .ctrinit => false
  | .encctr => false
  | .ksxor => false
  | .incctr => false
  | .subbytes => false
  | .permute => false
  | .mixcol => false
  | .ksinit => false
  | .ksrot3 => false
  | .kssub4 => false

/-- Decode a word (rules R91 and R93): the row is selected by `word[31:24]` alone, then the zero
field and the row's immediate constraint are checked. Every word is decoded the same way in every
state (rule R96). -/
def decode (w : Word32) : Except Reject Instr :=
  match rowOf (opcodeField w) (imm16Field w) with
  | none => .error .reservedOpcode
  | some i =>
    if zeroField w ≠ 0#8 then .error .zeroField
    else if i.takesImmediate = false ∧ imm16Field w ≠ 0#16 then .error .immediate
    else if i.wellFormed = false then .error .immediate
    else .ok i

/-- The opcode of an operation, from the map of rule R93. -/
def Instr.opcode : Instr → BitVec 8
  | .construct _ => 0x01#8
  | .encrypt => 0x02#8
  | .decrypt => 0x03#8
  | .release => 0x04#8
  | .keyexpand => 0x10#8
  | .blockenc => 0x11#8
  | .ctrinit => 0x12#8
  | .encctr => 0x13#8
  | .ksxor => 0x14#8
  | .incctr => 0x15#8
  | .ldst _ => 0x20#8
  | .stst _ => 0x21#8
  | .addkey _ => 0x22#8
  | .subbytes => 0x23#8
  | .permute => 0x24#8
  | .mixcol => 0x25#8
  | .rotl _ => 0x26#8
  | .xormask _ => 0x27#8
  | .rdt _ => 0x28#8
  | .ksinit => 0x30#8
  | .ksload _ => 0x31#8
  | .ksrot3 => 0x32#8
  | .kssub4 => 0x33#8
  | .ksrcon _ => 0x34#8
  | .ksxorp _ => 0x35#8
  | .ksstore _ => 0x36#8

/-- The immediate of an operation; 0 where it takes none (rule R92). -/
def Instr.imm16 : Instr → BitVec 16
  | .construct r => r
  | .encrypt => 0#16
  | .decrypt => 0#16
  | .release => 0#16
  | .keyexpand => 0#16
  | .blockenc => 0#16
  | .ctrinit => 0#16
  | .encctr => 0#16
  | .ksxor => 0#16
  | .incctr => 0#16
  | .ldst sel => sel
  | .stst sel => sel
  | .addkey r => r
  | .subbytes => 0#16
  | .permute => 0#16
  | .mixcol => 0#16
  | .rotl k => k
  | .xormask round => round
  | .rdt round => round
  | .ksinit => 0#16
  | .ksload w => w
  | .ksrot3 => 0#16
  | .kssub4 => 0#16
  | .ksrcon w => w
  | .ksxorp w => w
  | .ksstore w => w

/-- The word of an operation, `opcode · 2^24 + imm16` with a zero middle field (rules R90, R93). -/
def encode (i : Instr) : Word32 := i.opcode ++ 0#8 ++ i.imm16

/-- The operation this decoder reads from the opcode-table bits `w` of an `nbits`-wide row; every
bit above `nbits` is 0. A number of more than 32 significant bits is no word of this hardware. -/
def decodeTableWord (nbits w : Nat) : Option Instr :=
  if w % 2 ^ nbits < 2 ^ 32 then
    match decode (BitVec.ofNat 32 (w % 2 ^ nbits)) with
    | .ok i => some i
    | .error _ => none
  else none

end Sys2Proof
end

