-- ==== Sys2Proof/Config.lean ====
section
/-! DEFINITION. What an implementation of the Opossum CORE fixes (00_scope.md rules R7 to R10), and
the parameters the spec leaves OPEN, as constants with no body: no proof can see a value of one, so
a theorem that mentions one holds for every admitted value (92_eei_decisions.md, "Open parameters in
one place"). -/

namespace Sys2Proof

/-- The default round count, `CONSTRUCT` without operand (rules R8 and R100). -/
def Config.defaultRounds : BitVec 16 := 160#16

/-- OPEN parameter `SBOX`: any bijection on `0..255` (rule R9, decision D1). The bijectivity is all
that can be known of it. Assumption log 1. -/
opaque Config.sbox : Equiv.Perm Byte

/-- OPEN parameter `ERR_ORDER`: whether the error reported is the key's when key and IV are both
bad (rule R256, decision D9). It is applied to a counter of the state, so each such occurrence has
its own free answer. Assumption log 2. -/
opaque Config.reportKeyFirst : Nat → Bool

/-- OPEN parameter `ZEROIZE`: whether a release writes zeros over the buffers it discards
(rule R231, decision D13). Assumption log 3. -/
opaque Config.zeroize : Bool

/-- Whether a buffer whose lifetime ends with a host-issued KEYEXPAND or BLOCKENC (`T`; `ST`, `TMP`,
`G`) is overwritten with zeros there. The spec says only that it then holds no value (rules R140,
R160, R47). Assumption log 3. -/
opaque Config.scrubAtEnd : Bool

end Sys2Proof
end

