-- ==== Sys2Proof/Machine/State.lean ====
section
/-! DEFINITION. The architectural state of the Opossum CORE (10_state.md), grouped by the units of
00_scope.md rule R2, with the reasons a step can stop and the state after reset (rule R48). -/

namespace Sys2Proof.Machine

/-- A sparse storage: pairs of an index and what stands there. An index that is not listed holds no
value (00_scope.md, "Holds no value"). -/
abbrev Store (α : Type) := List (Nat × α)

/-- A byte address space of 20_memory.md rule R60, as a list of `Host.Cell`. -/
abbrev Memory := List Host.Cell

/-- The canonical form of a storage: indices strictly rising. -/
abbrev Store.wf {α : Type} (m : Store α) : Prop := (m.map Prod.fst).Pairwise (· < ·)

/-- The canonical form of a memory: addresses strictly rising. An unlisted address holds no value,
so no entry can equal what an unlisted address reads as. -/
abbrev Memory.wf (m : Memory) : Prop := Store.wf m

/-- The four error kinds (rules R251 to R254). -/
inductive ErrKind where
  /-- "Key is missing or not exactly 256 bytes" (rule R251). -/
  | invalidKeyLength
  /-- "IV is missing or not exactly 32 bytes" (rule R252). -/
  | invalidIvLength
  /-- A host-issued BLOCKENC whose block is not 256 bytes (rule R253). -/
  | invalidBlockLength
  /-- A malformed or untimely command (rule R254). -/
  | illegalCommand
  deriving DecidableEq, Repr

/-- Who puts a word into execution (rules R93 and R94). -/
inductive Issuer where
  | host
  | seq
  deriving DecidableEq, Repr

/-- The cipher context (rule R21), written only by CONSTRUCT and reset. -/
structure Context where
  /-- `SBOX[0..255]` (rule R22). -/
  sbox : Block
  /-- `INVSBOX[0..255]` (rule R23); no operation reads it. -/
  invsbox : Block
  /-- `PERM[0..255]`, each index stored as one byte (rule R24). -/
  perm : Block
  /-- `R`, read by the host as `CFG_R` (rules R25 and R43). -/
  rounds : BitVec 16
  /-- `CTX_VALID`, `STATUS` bit 0 (rule R26). -/
  valid : Bool
  deriving DecidableEq, Repr

/-- The storage of the key-schedule unit. -/
structure KeyUnit where
  /-- `RK` by windows: entry `r` is round key `r`, the bytes `RK[256·r .. 256·r + 255]`
  (rules R29 and R66). -/
  rk : Store Block
  /-- `RK_VALID`, `STATUS` bit 1 (rule R30). -/
  valid : Bool
  /-- `T[0..255]`, the working buffer (rule R31). -/
  t : Block
  deriving DecidableEq, Repr

/-- The storage of the block-primitive unit. -/
structure BlockUnit where
  /-- `ST[0..255]`, the state buffer (rule R32). -/
  st : Block
  /-- `TMP[0..255]`, scratch of PERMUTE and ROTL (rule R33). -/
  tmp : Block
  /-- `G[0..15]`, the snapshot of one group (rule R34). -/
  g : Group
  deriving DecidableEq, Repr

/-- The storage of the CTR driver (rule R35). -/
structure CtrUnit where
  /-- `CNT[0..255]`, the counter block. -/
  cnt : Block
  /-- `KS[0..255]`, the keystream block. -/
  ks : Block
  deriving DecidableEq, Repr

/-- The sequencer's loop variables, what stands for a program counter (rule R36). -/
structure Sequencer where
  /-- `W`, window index of KEYEXPAND. -/
  w : Nat
  /-- `RND`, round number of the block encryption. -/
  rnd : Nat
  /-- `GRP`, group index of MIXCOL. -/
  grp : Nat
  /-- `P`, stream position of ENCRYPT and DECRYPT. -/
  p : Nat
  /-- `N`, chunk length of KSXOR. -/
  n : Nat
  /-- `IDX`, byte index of INCCTR. -/
  idx : Nat
  deriving DecidableEq, Repr

/-- `KEY_DESC` or `IV_DESC` (rule R41). `written` is the condition of rule R46, "has not been
written since reset": until it is set, the four commands of that rule refuse to use the descriptor. -/
structure Desc where
  written : Bool
  present : Bool
  len : Nat
  deriving DecidableEq, Repr

/-- `DIN_DESC` (rule R41), with the condition of rule R46. -/
structure LenDesc where
  written : Bool
  len : Nat
  deriving DecidableEq, Repr

/-- The operand buffers and descriptors, owned by the host (rules R37, R39 and R41). -/
structure Operands where
  key : Memory
  iv : Memory
  din : Memory
  keyDesc : Desc
  ivDesc : Desc
  dinDesc : LenDesc
  deriving DecidableEq, Repr

/-- The result buffer (rules R38, R41 and R42). -/
structure Result where
  /-- `DOUT`. -/
  dout : Memory
  /-- `DOUT_LEN`, register 5. -/
  len : Nat
  /-- `OUT_VALID`, `STATUS` bit 2. -/
  valid : Bool
  deriving DecidableEq, Repr

/-- The byte address spaces of rule R60. -/
inductive Space where
  | key | iv | din | dout | sbox | invsbox | perm | rk | t | st | tmp | cnt | ks | g
  deriving DecidableEq, Repr

/-- What a host write of a register carries: a command word, a descriptor with a presence bit, or a
bare length (rules R40 and R41). -/
inductive RegData where
  | word (w : Word32)
  | desc (present : Bool) (len : Nat)
  | length (len : Nat)
  deriving DecidableEq, Repr

/-- What the host and the platform do between commands (rules R12, R232, R233 and R290). -/
inductive HostAction where
  /-- Write register number `reg` (rule R44); a write of register 0, `CMD`, issues a command. -/
  | writeReg (reg : Nat) (d : RegData)
  /-- Read register number `reg`. -/
  | readReg (reg : Nat)
  /-- `MemWrite(space, addr, n, v)` with `n` the number of bytes given. -/
  | writeBytes (space : Space) (addr : Nat) (bytes : List Byte)
  /-- `MemRead(space, addr, n)`. -/
  | readBytes (space : Space) (addr n : Nat)
  /-- The reset event (rule R290): an action of the platform. -/
  | reset
  deriving DecidableEq, Repr

/-- What a host read returned. -/
inductive HostRead where
  /-- `STATUS`, 32 bits (rule R42). -/
  | status (w : Word32)
  /-- `CFG_R`, 16 bits (rule R43). -/
  | cfgR (r : BitVec 16)
  /-- `DOUT_LEN` (rule R41). -/
  | doutLen (n : Nat)
  /-- Bytes of `DOUT` (rule R232). -/
  | bytes (b : List Byte)
  deriving DecidableEq, Repr

/-- The model's ends of the two issue paths of rule R93, and what the host has seen. Assumption
log 4. -/
structure Ports where
  /-- Who issued the word in execution: the mode bit that a sequencer-only operation checks. -/
  issuer : Issuer
  /-- Words the sequencer has still to issue, next first. A command runs its whole micro-program
  inside one step (rule R11), so this is empty at every command boundary. -/
  seqWords : List Word32
  /-- Actions of the host and the platform still to come, next first. -/
  hostActions : List HostAction
  /-- What host reads have returned, latest first. -/
  hostReads : List HostRead
  deriving DecidableEq, Repr

/-- The whole machine. -/
structure State where
  /-- The cipher context, unit TAB. -/
  ctx : Context
  /-- Unit KSU. -/
  keys : KeyUnit
  /-- Unit BPU. -/
  blk : BlockUnit
  /-- Unit CTRU. -/
  ctr : CtrUnit
  /-- The sequencer's loop variables. -/
  seq : Sequencer
  /-- The host's operands. -/
  ops : Operands
  /-- The result of the last command. -/
  out : Result
  /-- `STATUS.ERR`: the error of the last command, `none` for code 0 (rules R42 and R255). -/
  err : Option ErrKind
  /-- The ports. -/
  ports : Ports
  /-- The index of the next free choice of `ERR_ORDER` (rule R256): the model's own. -/
  freeIndex : Nat
  deriving DecidableEq, Repr

/-- A stop at a place that does not exist. Each is safe: the hardware never reaches it. -/
inductive Fault where
  /-- Raised by ADDKEY when its index lies beyond `R`, and by KSLOAD, KSRCON, KSXORP and KSSTORE when
  theirs lies outside `1..R`: the range rule R92 gives it, beyond which the space of rule R60 has no
  window (rule R73: "no operation can form an out-of-range index"; rule R91: the sequencer generates
  no such word). Safe. -/
  | noSuchRoundKey
  /-- Raised by KSXOR when `P` lies beyond `len(DIN)`, outside the range rule R36 gives `P`
  ("`P` never exceeds `len(DIN)`"). Safe. -/
  | streamPositionOutOfRange
  deriving DecidableEq, Repr

/-- A situation to which the spec gives no meaning ("refuse", 00_scope.md section 7). Each is
safe. -/
inductive Refusal where
  /-- Raised by no arm of this model: an operation without a meaning would answer it. Safe. -/
  | notModelled (mnemonic : String)
  /-- ENCRYPT, DECRYPT, KEYEXPAND or BLOCKENC was issued while a descriptor it reads was never written
  since reset: "it has no meaning" (rules R46 and R292, U15, D7). Safe. -/
  | descriptorNeverWritten
  /-- The core read a byte of `KEY`, `IV` or `DIN` that was never written (rule R46, U15). Safe. -/
  | operandByteNeverWritten
  /-- A micro-operation read a round key that holds no value (rules R30 and R46). Safe. -/
  | roundKeyHoldsNoValue
  /-- The sequencer's port held a word that is not well formed, or one of an operation whose only issuer
  is the host: the sequencer never generates either (rules R91 and R93). Safe. -/
  | notForSequencer
  /-- A host read that rule R232 refuses: of `CMD`, of a register or space that is not host
  readable, of a reserved register number, or of a value that does not exist now (rule R46,
  U13, U14). Safe. -/
  | hostReadRefused
  /-- A host write that rule R233 refuses: of a read-only or reserved register, of a space the host
  does not own, or of data that is not the register's (rule R39, U14). Safe. -/
  | hostWriteRefused
  deriving DecidableEq, Repr

/-- What a step answers. -/
abbrev Res := Host.Outcome State Fault Refusal

/-- The machine after reset (rules R48 and R291): `STATUS` is 0 and every memory lists nothing. The
spec gives no reset value to any other register: the zeros, and the default round count 160 in the
register `R`, are this model's (DESIGN CHOICE, assumption log 5). -/
def State.reset : State where
  ctx :=
    { sbox := zeroBlock, invsbox := zeroBlock, perm := zeroBlock
      rounds := Config.defaultRounds, valid := false }
  keys := { rk := [], valid := false, t := zeroBlock }
  blk := { st := zeroBlock, tmp := zeroBlock, g := tab fun _ => 0#8 }
  ctr := { cnt := zeroBlock, ks := zeroBlock }
  seq := { w := 0, rnd := 0, grp := 0, p := 0, n := 0, idx := 0 }
  ops :=
    { key := [], iv := [], din := []
      keyDesc := { written := false, present := false, len := 0 }
      ivDesc := { written := false, present := false, len := 0 }
      dinDesc := { written := false, len := 0 } }
  out := { dout := [], len := 0, valid := false }
  err := none
  ports := { issuer := .host, seqWords := [], hostActions := [], hostReads := [] }
  freeIndex := 0

end Sys2Proof.Machine
end

