-- ==== Sys2Proof/Machine/Ops.lean ====
section
/-! DEFINITION. The named operations the meanings share: storages, sequencing, raising an error and
completing a command (60_exceptions.md rules R258 and R259), discarding buffers (44_system_commands.md
rules R230 and R231), and access to the round keys. -/

namespace Sys2Proof.Machine

/-! ### Storages (20_memory.md section 1) -/

/-- What stands at index `a`; `none` where nothing is listed: it holds no value. -/
def Store.read {α : Type} (m : Store α) (a : Nat) : Option α :=
  (m.find? fun c => c.1 == a).map Prod.snd

/-- A run of consecutive entries from index `a` on. -/
def Store.run {α : Type} (a : Nat) : List α → Store α
  | [] => []
  | v :: vs => (a, v) :: Store.run (a + 1) vs

/-- Write consecutive elements from index `a` on, lowest index first; all else stays. -/
def Store.writeRun {α : Type} (m : Store α) (a : Nat) (vs : List α) : Store α :=
  (m.filter fun c => decide (c.1 < a)) ++ Store.run a vs
    ++ m.filter fun c => decide (a + vs.length ≤ c.1)

/-- Write one element. -/
def Store.write {α : Type} (m : Store α) (a : Nat) (v : α) : Store α := Store.writeRun m a [v]

/-- The byte at address `a` of a byte space, where it holds a value. -/
def Memory.byte? (m : Memory) (a : Nat) : Option Byte := Store.read m a

/-- `MemRead(space, addr, n)` (00_scope.md section 5): the `n` bytes from `addr` on, lowest index
first; `none` where one of them holds no value. -/
def Memory.readBytes (m : Memory) (addr n : Nat) : Option (List Byte) :=
  (List.range n).mapM fun j => Memory.byte? m (addr + j)

/-- `MemWrite(space, addr, n, v)` (00_scope.md section 5). -/
def Memory.writeBytes (m : Memory) (addr : Nat) (bytes : List Byte) : Memory :=
  Store.writeRun m addr bytes

/-- The 256-byte buffer whose byte `i` is element `i` of a list; only used on lists of 256. -/
def blockOfList (l : List Byte) : Block := tab fun i => l.getD i.val 0#8

/-! ### Assignments to one storage (`X <- v` of 00_scope.md section 5) -/

/-- `W <- n`. -/
def State.setW (s : State) (n : Nat) : State := { s with seq.w := n }

/-- `RND <- n`. -/
def State.setRnd (s : State) (n : Nat) : State := { s with seq.rnd := n }

/-- `GRP <- n`. -/
def State.setGrp (s : State) (n : Nat) : State := { s with seq.grp := n }

/-- `P <- n`. -/
def State.setP (s : State) (n : Nat) : State := { s with seq.p := n }

/-- `N <- n`. -/
def State.setN (s : State) (n : Nat) : State := { s with seq.n := n }

/-- `IDX <- n`. -/
def State.setIdx (s : State) (n : Nat) : State := { s with seq.idx := n }

/-- `RK <- rk`. -/
def State.setRk (s : State) (rk : Store Block) : State := { s with keys.rk := rk }

/-- `T <- b`. -/
def State.setT (s : State) (b : Block) : State := { s with keys.t := b }

/-- `RK_VALID <- v`. -/
def State.setKeysValid (s : State) (v : Bool) : State := { s with keys.valid := v }

/-- `ST <- b`. -/
def State.setSt (s : State) (b : Block) : State := { s with blk.st := b }

/-- `TMP <- b`. -/
def State.setTmp (s : State) (b : Block) : State := { s with blk.tmp := b }

/-- `G <- g`. -/
def State.setG (s : State) (g : Group) : State := { s with blk.g := g }

/-- `CNT <- b`. -/
def State.setCnt (s : State) (b : Block) : State := { s with ctr.cnt := b }

/-- `KS <- b`. -/
def State.setKs (s : State) (b : Block) : State := { s with ctr.ks := b }

/-- `DOUT <- m`. -/
def State.setDout (s : State) (m : Memory) : State := { s with out.dout := m }

/-! ### Sequencing (rule R75: micro-operations take effect in the order listed) -/

/-- Run `f` on the next state; a stop stays a stop. -/
def andThen (r : Res) (f : State → Res) : Res :=
  match r with
  | .next s => f s
  | .fault e => .fault e
  | .refused e => .refused e

/-- `for v = first to first + count − 1: body v` (00_scope.md section 5). -/
def forLoop (body : Nat → State → Res) (first : Nat) : Nat → State → Res
  | 0, s => .next s
  | count + 1, s => andThen (body first s) (forLoop body (first + 1) count)

/-! ### Errors and completion -/

/-- `raise Kind` (rule R258): `STATUS.ERR` takes the kind, `STATUS.OUT_VALID` is cleared, nothing
else changes; control goes nowhere. -/
def State.raise (s : State) (k : ErrKind) : State :=
  { s with err := some k, out.valid := false }

/-- The end of a command that raised no error and leaves no result (rules R259 and R42):
`STATUS.ERR <- 0 ; STATUS.OUT_VALID <- 0`. There is no return-from-error operation (rule R260); this
is what ends the report of an earlier error. -/
def State.complete (s : State) : State :=
  { s with err := none, out.valid := false }

/-- The end of a command that leaves a result of `len` bytes in `DOUT` (rules R160 and R200):
`DOUT_LEN <- len ; STATUS.OUT_VALID <- 1 ; STATUS.ERR <- 0`. -/
def State.completeWithResult (s : State) (len : Nat) : State :=
  { s with err := none, out.len := len, out.valid := true }

/-- A sequencer-only operation (rule R94): it has its effect when the sequencer issues it, and
raises `IllegalCommand` when the host does (rules R95 d and R254 a). -/
def State.seqOnly (s : State) (effect : Res) : Res :=
  match s.ports.issuer with
  | .host => .next (s.raise .illegalCommand)
  | .seq => effect

/-! ### Discarding buffers -/

/-- A buffer that holds no value from now on: overwritten with zeros, or left as it is. -/
def scrub (zero : Bool) {n : Nat} (b : Vector Byte n) : Vector Byte n :=
  if zero then tab fun _ => 0#8 else b

/-- The release of the per-call buffers (rules R230 and R231): `RK_VALID <- 0`, and `RK`, `T`, `ST`,
`TMP`, `G`, `CNT`, `KS` hold no value; `ZEROIZE` says whether they are overwritten with zeros. -/
def State.discard (s : State) : State :=
  { s with
    keys := { rk := [], valid := false, t := scrub Config.zeroize s.keys.t }
    blk :=
      { st := scrub Config.zeroize s.blk.st, tmp := scrub Config.zeroize s.blk.tmp
        g := scrub Config.zeroize s.blk.g }
    ctr := { cnt := scrub Config.zeroize s.ctr.cnt, ks := scrub Config.zeroize s.ctr.ks } }

/-- `T holds no value` at the end of KEYEXPAND (rule R140). -/
def State.endKeySchedule (s : State) : State :=
  s.setT (scrub Config.scrubAtEnd s.keys.t)

/-- `ST, TMP, G hold no value` at the end of BLOCKENC (rule R160). -/
def State.endBlock (s : State) : State :=
  { s with
    blk :=
      { st := scrub Config.scrubAtEnd s.blk.st, tmp := scrub Config.scrubAtEnd s.blk.tmp
        g := scrub Config.scrubAtEnd s.blk.g } }

/-- A fresh result buffer (rule R203 step 2, rule R38): nothing of an earlier result stays in
`DOUT`. -/
def State.allocateResult (s : State) : State := s.setDout []

/-! ### Round keys (rules R29, R60 and R66) -/

/-- Use round key `r`, the window `RK[256·r .. 256·r + 255]`. The space of rule R60 ends at window
`R`; a window that nothing has written holds no value. -/
def State.withWindow (s : State) (r : Nat) (use : Block → Res) : Res :=
  if s.ctx.rounds.toNat < r then .fault .noSuchRoundKey
  else
    match Store.read s.keys.rk r with
    | none => .refused .roundKeyHoldsNoValue
    | some key => use key

/-- An operation on window `w` of the key schedule, whose index must lie in `1..R` (rule R92). -/
def State.withIndex (s : State) (w : Nat) (effect : Res) : Res :=
  if w = 0 ∨ s.ctx.rounds.toNat < w then .fault .noSuchRoundKey else effect

/-- The byte `RK[a]` of the expanded key (rule R66). -/
def State.rkByte (s : State) (a : Nat) : Option Byte :=
  (Store.read s.keys.rk (a / 256)).map fun b => b[a % 256]

/-- The byte at index `a` of an address space (rule R60): `none` outside the space's index range and
where nothing holds a value. The fixed buffers hold a value at each of their indices. -/
def State.byteAt (s : State) (sp : Space) (a : Nat) : Option Byte :=
  match sp with
  | .key => Memory.byte? s.ops.key a
  | .iv => Memory.byte? s.ops.iv a
  | .din => Memory.byte? s.ops.din a
  | .dout => Memory.byte? s.out.dout a
  | .sbox => s.ctx.sbox[a]?
  | .invsbox => s.ctx.invsbox[a]?
  | .perm => s.ctx.perm[a]?
  | .rk => s.rkByte a
  | .t => s.keys.t[a]?
  | .st => s.blk.st[a]?
  | .tmp => s.blk.tmp[a]?
  | .cnt => s.ctr.cnt[a]?
  | .ks => s.ctr.ks[a]?
  | .g => s.blk.g[a]?

end Sys2Proof.Machine
end

