-- ==== Sys2Proof/Machine/Operands.lean ====
section
/-! DEFINITION. Operands: the host's descriptors and buffers (10_state.md rules R37, R41 and R46;
43_ctr_driver.md rule R202), and the constants an operation derives from its immediate
(30_encoding.md rule R103; 00_scope.md rule R14). -/

namespace Sys2Proof.Machine

/-! ### Descriptors -/

/-- The condition of `InvalidKeyLength` (rule R251). -/
def State.keyBad (s : State) : Bool := !s.ops.keyDesc.present || s.ops.keyDesc.len != 256

/-- The condition of `InvalidIvLength` (rule R252). -/
def State.ivBad (s : State) : Bool := !s.ops.ivDesc.present || s.ops.ivDesc.len != 32

/-- All three descriptors that ENCRYPT and DECRYPT read have been written since reset (rule R46). -/
def State.callDescriptorsWritten (s : State) : Bool :=
  s.ops.keyDesc.written && s.ops.ivDesc.written && s.ops.dinDesc.written

/-- `Validate` (rule R202): the error of ENCRYPT and DECRYPT, if any. Where both lengths are bad
the choice of rule R256 is the free value `Config.reportKeyFirst`. -/
def State.validate (s : State) : Option ErrKind :=
  match s.keyBad, s.ivBad with
  | false, false => none
  | true, false => some .invalidKeyLength
  | false, true => some .invalidIvLength
  | true, true =>
    if Config.reportKeyFirst s.freeIndex then some .invalidKeyLength else some .invalidIvLength

/-- The state in which the error of `Validate` is raised: where rule R256 left a free choice, that
choice is used up, so that a later call has its own. -/
def State.validated (s : State) : State :=
  if s.keyBad && s.ivBad then { s with freeIndex := s.freeIndex + 1 } else s

/-! ### Operand bytes -/

/-- Use the 256 bytes of `KEY` (rule R141). -/
def State.withKey (s : State) (use : Block → Res) : Res :=
  match Memory.readBytes s.ops.key 0 256 with
  | none => .refused .operandByteNeverWritten
  | some l => use (blockOfList l)

/-- Use the 32 bytes of `IV` (rule R204). -/
def State.withIv (s : State) (use : List Byte → Res) : Res :=
  match Memory.readBytes s.ops.iv 0 32 with
  | none => .refused .operandByteNeverWritten
  | some l => use l

/-- Use the `n` bytes of `DIN` from `addr` on (rules R162 and R209). -/
def State.withDin (s : State) (addr n : Nat) (use : List Byte → Res) : Res :=
  match Memory.readBytes s.ops.din addr n with
  | none => .refused .operandByteNeverWritten
  | some l => use l

/-! ### Constants derived from an immediate -/

/-- `rc(w) = w mod 256` (rules R103 and R145). -/
def roundConstant (w : Nat) : Byte := BitVec.ofNat 8 (w % 256)

/-- `rot(round) = (round mod 8) + 1`, in `1..8` (rules R103 and R169). -/
def rotAmount (round : Nat) : Nat := round % 8 + 1

/-- `x(round) = (round · 17 + 83) mod 256`, over the integers before `mod` (rules R14 and R103). -/
def maskStart (round : Nat) : Nat := (round * 17 + 83) % 256

/-- The mask byte `(x(round) + i) mod 256` (rules R103 and R171). -/
def maskByte (round i : Nat) : Byte := BitVec.ofNat 8 ((maskStart round + i) % 256)

end Sys2Proof.Machine
end

