-- ==== Sys2Proof/Machine/KeySchedule.lean ====
section
/-! DEFINITION. The key-schedule family (41_key_schedule.md): KEYEXPAND and its micro-operations. -/

namespace Sys2Proof.Machine

/-! ### Byte functions -/

/-- KSROT3 (rule R143): `T'[j] = T[(j + 3) mod 256]`; bytes move toward lower indices. -/
def rotBytes3 (t : Block) : Block := tab fun j => t[(j.val + 3) % 256]

/-- KSSUB4 (rule R144): the S-box on the bytes at indices 0, 4, …, 252. -/
def subEveryFourth (sbox t : Block) : Block :=
  tab fun j => if j.val % 4 = 0 then sbox[t[j].toNat]'t[j].isLt else t[j]

/-- KSRCON (rule R145): the round constant into byte 0. -/
def addRoundConstant (w : Nat) (t : Block) : Block :=
  tab fun j => if j.val = 0 then t[j] ^^^ roundConstant w else t[j]

/-- XOR of two buffers, byte by byte (rules R146 and R164). -/
def xorBlock (a b : Block) : Block := tab fun i => a[i] ^^^ b[i]

/-! ### The micro-operations -/

/-- KSINIT (rule R141): a fresh expanded-key buffer whose window 0 is `KEY`; the other windows hold
no value until their KSSTORE. -/
def State.ksInit (s : State) : Res :=
  s.withKey fun key => .next (s.setRk [(0, key)])

/-- KSLOAD `w` (rule R142): `T[j] <- RK[256·(w−1) + j]`. -/
def State.ksLoad (s : State) (w : Nat) : Res :=
  s.withIndex w (s.withWindow (w - 1) fun prev => .next (s.setT prev))

/-- KSROT3 (rule R143). -/
def State.ksRot3 (s : State) : State := s.setT (rotBytes3 s.keys.t)

/-- KSSUB4 (rule R144). -/
def State.ksSub4 (s : State) : State := s.setT (subEveryFourth s.ctx.sbox s.keys.t)

/-- KSRCON `w` (rule R145). -/
def State.ksRcon (s : State) (w : Nat) : Res :=
  s.withIndex w (.next (s.setT (addRoundConstant w s.keys.t)))

/-- KSXORP `w` (rule R146): the untransformed previous window is XORed in. -/
def State.ksXorp (s : State) (w : Nat) : Res :=
  s.withIndex w (s.withWindow (w - 1) fun prev => .next (s.setT (xorBlock s.keys.t prev)))

/-- KSSTORE `w` (rule R147): `RK[256·w + j] <- T[j]`. -/
def State.ksStore (s : State) (w : Nat) : Res :=
  s.withIndex w (.next (s.setRk (Store.write s.keys.rk w s.keys.t)))

/-- `KSWINDOW w` (rules R100 and R140), with the loop variable `W` (rule R36). -/
def ksWindow (w : Nat) (s : State) : Res :=
  andThen ((s.setW w).ksLoad w) fun s =>
    andThen (s.ksRot3.ksSub4.ksRcon w) fun s =>
      andThen (s.ksXorp w) fun s => s.ksStore w

/-- The body of KEYEXPAND after its checks (rule R140). -/
def State.expandKey (s : State) : Res :=
  andThen s.ksInit fun s =>
    andThen (forLoop ksWindow 1 s.ctx.rounds.toNat s) fun s =>
      .next (s.endKeySchedule.setKeysValid true)

/-! ### The meanings -/

/-- KEYEXPAND (rule R140). The sequencer issues it after the checks have passed (rule R203) and
leaves `STATUS.ERR` and `STATUS.OUT_VALID` to the enclosing call. -/
def execKeyexpand (s : State) : Res :=
  match s.ports.issuer with
  | .seq => s.expandKey
  | .host =>
    if s.ctx.valid = false then .next (s.raise .illegalCommand)
    else if s.ops.keyDesc.written = false then .refused .descriptorNeverWritten
    else if s.keyBad then .next (s.raise .invalidKeyLength)
    else andThen s.expandKey fun s => .next s.complete

/-- KSINIT (rule R141). -/
def execKsinit (s : State) : Res := s.seqOnly s.ksInit

/-- KSLOAD `w` (rule R142). -/
def execKsload (w : BitVec 16) (s : State) : Res := s.seqOnly (s.ksLoad w.toNat)

/-- KSROT3 (rule R143). -/
def execKsrot3 (s : State) : Res := s.seqOnly (.next s.ksRot3)

/-- KSSUB4 (rule R144). -/
def execKssub4 (s : State) : Res := s.seqOnly (.next s.ksSub4)

/-- KSRCON `w` (rule R145). -/
def execKsrcon (w : BitVec 16) (s : State) : Res := s.seqOnly (s.ksRcon w.toNat)

/-- KSXORP `w` (rule R146). -/
def execKsxorp (w : BitVec 16) (s : State) : Res := s.seqOnly (s.ksXorp w.toNat)

/-- KSSTORE `w` (rule R147). -/
def execKsstore (w : BitVec 16) (s : State) : Res := s.seqOnly (s.ksStore w.toNat)

end Sys2Proof.Machine
end

