-- ==== Sys2Proof/Machine/Tables.lean ====
section
/-! DEFINITION. The tables family (40_tables.md): the S-box, its inverse, the permutation table, and
CONSTRUCT. -/

namespace Sys2Proof.Machine

/-- The value each cell of a buffer `old` has after the writes `out[dest[i]] <- src[i]` for
`i = 0 to 255`, in that order: the last write to a cell stands. -/
def scatter (dest src old : Block) : Block :=
  tab fun q => (List.finRange 256).foldl
    (fun cur i => if dest[i].toNat = q.val then src[i] else cur) old[q]

/-- The identity table, `S[i] = i`. -/
def identityBlock : Block := tab fun i => BitVec.ofNat 8 i.val

/-- `BuildSBox()` (rule R125): the constant table, the OPEN parameter `SBOX`. -/
def buildSBox : Block := tab fun i => Config.sbox (BitVec.ofNat 8 i.val)

/-- `swap S[i], S[j]` of rule R122; indices are taken modulo 256. -/
def swapBytes (s : Block) (i j : Nat) : Block :=
  tab fun q =>
    if q.val = i % 256 then s[j % 256] else if q.val = j % 256 then s[i % 256] else s[q]

/-- The loop `for i = 255 downto 1: swap S[i], S[d(i)]` of rule R122, from loop index `i` on. -/
def shuffleFrom (d : Nat → Nat) : Nat → Block → Block
  | 0, s => s
  | i + 1, s => shuffleFrom d i (swapBytes s (i + 1) (d (i + 1)))

/-- The Fisher–Yates construction of rule R122 under the draws `d(255), …, d(1)`. The hardware does
not run it (rule R125); the draws are the OPEN parameter `RNG42` (rule R124), here an argument. -/
def shuffledSBox (d : Nat → Nat) : Block := shuffleFrom d 255 identityBlock

/-- `BuildInvSBox(S)` (rule R126): `for i = 0 to 255: INV[S[i]] <- i`. -/
def buildInvSBox (s : Block) : Block := scatter s identityBlock zeroBlock

/-- `BuildPerm()` (rule R127): `P[16·row + col] = 16·row + ((col + 16 − row) mod 16)`. -/
def buildPerm : Block :=
  tab fun q =>
    let row := q.val / 16
    let col := q.val % 16
    BitVec.ofNat 8 (16 * row + (col + 16 - row) % 16)

/-- The context CONSTRUCT builds for round count `r` (rule R121). -/
def buildContext (r : BitVec 16) : Context :=
  { sbox := buildSBox, invsbox := buildInvSBox buildSBox, perm := buildPerm
    rounds := r, valid := true }

/-- CONSTRUCT `R` (rule R121). -/
def execConstruct (r : BitVec 16) (s : State) : Res :=
  if s.ctx.valid then .next (s.raise .illegalCommand)
  else if r = 0#16 then .next (s.raise .illegalCommand)
  else .next (State.complete { s with ctx := buildContext r })

end Sys2Proof.Machine
end

