-- ==== Sys2Proof/Machine/BlockPrimitive.lean ====
section
/-! DEFINITION. The block-primitive family (42_block_primitive.md): BLOCKENC and the micro-operations
on the state buffer. -/

namespace Sys2Proof.Machine

/-! ### Byte functions -/

/-- `rotl8(b, n)` for `1 ≤ n ≤ 7` (00_scope.md section 5). -/
def rotl8 (b : Byte) (n : Nat) : Byte := (b <<< n) ||| (b >>> (8 - n))

/-- SUBBYTES (rule R165): the S-box on every byte. -/
def subBlock (sbox st : Block) : Block := tab fun i => sbox[st[i].toNat]'st[i].isLt

/-- Group `grp` of a buffer: the bytes `16·grp .. 16·grp + 15` (rule R65). -/
def groupOf (grp : Fin 16) (st : Block) : Group := tab fun i => st[16 * grp.val + i.val]

/-- MIXCOL on one group (rule R167), reading the snapshot `g` and no live neighbour. -/
def mixGroupBytes (grp : Fin 16) (g : Group) (st : Block) : Block :=
  tab fun q =>
    if q.val / 16 = grp.val then
      g[q.val % 16] ^^^ rotl8 g[(q.val % 16 + 1) % 16] 3 ^^^ g[(q.val % 16 + 15) % 16]
    else st[q]

/-- `RotlBits(data, k)` (rules R172 to R174): the left rotation by `k` bits of a buffer of `n`
bytes; the shift by 8 is never evaluated. -/
def rotlBits {n : Nat} (data : Vector Byte n) (k : Nat) : Vector Byte n :=
  if k % (8 * n) = 0 then data
  else
    tab fun i =>
      let byteShift := k % (8 * n) / 8
      let bitShift := k % (8 * n) % 8
      let src := (i.val + n - byteShift) % n
      let prev := (src + n - 1) % n
      if bitShift = 0 then data[src]'(Nat.mod_lt _ i.pos)
      else (data[src]'(Nat.mod_lt _ i.pos) <<< bitShift)
        ||| (data[prev]'(Nat.mod_lt _ i.pos) >>> (8 - bitShift))

/-- XORMASK (rule R171): byte `i` is XORed with `(x + i) mod 256`. -/
def maskBlock (round : Nat) (st : Block) : Block := tab fun i => st[i] ^^^ maskByte round i.val

/-! ### The micro-operations -/

/-- LDST `sel` (rule R162): `ST` is `DIN[0..256)` for `sel = 0`, `CNT` otherwise (`sel = 1` in a
well-formed word). -/
def State.loadSt (s : State) (sel : Nat) : Res :=
  if sel = 0 then s.withDin 0 256 fun l => .next (s.setSt (blockOfList l))
  else .next (s.setSt s.ctr.cnt)

/-- STST `sel` (rule R163): `ST` to `DOUT[0..256)` for `sel = 0`, to `KS` otherwise. -/
def State.storeSt (s : State) (sel : Nat) : State :=
  if sel = 0 then s.setDout (Memory.writeBytes s.out.dout 0 s.blk.st.toList)
  else s.setKs s.blk.st

/-- ADDKEY `r` (rule R164). -/
def State.addKey (s : State) (r : Nat) : Res :=
  s.withWindow r fun key => .next (s.setSt (xorBlock s.blk.st key))

/-- SUBBYTES (rule R165). -/
def State.subBytes (s : State) : State := s.setSt (subBlock s.ctx.sbox s.blk.st)

/-- PERMUTE (rules R166 and R296): the bytes are scattered into `TMP`, then copied back. -/
def State.permute (s : State) : State :=
  let t := scatter s.ctx.perm s.blk.st s.blk.tmp
  (s.setTmp t).setSt t

/-- One group of MIXCOL (rules R167 and R295): the snapshot first, then the update; the loop
variable `GRP` names the group. -/
def State.mixGroup (s : State) (grp : Fin 16) : State :=
  let g := groupOf grp s.blk.st
  ((s.setGrp grp.val).setG g).setSt (mixGroupBytes grp g s.blk.st)

/-- MIXCOL (rule R167): the groups 0 to 15 in order. -/
def State.mixCol (s : State) : State := (List.finRange 16).foldl State.mixGroup s

/-- ROTL `k` (rules R170 and R297): the rotation is built in `TMP`. -/
def State.rotl (s : State) (k : Nat) : State :=
  let t := rotlBits s.blk.st k
  (s.setTmp t).setSt t

/-- XORMASK `round` (rule R171). -/
def State.xorMask (s : State) (round : Nat) : State :=
  s.setSt (maskBlock round s.blk.st)

/-- RDT `round` (rule R169): the rotation first, the mask second. -/
def State.rdt (s : State) (round : Nat) : State := (s.rotl (rotAmount round)).xorMask round

/-! ### The fixed micro-program (rule R161) -/

/-- `ROUND r` (rules R100 and R161), with the loop variable `RND`. -/
def mainRound (r : Nat) (s : State) : Res :=
  ((s.setRnd r).subBytes.permute.mixCol.rdt r).addKey r

/-- `FINALROUND r` (rules R100 and R161): a main round without MIXCOL. -/
def finalRound (r : Nat) (s : State) : Res :=
  ((s.setRnd r).subBytes.permute.rdt r).addKey r

/-- `EncryptState` (rule R161): whitening, main rounds `1 .. R − 1`, final round `R`. -/
def State.encryptState (s : State) : Res :=
  andThen (s.addKey 0) fun s =>
    andThen (forLoop mainRound 1 (s.ctx.rounds.toNat - 1) s) fun s =>
      finalRound s.ctx.rounds.toNat s

/-! ### The meanings -/

/-- BLOCKENC (rule R160). -/
def execBlockenc (s : State) : Res :=
  if s.ctx.valid = false ∨ s.keys.valid = false then .next (s.raise .illegalCommand)
  else if s.ops.dinDesc.written = false then .refused .descriptorNeverWritten
  else if s.ops.dinDesc.len ≠ 256 then .next (s.raise .invalidBlockLength)
  else
    andThen (s.allocateResult.loadSt 0) fun s =>
      andThen s.encryptState fun s => .next ((s.storeSt 0).endBlock.completeWithResult 256)

/-- LDST `sel` (rule R162). -/
def execLdst (sel : BitVec 16) (s : State) : Res := s.seqOnly (s.loadSt sel.toNat)

/-- STST `sel` (rule R163). -/
def execStst (sel : BitVec 16) (s : State) : Res := s.seqOnly (.next (s.storeSt sel.toNat))

/-- ADDKEY `r` (rule R164). -/
def execAddkey (r : BitVec 16) (s : State) : Res := s.seqOnly (s.addKey r.toNat)

/-- SUBBYTES (rule R165). -/
def execSubbytes (s : State) : Res := s.seqOnly (.next s.subBytes)

/-- PERMUTE (rule R166). -/
def execPermute (s : State) : Res := s.seqOnly (.next s.permute)

/-- MIXCOL (rule R167). -/
def execMixcol (s : State) : Res := s.seqOnly (.next s.mixCol)

/-- ROTL `k` (rule R170). -/
def execRotl (k : BitVec 16) (s : State) : Res := s.seqOnly (.next (s.rotl k.toNat))

/-- XORMASK `round` (rule R171). -/
def execXormask (round : BitVec 16) (s : State) : Res := s.seqOnly (.next (s.xorMask round.toNat))

/-- RDT `round` (rule R169). -/
def execRdt (round : BitVec 16) (s : State) : Res := s.seqOnly (.next (s.rdt round.toNat))

end Sys2Proof.Machine
end

