-- ==== Sys2Proof/Machine/CtrDriver.lean ====
section
/-! DEFINITION. The CTR-driver family (43_ctr_driver.md): ENCRYPT, DECRYPT and the steps of a call. -/

namespace Sys2Proof.Machine

/-! ### The steps -/

/-- CTRINIT (rules R204 and R67): `IV` followed by 224 zero bytes. -/
def State.ctrInit (s : State) : Res :=
  s.withIv fun iv => .next (s.setCnt (blockOfList iv))

/-- ENCCTR (rule R205): `LDST 1 ; EncryptState ; STST 1`. -/
def State.encCtr (s : State) : Res :=
  andThen (s.loadSt 1) fun s => andThen s.encryptState fun s => .next (s.storeSt 1)

/-- KSXOR (rule R209): the next `N = min(256, DIN_DESC.len − P)` bytes of the result. Rule R46 refuses
four host commands whose descriptors were never written, and KSXOR is none of them: it reads the value the
register holds (assumption logs 5 and 12). -/
def State.ksXor (s : State) : Res :=
  if s.ops.dinDesc.len < s.seq.p then .fault .streamPositionOutOfRange
  else
    let n := min 256 (s.ops.dinDesc.len - s.seq.p)
    s.withDin s.seq.p n fun l =>
      .next (((s.setDout (Memory.writeBytes s.out.dout s.seq.p
        (List.zipWith (fun d k => d ^^^ k) l s.ctr.ks.toList))).setN n).setP (s.seq.p + n))

/-- The loop of INCCTR (rule R212) from `IDX = 31 + count` down to 32: the counter block, and the
index of the last byte incremented. -/
def incFrom : (count : Nat) → count ≤ 224 → Block → Block × Nat
  | 0, _, cnt => (cnt, 32)
  | count + 1, h, cnt =>
    let v := cnt[32 + count] + 1#8
    let cnt' := cnt.set (32 + count) v
    if v ≠ 0#8 then (cnt', 32 + count) else incFrom count (by omega) cnt'

/-- INCCTR (rules R212 and R213): one is added to the big-endian counter field, with a silent wrap;
the IV bytes are never touched. -/
def State.incCtr (s : State) : State :=
  let r := incFrom 224 (by decide) s.ctr.cnt
  (s.setCnt r.1).setIdx r.2

/-- One iteration of the loop of rule R203. -/
def ctrBlock (s : State) : Res :=
  andThen s.encCtr fun s => andThen s.ksXor fun s => .next s.incCtr

/-- `while P < DIN_DESC.len` of rule R203, with a bound on the number of iterations. -/
def ctrLoop : Nat → State → Res
  | 0, s => .next s
  | fuel + 1, s =>
    if s.seq.p < s.ops.dinDesc.len then andThen (ctrBlock s) (ctrLoop fuel) else .next s

/-- The number of iterations of the loop of rule R203: `ceil(DIN_DESC.len / 256)`. -/
def State.ctrIterations (s : State) : Nat := (s.ops.dinDesc.len + 255) / 256

/-- `CtrProcedure` (rule R203). -/
def State.ctrProcedure (s : State) : Res :=
  andThen s.expandKey fun s =>
    andThen s.allocateResult.ctrInit fun s =>
      andThen (ctrLoop s.ctrIterations (s.setP 0)) fun s => .next s.discard

/-- One ENCRYPT or DECRYPT call (rules R200 to R202). -/
def State.ctrCall (s : State) : Res :=
  if s.ctx.valid = false then .next (s.raise .illegalCommand)
  else if s.callDescriptorsWritten = false then .refused .descriptorNeverWritten
  else
    match s.validate with
    | some k => .next (s.validated.raise k)
    | none =>
      andThen s.ctrProcedure fun s' => .next (s'.completeWithResult s.ops.dinDesc.len)

/-! ### The meanings -/

/-- ENCRYPT (rule R200). -/
def execEncrypt (s : State) : Res := s.ctrCall

/-- DECRYPT (rule R201): the same as ENCRYPT, statement for statement. -/
def execDecrypt (s : State) : Res := s.ctrCall

/-- CTRINIT (rule R204). -/
def execCtrinit (s : State) : Res := s.seqOnly s.ctrInit

/-- ENCCTR (rule R205). -/
def execEncctr (s : State) : Res := s.seqOnly s.encCtr

/-- KSXOR (rule R209). -/
def execKsxor (s : State) : Res := s.seqOnly s.ksXor

/-- INCCTR (rule R212). -/
def execIncctr (s : State) : Res := s.seqOnly (.next s.incCtr)

end Sys2Proof.Machine
end

