-- ==== Sys2Proof/Machine/Flags.lean ====
section
/-! DEFINITION. The flags: the fields of `STATUS` (10_state.md rules R42 and R45) and the error codes
(60_exceptions.md rule R255). The hardware has no condition codes. -/

namespace Sys2Proof.Machine

/-- The code of an error kind in `STATUS.ERR` (rule R255). -/
def ErrKind.code : ErrKind → BitVec 4
  | .invalidKeyLength => 1#4
  | .invalidIvLength => 2#4
  | .invalidBlockLength => 3#4
  | .illegalCommand => 15#4

/-- `STATUS.ERR`, bits 7:4 (rules R42 and R255): 0 when the last command raised no error. -/
def State.errCode (s : State) : BitVec 4 :=
  match s.err with
  | none => 0#4
  | some k => k.code

/-- `STATUS` as the host reads it (rule R42): bit 0 `CTX_VALID`, bit 1 `RK_VALID`, bit 2
`OUT_VALID`, bits 7:4 `ERR`, the reserved bits 3 and 31:8 zero. -/
def State.status (s : State) : Word32 :=
  (0#24 ++ s.errCode ++ 0#1 ++ BitVec.ofBool s.out.valid ++ BitVec.ofBool s.keys.valid
    ++ BitVec.ofBool s.ctx.valid).cast (by decide)

end Sys2Proof.Machine
end

