-- ==== Sys2Proof/Machine/System.lean ====
section
/-! DEFINITION. The system family (44_system_commands.md): RELEASE, what the host reads and writes
between commands, and the reset event (70_reset_and_hazards.md section 1). -/

namespace Sys2Proof.Machine

/-- RELEASE (rule R230). The sequencer form leaves `ERR` and `OUT_VALID` to the enclosing call. -/
def execRelease (s : State) : Res :=
  match s.ports.issuer with
  | .seq => .next s.discard
  | .host =>
    if s.ctx.valid = false then .next (s.raise .illegalCommand) else .next s.discard.complete

/-! ### Host reads (rule R232) -/

/-- The value a host read of register `reg` returns; `none` where the read is refused (rules R40 to
R44 and R46). -/
def State.registerValue (s : State) (reg : Nat) : Option HostRead :=
  if reg = 1 then some (.status s.status)
  else if reg = 5 then (if s.out.valid then some (.doutLen s.out.len) else none)
  else if reg = 6 then (if s.ctx.valid then some (.cfgR s.ctx.rounds) else none)
  else none

/-- The bytes a host read returns: only `DOUT[0 .. DOUT_LEN)`, only while `OUT_VALID = 1`
(rules R39, R46, R60 and R232). -/
def State.spaceBytes (s : State) (sp : Space) (addr n : Nat) : Option (List Byte) :=
  if sp = .dout ∧ s.out.valid ∧ addr + n ≤ s.out.len then Memory.readBytes s.out.dout addr n
  else none

/-- Deliver what a host read returned; a read changes nothing else (rules R72 and R232). -/
def State.deliver (s : State) (v : Option HostRead) : Res :=
  match v with
  | none => .refused .hostReadRefused
  | some r => .next { s with ports.hostReads := r :: s.ports.hostReads }

/-! ### Host writes (rule R233) -/

/-- A host write of a register other than `CMD`: the three operand descriptors; anything else is
refused (rules R41, R44 and R233). The bytes of the buffer stay, those at or above a newly written shorter
length included, so that a later longer length finds them again: no rule says (DESIGN CHOICE, assumption
log 23). -/
def State.writeRegister (s : State) (reg : Nat) (d : RegData) : Res :=
  match reg, d with
  | 2, .desc p l => .next { s with ops.keyDesc := { written := true, present := p, len := l } }
  | 3, .desc p l => .next { s with ops.ivDesc := { written := true, present := p, len := l } }
  | 4, .length l => .next { s with ops.dinDesc := { written := true, len := l } }
  | _, _ => .refused .hostWriteRefused

/-- A host write of bytes: the host owns `KEY`, `IV` and `DIN` and no other space (rules R37, R39
and R233). -/
def State.writeSpace (s : State) (sp : Space) (addr : Nat) (bytes : List Byte) : Res :=
  match sp with
  | .key => .next { s with ops.key := Memory.writeBytes s.ops.key addr bytes }
  | .iv => .next { s with ops.iv := Memory.writeBytes s.ops.iv addr bytes }
  | .din => .next { s with ops.din := Memory.writeBytes s.ops.din addr bytes }
  | _ => .refused .hostWriteRefused

/-! ### The reset event -/

/-- The reset event (rules R48, R290 and R291): the state after reset, whatever stood before.
`ZEROIZE` says whether the secret-bearing buffers are overwritten (rule R291). The ports are the
model's own and keep what is still to come and what the host has seen. -/
def State.resetEvent (s : State) : State :=
  { State.reset with
    keys := { rk := [], valid := false, t := scrub Config.zeroize s.keys.t }
    blk :=
      { st := scrub Config.zeroize s.blk.st, tmp := scrub Config.zeroize s.blk.tmp
        g := scrub Config.zeroize s.blk.g }
    ctr := { cnt := scrub Config.zeroize s.ctr.cnt, ks := scrub Config.zeroize s.ctr.ks }
    ports := s.ports
    freeIndex := s.freeIndex }

end Sys2Proof.Machine
end

