-- ==== Sys2Proof/Machine/Dispatch.lean ====
section
/-! DEFINITION. One arm per operation of 30_encoding.md rule R93, each a direct call of its meaning. -/

namespace Sys2Proof.Machine

def exec (i : Instr) (s : State) : Host.Outcome State Fault Refusal :=
  match i with
  | .construct r => Sys2Proof.Machine.execConstruct r s
  | .encrypt => Sys2Proof.Machine.execEncrypt s
  | .decrypt => Sys2Proof.Machine.execDecrypt s
  | .release => Sys2Proof.Machine.execRelease s
  | .keyexpand => Sys2Proof.Machine.execKeyexpand s
  | .blockenc => Sys2Proof.Machine.execBlockenc s
  | .ctrinit => Sys2Proof.Machine.execCtrinit s
  | .encctr => Sys2Proof.Machine.execEncctr s
  | .ksxor => Sys2Proof.Machine.execKsxor s
  | .incctr => Sys2Proof.Machine.execIncctr s
  | .ldst sel => Sys2Proof.Machine.execLdst sel s
  | .stst sel => Sys2Proof.Machine.execStst sel s
  | .addkey r => Sys2Proof.Machine.execAddkey r s
  | .subbytes => Sys2Proof.Machine.execSubbytes s
  | .permute => Sys2Proof.Machine.execPermute s
  | .mixcol => Sys2Proof.Machine.execMixcol s
  | .rotl k => Sys2Proof.Machine.execRotl k s
  | .xormask round => Sys2Proof.Machine.execXormask round s
  | .rdt round => Sys2Proof.Machine.execRdt round s
  | .ksinit => Sys2Proof.Machine.execKsinit s
  | .ksload w => Sys2Proof.Machine.execKsload w s
  | .ksrot3 => Sys2Proof.Machine.execKsrot3 s
  | .kssub4 => Sys2Proof.Machine.execKssub4 s
  | .ksrcon w => Sys2Proof.Machine.execKsrcon w s
  | .ksxorp w => Sys2Proof.Machine.execKsxorp w s
  | .ksstore w => Sys2Proof.Machine.execKsstore w s

end Sys2Proof.Machine
end

