-- ==== Sys2Proof/Machine/Issue.lean ====
section
/-! DEFINITION. The two paths by which a word comes into execution (30_encoding.md rules R93 to R95),
and the host's actions between commands (00_scope.md rule R12). -/

namespace Sys2Proof.Machine

/-- The state in which a word issued by `who` is executed. -/
def State.issuedBy (s : State) (who : Issuer) : State := { s with ports.issuer := who }

/-- A host write of a command word to `CMD` (rules R40, R95 and R257 step 1): a word that is not well
formed raises `IllegalCommand`; a well-formed one is executed to completion. -/
def State.hostCommand (s : State) (w : Word32) : Res :=
  match decode w with
  | .ok i => exec i (s.issuedBy .host)
  | .error _ => .next ((s.issuedBy .host).raise .illegalCommand)

/-- A word issued by the sequencer, which only ever generates well-formed words of the operations it may
issue (rules R91 and R93). -/
def State.seqCommand (s : State) (w : Word32) : Res :=
  match decode w with
  | .ok i => if i.hostOnly then .refused .notForSequencer else exec i (s.issuedBy .seq)
  | .error _ => .refused .notForSequencer

/-- One action of the host or the platform (rules R40, R232, R233 and R290). -/
def State.hostAct (s : State) (a : HostAction) : Res :=
  match a with
  | .writeReg 0 (.word w) => s.hostCommand w
  | .writeReg reg d => s.writeRegister reg d
  | .readReg reg => s.deliver (s.registerValue reg)
  | .writeBytes sp addr bytes => s.writeSpace sp addr bytes
  | .readBytes sp addr n => s.deliver ((s.spaceBytes sp addr n).map .bytes)
  | .reset => .next s.resetEvent

/-- What happens next: a word the sequencer has still to issue; else, between commands, the next
action of the host (rules R12 and R71); else nothing: the core is idle and keeps all state
(rule R272). -/
def State.advance (s : State) : Res :=
  match s.ports.seqWords with
  | w :: rest => State.seqCommand { s with ports.seqWords := rest } w
  | [] =>
    match s.ports.hostActions with
    | a :: rest => State.hostAct { s with ports.hostActions := rest } a
    | [] => .next s

/-- The state whose next step runs the word `w` and nothing else: a word of a sequencer-only
operation stands at the sequencer's port, every other word is the host's next write of `CMD`. -/
def State.withWord (s : State) (w : Word32) : State :=
  match rowOf (opcodeField w) (imm16Field w) with
  | some i =>
    if i.seqOnly then { s with ports.seqWords := w :: s.ports.seqWords }
    else { s with
      ports.seqWords := []
      ports.hostActions := .writeReg 0 (.word w) :: s.ports.hostActions }
  | none =>
    { s with
      ports.seqWords := []
      ports.hostActions := .writeReg 0 (.word w) :: s.ports.hostActions }

end Sys2Proof.Machine
end

