-- ==== Sys2Proof/Reference.lean ====
section
/-! DEFINITION. The closed forms of the spec, in which the statements about whole commands are written:
one window of the key schedule (41_key_schedule.md rule R148), the block encryption as a function of
the block (42_block_primitive.md rules R161, R166 and R167), the readings of a buffer as a number
(20_memory.md rules R64 and R67), and the counter block of a call (43_ctr_driver.md rule R214). -/

namespace Sys2Proof.Reference

open Sys2Proof.Machine

/-! ### The key schedule (rule R148) -/

/-- Window `w` from the window before it: `u[j] = prev[(j + 3) mod 256]`, then `v[j]`, then
`v[j] ^ prev[j]` (rule R148). -/
def nextWindow (sbox prev : Block) (w : Nat) : Block :=
  tab fun j =>
    let u := prev[(j.val + 3) % 256]
    let v :=
      if j.val = 0 then sbox[u.toNat]'u.isLt ^^^ BitVec.ofNat 8 (w % 256)
      else if j.val % 4 = 0 then sbox[u.toNat]'u.isLt
      else u
    v ^^^ prev[j]

/-- Round key `w` of the master key `key` (rule R148): it does not depend on `R` (rule R151). -/
def roundKey (sbox key : Block) : Nat → Block
  | 0 => key
  | w + 1 => nextWindow sbox (roundKey sbox key w) (w + 1)

/-! ### The block encryption (rule R161) -/

/-- SUBBYTES as a function of the state (rule R165). -/
def substitute (sbox st : Block) : Block := tab fun i => sbox[st[i].toNat]'st[i].isLt

/-- PERMUTE as a function of the state: `new ST[16·r + c] = old ST[16·r + ((c + r) mod 16)]`
(rule R166). -/
def rotateRows (st : Block) : Block :=
  tab fun q => st[16 * (q.val / 16) + (q.val % 16 + q.val / 16) % 16]

/-- MIXCOL as a function of the state (rule R167), byte `i` of the group at `gs`. -/
def mixGroups (st : Block) : Block :=
  tab fun q =>
    st[q] ^^^ rotl8 st[16 * (q.val / 16) + (q.val % 16 + 1) % 16] 3
      ^^^ st[16 * (q.val / 16) + (q.val % 16 + 15) % 16]

/-- RDT as a function of the state (rule R169): rotate left by `rot` bits, then XOR the mask. -/
def roundDependent (round : Nat) (st : Block) : Block :=
  tab fun i =>
    (rotlBits st (round % 8 + 1))[i] ^^^ BitVec.ofNat 8 (((round * 17 + 83) % 256 + i.val) % 256)

/-- XOR of two blocks, byte by byte (rule R164). -/
def addBlock (a b : Block) : Block := tab fun i => a[i] ^^^ b[i]

/-- One main round (rule R161 step 2). -/
def mainRound (sbox : Block) (rk : Nat → Block) (r : Nat) (st : Block) : Block :=
  addBlock (roundDependent r (mixGroups (rotateRows (substitute sbox st)))) (rk r)

/-- Main rounds `1 .. n` (rule R161 step 2). -/
def mainRounds (sbox : Block) (rk : Nat → Block) : Nat → Block → Block
  | 0, st => st
  | n + 1, st => mainRound sbox rk (n + 1) (mainRounds sbox rk n st)

/-- The final round, a main round without MixColumns (rule R161 step 3). -/
def finalRound (sbox : Block) (rk : Nat → Block) (r : Nat) (st : Block) : Block :=
  addBlock (roundDependent r (rotateRows (substitute sbox st))) (rk r)

/-- The encryption of one block under round keys `rk 0 .. rk rounds` (rule R161): whitening, main
rounds `1 .. rounds − 1`, final round `rounds`. -/
def encryptBlock (sbox : Block) (rk : Nat → Block) (rounds : Nat) (block : Block) : Block :=
  finalRound sbox rk rounds (mainRounds sbox rk (rounds - 1) (addBlock block (rk 0)))

/-! ### Buffers as numbers -/

/-- `V = Σ data[i] · 2^(8·i)`: byte 0 is the least significant (rules R64 and R175). -/
def littleEndianValue {n : Nat} (data : Vector Byte n) : Nat :=
  ∑ i : Fin n, data[i].toNat * 2 ^ (8 * i.val)

/-- The counter field `Σ_{j=32}^{255} CNT[j] · 2^(8·(255 − j))`, big-endian (rule R67). -/
def counterField (cnt : Block) : Nat :=
  ∑ j : Fin 224, cnt[32 + j.val].toNat * 2 ^ (8 * (255 - (32 + j.val)))

/-- `IV ‖ BE224(m)`: the counter block of block number `m` (rule R214). -/
def counterBlock (iv : Vector Byte 32) (m : Nat) : Block :=
  tab fun j =>
    if h : j.val < 32 then iv[j.val]
    else BitVec.ofNat 8 (m % 2 ^ 1792 / 2 ^ (8 * (255 - j.val)) % 256)

/-- The keystream byte at position `q` of a call (rule R214):
`E_KEY( IV ‖ BE224(q div 256) )[ q mod 256 ]`. -/
def keystreamByte (sbox key : Block) (rounds : Nat) (iv : Vector Byte 32) (q : Nat) : Byte :=
  (encryptBlock sbox (roundKey sbox key) rounds (counterBlock iv (q / 256)))[q % 256]

end Sys2Proof.Reference
end

