-- ==== Sys2Proof/Safety.lean ====
section
/-! DEFINITION. The terms in which statements about the machine are written: frames (what stays as it
was), the invariants of 10_state.md, operands that are in place, and what the host can tell apart. -/

namespace Sys2Proof.Safety

open Sys2Proof.Machine

/-! ### Frames -/

/-- Every piece of the state that is not a byte space of rule R60: the registers, flags, descriptors and
loop variables of 10_state.md, and the model's own fields (assumption logs 2 and 4). -/
inductive Register where
  | ctxValid | rounds | rkValid | keyDesc | ivDesc | dinDesc | doutLen | outValid | err
  | w | rnd | grp | p | n | idx
  | ports | freeIndex
  deriving DecidableEq, Repr

/-- The register holds the same value in both states. -/
def Register.same (r : Register) (s t : State) : Prop :=
  match r with
  | .ctxValid => t.ctx.valid = s.ctx.valid
  | .rounds => t.ctx.rounds = s.ctx.rounds
  | .rkValid => t.keys.valid = s.keys.valid
  | .keyDesc => t.ops.keyDesc = s.ops.keyDesc
  | .ivDesc => t.ops.ivDesc = s.ops.ivDesc
  | .dinDesc => t.ops.dinDesc = s.ops.dinDesc
  | .doutLen => t.out.len = s.out.len
  | .outValid => t.out.valid = s.out.valid
  | .err => t.err = s.err
  | .w => t.seq.w = s.seq.w
  | .rnd => t.seq.rnd = s.seq.rnd
  | .grp => t.seq.grp = s.seq.grp
  | .p => t.seq.p = s.seq.p
  | .n => t.seq.n = s.seq.n
  | .idx => t.seq.idx = s.seq.idx
  | .ports => t.ports = s.ports
  | .freeIndex => t.freeIndex = s.freeIndex

/-- The frame of an operation: outside the listed byte spaces every byte of every space reads as before,
and every register that is not listed keeps its value. -/
def Unchanged (spaces : List Space) (registers : List Register) (s t : State) : Prop :=
  (∀ sp, sp ∉ spaces → ∀ a, t.byteAt sp a = s.byteAt sp a) ∧
    ∀ r, r ∉ registers → r.same s t

/-- The operation raises `IllegalCommand` when the host issues it (rules R94 and R95 d). -/
def RaisesFromHost (i : Instr) : Prop :=
  ∀ s : State, s.ports.issuer = .host → exec i s = .next (s.raise .illegalCommand)

/-! ### Invariants -/

/-- Rule R28, with the table of rule R127 for `PERM`: what holds whenever `CTX_VALID = 1`. -/
structure ContextInv (s : State) : Prop where
  /-- (a) `SBOX` is a permutation of `[0,255]`. -/
  sbox : s.ctx.valid = true → Function.Bijective fun b : Byte => s.ctx.sbox[b.toNat]'b.isLt
  /-- (b) `INVSBOX[SBOX[i]] = i`. -/
  invsbox : s.ctx.valid = true → ∀ b : Byte,
    s.ctx.invsbox[(s.ctx.sbox[b.toNat]'b.isLt).toNat]'(BitVec.isLt _) = b
  /-- (c) `PERM` is a permutation of `[0,256)`. -/
  perm : s.ctx.valid = true → Function.Bijective fun b : Byte => s.ctx.perm[b.toNat]'b.isLt
  /-- The entries of `PERM` (rule R127). -/
  permTable : s.ctx.valid = true → ∀ q : Fin 256,
    s.ctx.perm[q].toNat = 16 * (q.val / 16) + (q.val % 16 + 16 - q.val / 16) % 16
  /-- (d) `1 ≤ R ≤ 65535`. -/
  rounds : s.ctx.valid = true → 1 ≤ s.ctx.rounds.toNat ∧ s.ctx.rounds.toNat ≤ 65535

/-- Every storage is in its canonical form. -/
structure MemoryInv (s : State) : Prop where
  key : Memory.wf s.ops.key
  iv : Memory.wf s.ops.iv
  din : Memory.wf s.ops.din
  dout : Memory.wf s.out.dout
  rk : Store.wf s.keys.rk

/-- What holds at every command boundary: the sequencer is idle (rule R36), the context and the storages
are as they must be, `RK` holds `R + 1` round keys exactly while `RK_VALID = 1` (rules R29 and R30), and
`DOUT` holds `DOUT_LEN` bytes, of a command that raised no error, while `OUT_VALID = 1` (rules R38 and
R42). -/
structure BoundaryInv (s : State) : Prop where
  idle : s.ports.seqWords = []
  context : ContextInv s
  memory : MemoryInv s
  keysNeedContext : s.keys.valid = true → s.ctx.valid = true
  roundKeys : ∀ r, (Store.read s.keys.rk r).isSome = true ↔
    s.keys.valid = true ∧ r ≤ s.ctx.rounds.toNat
  resultBytes : s.out.valid = true → ∀ q,
    (Memory.byte? s.out.dout q).isSome = true ↔ q < s.out.len
  resultOfSuccess : s.out.valid = true → s.err = none

/-! ### Operands in place -/

/-- The host has supplied the master key `key` (rules R37 and R41). -/
def KeySupplied (s : State) (key : Block) : Prop :=
  s.ops.keyDesc = { written := true, present := true, len := 256 } ∧
    ∀ j : Fin 256, Memory.byte? s.ops.key j.val = some key[j]

/-- The host has supplied the IV `iv` (rules R37 and R41). -/
def IvSupplied (s : State) (iv : Vector Byte 32) : Prop :=
  s.ops.ivDesc = { written := true, present := true, len := 32 } ∧
    ∀ j : Fin 32, Memory.byte? s.ops.iv j.val = some iv[j]

/-- The host has supplied the input data `data` (rules R37 and R41). -/
def InputSupplied (s : State) (data : List Byte) : Prop :=
  s.ops.dinDesc = { written := true, len := data.length } ∧
    ∀ q, q < data.length → Memory.byte? s.ops.din q = data[q]?

/-- Every round key `0 .. R` holds a value, `rk r` in window `r` (rules R29 and R66). -/
def RoundKeysHeld (s : State) (rk : Nat → Block) : Prop :=
  ∀ r, r ≤ s.ctx.rounds.toNat → ∀ j : Fin 256, s.byteAt .rk (256 * r + j.val) = some (rk r)[j]

/-- All that rule R46 obliges the host to have written: the three descriptors, and the bytes that each
descriptor announces where its length is one that a command accepts. -/
def OperandsWritten (s : State) : Prop :=
  s.callDescriptorsWritten = true ∧
    (s.keyBad = false → ∀ j, j < 256 → (Memory.byte? s.ops.key j).isSome = true) ∧
    (s.ivBad = false → ∀ j, j < 32 → (Memory.byte? s.ops.iv j).isSome = true) ∧
    ∀ q, q < s.ops.dinDesc.len → (Memory.byte? s.ops.din q).isSome = true

/-! ### Programs of micro-operations -/

/-- Execute operations one after another, as the sequencer issues them (rules R100 and R102). -/
def runOps : List Instr → State → Res
  | [], s => .next s
  | i :: is, s =>
    match exec i s with
    | .next t => runOps is t
    | .fault e => .fault e
    | .refused e => .refused e

/-- `ROUND r` (rule R100). -/
def roundProgram (r : Nat) : List Instr :=
  [.subbytes, .permute, .mixcol, .rdt (BitVec.ofNat 16 r), .addkey (BitVec.ofNat 16 r)]

/-- `FINALROUND r` (rule R100). -/
def finalRoundProgram (r : Nat) : List Instr :=
  [.subbytes, .permute, .rdt (BitVec.ofNat 16 r), .addkey (BitVec.ofNat 16 r)]

/-- `EncryptState` for round count `rounds` (rule R161). -/
def encryptStateProgram (rounds : Nat) : List Instr :=
  .addkey 0#16 :: (List.range (rounds - 1)).flatMap (fun k => roundProgram (k + 1))
    ++ finalRoundProgram rounds

/-- `KSWINDOW w` (rule R100). -/
def windowProgram (w : Nat) : List Instr :=
  [.ksload (BitVec.ofNat 16 w), .ksrot3, .kssub4, .ksrcon (BitVec.ofNat 16 w),
    .ksxorp (BitVec.ofNat 16 w), .ksstore (BitVec.ofNat 16 w)]

/-- The micro-operations of KEYEXPAND for round count `rounds` (rules R102 and R140). -/
def keyExpandProgram (rounds : Nat) : List Instr :=
  .ksinit :: (List.range rounds).flatMap fun k => windowProgram (k + 1)

/-- The operations of one ENCRYPT or DECRYPT call of `blocks` blocks (rule R203), between the checks and
the report of the result. -/
def callProgram (blocks : Nat) : List Instr :=
  .keyexpand :: .ctrinit :: (List.replicate blocks [.encctr, .ksxor, .incctr]).flatten
    ++ [.release]

/-- Two outcomes that differ in the loop variables at most (rule R36: a single micro-operation does not
set `RND` or `W`), or the same stop. -/
def SameButLoops (a b : Res) : Prop :=
  match a, b with
  | .next s, .next t => { s with seq := t.seq } = t
  | .fault e, .fault f => e = f
  | .refused e, .refused f => e = f
  | _, _ => False

/-! ### What the host can tell apart -/

/-- The state with everything that holds no value replaced by one fixed content: the working buffers and
loop variables between commands (rules R31 to R36, R47), the context while `CTX_VALID = 0`, the round
keys while `RK_VALID = 0`, and the result while `OUT_VALID = 0` (rule R46). -/
def hideResidue (s : State) : State :=
  { s with
    ctx := if s.ctx.valid then s.ctx else State.reset.ctx
    keys := { rk := if s.keys.valid then s.keys.rk else [], valid := s.keys.valid, t := zeroBlock }
    blk := State.reset.blk
    ctr := State.reset.ctr
    seq := State.reset.seq
    out := if s.out.valid then s.out else State.reset.out }

/-- Two outcomes that the host cannot tell apart: next states that differ in residue only, or the same
stop. -/
def SameOutcome (a b : Res) : Prop :=
  match a, b with
  | .next s, .next t => hideResidue s = hideResidue t
  | .fault e, .fault f => e = f
  | .refused e, .refused f => e = f
  | _, _ => False

/-! ### Words that the host may not issue -/

/-- An illegal encoding of rule R95, (a) to (d), field by field; the constraints of rule R92 on the
operations the sequencer alone issues play no part, since (d) covers them. -/
def IllegalWord (w : Word32) : Prop :=
  (opcodeField w).toNat ∉ [0x01, 0x02, 0x03, 0x04, 0x10, 0x11] ∨
    zeroField w ≠ 0#8 ∨
    ((opcodeField w).toNat = 0x01 ∧ imm16Field w = 0#16) ∨
    ((opcodeField w).toNat ≠ 0x01 ∧ imm16Field w ≠ 0#16)

end Sys2Proof.Safety
end

