-- ==== Sys2Proof/Certificates/Slice0/Obligations.lean ====
section
/-! DEFINITION. The statements for the provers, from the numbered rules of the spec. -/

open Sys2Proof Sys2Proof.Machine Sys2Proof.Safety

/-! ### Encoding and the paths into execution (30_encoding.md) -/

/-- Decoding the word of a well-formed operation gives the operation back (rules R91 to R93). -/
def Obligations.DecodeOfEncode : Prop :=
  ∀ i : Instr, i.wellFormed = true → decode (encode i) = .ok i

/-- A word that decodes is the word of the operation it decodes to, and that operation is well formed:
every word has at most one meaning and no bit of it is dropped (rules R90, R91, R93). -/
def Obligations.EncodeOfDecode : Prop :=
  ∀ (w : Word32) (i : Instr), decode w = .ok i → encode i = w ∧ i.wellFormed = true

/-- Words written out from the map of rule R93, one or more of each family. -/
def Obligations.SpecWordsDecode : Prop :=
  decode 0x010000A0#32 = .ok (.construct 160#16) ∧ decode 0x02000000#32 = .ok .encrypt ∧
    decode 0x03000000#32 = .ok .decrypt ∧ decode 0x04000000#32 = .ok .release ∧
    decode 0x10000000#32 = .ok .keyexpand ∧ decode 0x11000000#32 = .ok .blockenc ∧
    decode 0x14000000#32 = .ok .ksxor ∧ decode 0x20000001#32 = .ok (.ldst 1#16) ∧
    decode 0x220000A0#32 = .ok (.addkey 160#16) ∧ decode 0x2600FFFF#32 = .ok (.rotl 0xFFFF#16) ∧
    decode 0x310000A0#32 = .ok (.ksload 160#16)

/-- An illegal encoding written to `CMD` raises `IllegalCommand` and changes nothing but `STATUS.ERR` and
`STATUS.OUT_VALID`; every other word is that of an operation the host may issue (rule R95). -/
def Obligations.IllegalWordsRaise : Prop :=
  (∀ (s : State) (w : Word32) (rest : List HostAction), s.ports.seqWords = [] →
      s.ports.hostActions = .writeReg 0 (.word w) :: rest → IllegalWord w →
      ∃ t, step s = .next t ∧ t.err = some .illegalCommand ∧ t.out.valid = false ∧
        t.ports = { s.ports with issuer := .host, hostActions := rest } ∧
        Unchanged [] [.err, .outValid, .ports] s t) ∧
    ∀ w : Word32, ¬ IllegalWord w → ∃ i, decode w = .ok i ∧ i.seqOnly = false

/-- A host write of a well-formed word to `CMD` executes the decoded operation (rule R40). -/
def Obligations.StepRunsHostCommand : Prop :=
  ∀ (s : State) (w : Word32) (rest : List HostAction) (i : Instr), s.ports.seqWords = [] →
    s.ports.hostActions = .writeReg 0 (.word w) :: rest → decode w = .ok i →
    step s = exec i { s with ports := { s.ports with issuer := .host, hostActions := rest } }

/-- A well-formed word at the sequencer's port executes the decoded operation, as the sequencer issues it;
a word the sequencer never generates is refused (rules R91, R93, R94; assumption log 4). -/
def Obligations.StepRunsSequencerWord : Prop :=
  ∀ (s : State) (w : Word32) (rest : List Word32), s.ports.seqWords = w :: rest →
    (∀ i, decode w = .ok i → i.hostOnly = false →
      step s = exec i { s with ports := { s.ports with issuer := .seq, seqWords := rest } }) ∧
    (∀ i, decode w = .ok i → i.hostOnly = true → step s = .refused .notForSequencer) ∧
    ∀ e, decode w = .error e → step s = .refused .notForSequencer

/-- A word placed where the next step takes its instruction from is the one that step runs (assumption
log 4). -/
def Obligations.StepRunsFetchWord : Prop :=
  ∀ (s : State) (w : Word32) (i : Instr), decode w = .ok i →
    (i.seqOnly = false → step (s.withFetchWord 32 w.toNat) =
      exec i { s with ports := { s.ports with issuer := .host, seqWords := [] } }) ∧
    (i.seqOnly = true → step (s.withFetchWord 32 w.toNat) =
      exec i { s with ports := { s.ports with issuer := .seq } })

/-- Between commands, with nothing to do, the core keeps all state (rule R272). -/
def Obligations.IdleKeepsState : Prop :=
  ∀ s : State, s.ports.seqWords = [] → s.ports.hostActions = [] → step s = .next s

/-! ### Status, errors and reset (10_state.md, 60_exceptions.md, 70_reset_and_hazards.md) -/

/-- Reading `STATUS` gives its fields at their bit positions and changes nothing (rule R42). -/
def Obligations.StatusLayout : Prop :=
  ∀ (s : State) (rest : List HostAction), s.ports.seqWords = [] →
    s.ports.hostActions = .readReg 1 :: rest →
    ∃ v : Word32,
      step s = .next { s with ports :=
        { s.ports with hostActions := rest, hostReads := .status v :: s.ports.hostReads } } ∧
      v.getLsbD 0 = s.ctx.valid ∧ v.getLsbD 1 = s.keys.valid ∧ v.getLsbD 2 = s.out.valid ∧
      v.getLsbD 3 = false ∧ v.extractLsb' 4 4 = s.errCode ∧ v.extractLsb' 8 24 = 0#24

/-- The codes in `STATUS.ERR` (rule R255). -/
def Obligations.ErrorCodes : Prop :=
  (∀ s : State, s.errCode = 0#4 ↔ s.err = none) ∧
    (∀ s : State, s.errCode = 1#4 ↔ s.err = some .invalidKeyLength) ∧
    (∀ s : State, s.errCode = 2#4 ↔ s.err = some .invalidIvLength) ∧
    (∀ s : State, s.errCode = 3#4 ↔ s.err = some .invalidBlockLength) ∧
    (∀ s : State, s.errCode = 15#4 ↔ s.err = some .illegalCommand) ∧
    ∀ s : State, ¬ (4 ≤ s.errCode.toNat ∧ s.errCode.toNat ≤ 14)

/-- A host command that ends in an error leaves the state as it was, but for `STATUS.ERR`, which holds the
error's kind, and `STATUS.OUT_VALID`, which is cleared (rule R258); the index of the model's next free choice
may move (assumption log 2). -/
def Obligations.ErrorsArePrecise : Prop :=
  ∀ (i : Instr) (s t : State) (k : ErrKind), s.ports.issuer = .host → exec i s = .next t →
    t.err = some k →
    t.errCode = k.code ∧ t.out.valid = false ∧ Unchanged [] [.err, .outValid, .freeIndex] s t

/-- The state after reset (rules R48 and R291): `STATUS` is zero, no descriptor has been written, no byte
of an operand, of the result or of the expanded key holds a value, and the host can read nothing but
`STATUS`. It says nothing of the tables and working buffers, whose zeros are the model's (assumption log
5). -/
def Obligations.ResetState : Prop :=
  State.reset.status = 0#32 ∧ State.reset.ops.keyDesc.written = false ∧
    State.reset.ops.ivDesc.written = false ∧ State.reset.ops.dinDesc.written = false ∧
    (∀ sp, sp ∈ [Space.key, .iv, .din, .dout, .rk] → ∀ a, State.reset.byteAt sp a = none) ∧
    (∀ reg, reg ≠ 1 → State.reset.registerValue reg = none) ∧
    ∀ sp addr n, State.reset.spaceBytes sp addr n = none

/-- The reset event ends the context and leaves, with the residue hidden, the state after reset (rules R48,
R290, R291). Two clauses are the model's choice: the ports and `freeIndex`, which are the model's own fields,
survive the event (assumption log 14), and the fields of the three descriptors, which by rule R48 hold no
value, are the zeros of `State.reset`, with `written` cleared (assumption log 5). -/
def Obligations.ResetEvent : Prop :=
  ∀ (s : State) (rest : List HostAction), s.ports.seqWords = [] →
    s.ports.hostActions = .reset :: rest →
    ∃ t, step s = .next t ∧ t.status = 0#32 ∧ t.ctx.valid = false ∧
      hideResidue t = hideResidue
        { State.reset with
          ports := { s.ports with hostActions := rest }, freeIndex := s.freeIndex }

/-! ### The context (40_tables.md) -/

/-- CONSTRUCT (rule R121): its word, its two refusals, and the context it builds. -/
def Obligations.ConstructRule : Prop :=
  (∀ r : BitVec 16, (encode (.construct r)).toNat = 0x01000000 + r.toNat) ∧
    (∀ (r : BitVec 16) (s : State), s.ctx.valid = true ∨ r = 0#16 →
      exec (.construct r) s = .next (s.raise .illegalCommand)) ∧
    ∀ (r : BitVec 16) (s : State), s.ctx.valid = false → r ≠ 0#16 →
      ∃ t, exec (.construct r) s = .next t ∧ t.ctx.valid = true ∧ t.ctx.rounds = r ∧
        (∀ b : Byte, t.ctx.sbox[b.toNat]'b.isLt = Config.sbox b) ∧
        (∀ b : Byte, t.ctx.invsbox[(Config.sbox b).toNat]'(BitVec.isLt _) = b) ∧
        (∀ row col : Fin 16, t.ctx.perm[16 * row.val + col.val] =
          BitVec.ofNat 8 (16 * row.val + (col.val + 16 - row.val) % 16)) ∧
        t.err = none ∧ t.out.valid = false ∧
        Unchanged [.sbox, .invsbox, .perm] [.ctxValid, .rounds, .err, .outValid] s t

/-- The inverse table of any bijective table (rule R126). -/
def Obligations.InverseTable : Prop :=
  ∀ sbox : Block, Function.Bijective (fun b : Byte => sbox[b.toNat]'b.isLt) →
    (∀ b : Byte, (buildInvSBox sbox)[(sbox[b.toNat]'b.isLt).toNat]'(BitVec.isLt _) = b) ∧
      ∀ v : Byte, sbox[((buildInvSBox sbox)[v.toNat]'v.isLt).toNat]'(BitVec.isLt _) = v

/-- The shuffle of rule R122 gives a permutation of the bytes, whatever is drawn. -/
def Obligations.ShuffleIsPermutation : Prop :=
  ∀ d : Nat → Nat, (∀ i, 1 ≤ i → i ≤ 255 → d i ≤ i) →
    Function.Bijective fun b : Byte => (shuffledSBox d)[b.toNat]'b.isLt

/-- Every step keeps the context invariants of rule R28, in every state that has them. -/
def Obligations.ContextInvKept : Prop :=
  ∀ s t : State, ContextInv s → step s = .next t → ContextInv t

/-- Once a context exists nothing but the reset event changes it, and a second CONSTRUCT raises
`IllegalCommand` (rule R27). -/
def Obligations.ContextIsImmutable : Prop :=
  (∀ s t : State, s.ctx.valid = true → step s = .next t →
      t.ctx = s.ctx ∨ (s.ports.seqWords = [] ∧ ∃ rest, s.ports.hostActions = .reset :: rest)) ∧
    ∀ (r : BitVec 16) (s : State), s.ctx.valid = true →
      ∃ t, exec (.construct r) s = .next t ∧ t.err = some .illegalCommand ∧ t.ctx = s.ctx

/-! ### The key schedule (41_key_schedule.md) -/

/-- KSINIT (rule R141). -/
def Obligations.KsinitRule : Prop :=
  encode .ksinit = 0x30000000#32 ∧ RaisesFromHost .ksinit ∧
    ∀ (s : State) (key : Block), s.ports.issuer = .seq →
      (∀ j : Fin 256, s.byteAt .key j.val = some key[j]) →
      ∃ t, exec .ksinit s = .next t ∧ (∀ j : Fin 256, t.byteAt .rk j.val = some key[j]) ∧
        (∀ a, 256 ≤ a → t.byteAt .rk a = none) ∧ Unchanged [.rk] [] s t

/-- KSLOAD (rule R142). -/
def Obligations.KsloadRule : Prop :=
  (∀ w : BitVec 16, (encode (.ksload w)).toNat = 0x31000000 + w.toNat) ∧
    (∀ w : BitVec 16, RaisesFromHost (.ksload w)) ∧
    ∀ (w : BitVec 16) (s : State) (prev : Block), s.ports.issuer = .seq →
      1 ≤ w.toNat → w.toNat ≤ s.ctx.rounds.toNat →
      (∀ j : Fin 256, s.byteAt .rk (256 * (w.toNat - 1) + j.val) = some prev[j]) →
      ∃ t, exec (.ksload w) s = .next t ∧ (∀ j : Fin 256, t.keys.t[j] = prev[j]) ∧
        Unchanged [.t] [] s t

/-- KSROT3 (rule R143). -/
def Obligations.Ksrot3Rule : Prop :=
  encode .ksrot3 = 0x32000000#32 ∧ RaisesFromHost .ksrot3 ∧
    ∀ s : State, s.ports.issuer = .seq →
      ∃ t, exec .ksrot3 s = .next t ∧
        (∀ j : Fin 256, t.keys.t[j] = s.keys.t[(j.val + 3) % 256]) ∧ Unchanged [.t] [] s t

/-- KSSUB4 (rule R144). -/
def Obligations.Kssub4Rule : Prop :=
  encode .kssub4 = 0x33000000#32 ∧ RaisesFromHost .kssub4 ∧
    ∀ s : State, s.ports.issuer = .seq →
      ∃ t, exec .kssub4 s = .next t ∧
        (∀ j : Fin 256, j.val % 4 = 0 →
          t.keys.t[j] = s.ctx.sbox[(s.keys.t[j]).toNat]'(BitVec.isLt _)) ∧
        (∀ j : Fin 256, j.val % 4 ≠ 0 → t.keys.t[j] = s.keys.t[j]) ∧ Unchanged [.t] [] s t

/-- KSRCON (rule R145). -/
def Obligations.KsrconRule : Prop :=
  (∀ w : BitVec 16, (encode (.ksrcon w)).toNat = 0x34000000 + w.toNat) ∧
    (∀ w : BitVec 16, RaisesFromHost (.ksrcon w)) ∧
    ∀ (w : BitVec 16) (s : State), s.ports.issuer = .seq →
      1 ≤ w.toNat → w.toNat ≤ s.ctx.rounds.toNat →
      ∃ t, exec (.ksrcon w) s = .next t ∧
        t.keys.t[0] = s.keys.t[0] ^^^ BitVec.ofNat 8 (w.toNat % 256) ∧
        (∀ j : Fin 256, j.val ≠ 0 → t.keys.t[j] = s.keys.t[j]) ∧ Unchanged [.t] [] s t

/-- KSXORP (rule R146). -/
def Obligations.KsxorpRule : Prop :=
  (∀ w : BitVec 16, (encode (.ksxorp w)).toNat = 0x35000000 + w.toNat) ∧
    (∀ w : BitVec 16, RaisesFromHost (.ksxorp w)) ∧
    ∀ (w : BitVec 16) (s : State) (prev : Block), s.ports.issuer = .seq →
      1 ≤ w.toNat → w.toNat ≤ s.ctx.rounds.toNat →
      (∀ j : Fin 256, s.byteAt .rk (256 * (w.toNat - 1) + j.val) = some prev[j]) →
      ∃ t, exec (.ksxorp w) s = .next t ∧
        (∀ j : Fin 256, t.keys.t[j] = s.keys.t[j] ^^^ prev[j]) ∧ Unchanged [.t] [] s t

/-- KSSTORE (rule R147): the window `RK[256·w .. 256·w + 255]` and no other byte of `RK`. -/
def Obligations.KsstoreRule : Prop :=
  (∀ w : BitVec 16, (encode (.ksstore w)).toNat = 0x36000000 + w.toNat) ∧
    (∀ w : BitVec 16, RaisesFromHost (.ksstore w)) ∧
    ∀ (w : BitVec 16) (s : State), s.ports.issuer = .seq →
      1 ≤ w.toNat → w.toNat ≤ s.ctx.rounds.toNat →
      ∃ t, exec (.ksstore w) s = .next t ∧
        (∀ j : Fin 256, t.byteAt .rk (256 * w.toNat + j.val) = some s.keys.t[j]) ∧
        (∀ a, ¬ (256 * w.toNat ≤ a ∧ a < 256 * w.toNat + 256) →
          t.byteAt .rk a = s.byteAt .rk a) ∧ Unchanged [.rk] [] s t

/-- KEYEXPAND (rules R140 and R148): its errors in their order, and the `R + 1` round keys it leaves, when
the host issues it and when the sequencer does. That the sequencer's form makes no check at all, of the
context or of the key, is the model's reading (assumption log 20). -/
def Obligations.KeyexpandRule : Prop :=
  encode .keyexpand = 0x10000000#32 ∧
    (∀ s : State, s.ports.issuer = .host → s.ctx.valid = false →
      exec .keyexpand s = .next (s.raise .illegalCommand)) ∧
    (∀ s : State, s.ports.issuer = .host → s.ctx.valid = true → s.ops.keyDesc.written = true →
      s.ops.keyDesc.present = false ∨ s.ops.keyDesc.len ≠ 256 →
      exec .keyexpand s = .next (s.raise .invalidKeyLength)) ∧
    (∀ (s : State) (key : Block), s.ports.issuer = .host → s.ctx.valid = true →
      KeySupplied s key →
      ∃ t, exec .keyexpand s = .next t ∧ t.keys.valid = true ∧ t.err = none ∧
        t.out.valid = false ∧ RoundKeysHeld t (Reference.roundKey s.ctx.sbox key) ∧
        (∀ a, 256 * (s.ctx.rounds.toNat + 1) ≤ a → t.byteAt .rk a = none) ∧
        Unchanged [.rk, .t] [.rkValid, .err, .outValid, .w] s t) ∧
    ∀ (s : State) (key : Block), s.ports.issuer = .seq →
      (∀ j : Fin 256, s.byteAt .key j.val = some key[j]) →
      ∃ t, exec .keyexpand s = .next t ∧ t.keys.valid = true ∧
        RoundKeysHeld t (Reference.roundKey s.ctx.sbox key) ∧
        (∀ a, 256 * (s.ctx.rounds.toNat + 1) ≤ a → t.byteAt .rk a = none) ∧
        Unchanged [.rk, .t] [.rkValid, .w] s t

/-- KEYEXPAND leaves the expanded key that its micro-operations KSINIT and `KSWINDOW 1 .. R` leave, issued
one by one (rules R100, R102, R140). That the sequencer's form makes no check is the model's reading
(assumption log 20). -/
def Obligations.KeyexpandIsItsProgram : Prop :=
  ∀ (s : State) (key : Block), s.ports.issuer = .seq →
    (∀ j : Fin 256, s.byteAt .key j.val = some key[j]) →
    ∃ t u, exec .keyexpand s = .next t ∧ runOps (keyExpandProgram s.ctx.rounds.toNat) s = .next u ∧
      t.keys.rk = u.keys.rk ∧ Unchanged [.t] [.rkValid, .w] u t

/-! ### The block primitive (42_block_primitive.md) -/

/-- LDST (rule R162): both source selects. -/
def Obligations.LdstRule : Prop :=
  (∀ sel : BitVec 16, (encode (.ldst sel)).toNat = 0x20000000 + sel.toNat) ∧
    (∀ sel : BitVec 16, RaisesFromHost (.ldst sel)) ∧
    (∀ (s : State) (block : Block), s.ports.issuer = .seq →
      (∀ i : Fin 256, s.byteAt .din i.val = some block[i]) →
      ∃ t, exec (.ldst 0#16) s = .next t ∧ (∀ i : Fin 256, t.blk.st[i] = block[i]) ∧
        Unchanged [.st] [] s t) ∧
    ∀ s : State, s.ports.issuer = .seq →
      ∃ t, exec (.ldst 1#16) s = .next t ∧ (∀ i : Fin 256, t.blk.st[i] = s.ctr.cnt[i]) ∧
        Unchanged [.st] [] s t

/-- STST (rule R163): both destination selects; bytes of `DOUT` beyond the 256 stored stay. -/
def Obligations.StstRule : Prop :=
  (∀ sel : BitVec 16, (encode (.stst sel)).toNat = 0x21000000 + sel.toNat) ∧
    (∀ sel : BitVec 16, RaisesFromHost (.stst sel)) ∧
    (∀ s : State, s.ports.issuer = .seq →
      ∃ t, exec (.stst 0#16) s = .next t ∧
        (∀ i : Fin 256, t.byteAt .dout i.val = some s.blk.st[i]) ∧
        (∀ a, 256 ≤ a → t.byteAt .dout a = s.byteAt .dout a) ∧ Unchanged [.dout] [] s t) ∧
    ∀ s : State, s.ports.issuer = .seq →
      ∃ t, exec (.stst 1#16) s = .next t ∧ (∀ i : Fin 256, t.ctr.ks[i] = s.blk.st[i]) ∧
        Unchanged [.ks] [] s t

/-- ADDKEY (rule R164), and that it is its own inverse. -/
def Obligations.AddkeyRule : Prop :=
  (∀ r : BitVec 16, (encode (.addkey r)).toNat = 0x22000000 + r.toNat) ∧
    (∀ r : BitVec 16, RaisesFromHost (.addkey r)) ∧
    ∀ (r : BitVec 16) (s : State) (key : Block), s.ports.issuer = .seq →
      r.toNat ≤ s.ctx.rounds.toNat →
      (∀ i : Fin 256, s.byteAt .rk (256 * r.toNat + i.val) = some key[i]) →
      ∃ t, exec (.addkey r) s = .next t ∧
        (∀ i : Fin 256, t.blk.st[i] = s.blk.st[i] ^^^ key[i]) ∧ Unchanged [.st] [] s t ∧
        exec (.addkey r) t = .next s

/-- SUBBYTES (rule R165). -/
def Obligations.SubbytesRule : Prop :=
  encode .subbytes = 0x23000000#32 ∧ RaisesFromHost .subbytes ∧
    ∀ s : State, s.ports.issuer = .seq →
      ∃ t, exec .subbytes s = .next t ∧
        (∀ i : Fin 256, t.blk.st[i] = s.ctx.sbox[(s.blk.st[i]).toNat]'(BitVec.isLt _)) ∧
        Unchanged [.st] [] s t

/-- PERMUTE: a scatter through `PERM`, and for the table of rule R127 the row rotation (rule R166). The rule
speaks of a bijective `PERM`, by which every byte is written exactly once. What happens for any other table
the storage may hold (where two entries agree the later index stands, where none points the scratch byte
stands) is the model's choice, assumption log 18. So is it that `TMP` keeps its last value after the
operation, where rule R33 gives it one only inside (assumption log 13). -/
def Obligations.PermuteRule : Prop :=
  encode .permute = 0x24000000#32 ∧ RaisesFromHost .permute ∧
    ∀ s : State, s.ports.issuer = .seq →
      ∃ t, exec .permute s = .next t ∧
        (∀ i : Fin 256, (∀ j : Fin 256, i < j → s.ctx.perm[j] ≠ s.ctx.perm[i]) →
          t.blk.st[(s.ctx.perm[i]).toNat]'(BitVec.isLt _) = s.blk.st[i]) ∧
        (∀ q : Fin 256, (∀ i : Fin 256, (s.ctx.perm[i]).toNat ≠ q.val) →
          t.blk.st[q] = s.blk.tmp[q]) ∧
        t.blk.tmp = t.blk.st ∧
        ((∀ q : Fin 256, (s.ctx.perm[q]).toNat =
            16 * (q.val / 16) + (q.val % 16 + 16 - q.val / 16) % 16) →
          ∀ r c : Fin 16, t.blk.st[16 * r.val + c.val] =
            s.blk.st[16 * r.val + (c.val + r.val) % 16]) ∧
        Unchanged [.st, .tmp] [] s t

/-- MIXCOL (rule R167): every byte from the old bytes of its group; the bytes of `G` and the group index
are left over from the last group. -/
def Obligations.MixcolRule : Prop :=
  encode .mixcol = 0x25000000#32 ∧ RaisesFromHost .mixcol ∧
    ∀ s : State, s.ports.issuer = .seq →
      ∃ t, exec .mixcol s = .next t ∧
        (∀ grp i : Fin 16, t.blk.st[16 * grp.val + i.val] =
          s.blk.st[16 * grp.val + i.val]
            ^^^ (s.blk.st[16 * grp.val + (i.val + 1) % 16] <<< 3
              ||| s.blk.st[16 * grp.val + (i.val + 1) % 16] >>> 5)
            ^^^ s.blk.st[16 * grp.val + (i.val + 15) % 16]) ∧
        Unchanged [.st, .g] [.grp] s t

/-- ROTL (rules R170 and R172 to R174 for `len = 256`): the identity for a multiple of 2048, the byte
rotation for a multiple of 8, and the formula with the carried-in bits otherwise. -/
def Obligations.RotlRule : Prop :=
  (∀ k : BitVec 16, (encode (.rotl k)).toNat = 0x26000000 + k.toNat) ∧
    (∀ k : BitVec 16, RaisesFromHost (.rotl k)) ∧
    ∀ (k : BitVec 16) (s : State), s.ports.issuer = .seq →
      ∃ t, exec (.rotl k) s = .next t ∧
        (k.toNat % 2048 = 0 → t.blk.st = s.blk.st) ∧
        (k.toNat % 8 = 0 → ∀ i : Fin 256,
          t.blk.st[i] = s.blk.st[(i.val + 256 - k.toNat % 2048 / 8) % 256]) ∧
        (k.toNat % 8 ≠ 0 → ∀ i : Fin 256,
          t.blk.st[i] =
            (s.blk.st[(i.val + 256 - k.toNat % 2048 / 8) % 256] <<< (k.toNat % 8))
              ||| (s.blk.st[(i.val + 255 - k.toNat % 2048 / 8) % 256]
                >>> (8 - k.toNat % 8))) ∧
        Unchanged [.st, .tmp] [] s t

/-- The bit rotation of a buffer of any length is the left rotation of the little-endian integer it stands
for, and rotation by the number of bits is the identity (rules R64, R173, R175). -/
def Obligations.RotationIsIntegerRotation : Prop :=
  ∀ (n : Nat) (data : Vector Byte n) (k : Nat), 1 ≤ n →
    Reference.littleEndianValue (rotlBits data k) =
        Reference.littleEndianValue data * 2 ^ (k % (8 * n)) % 2 ^ (8 * n)
          + Reference.littleEndianValue data / 2 ^ (8 * n - k % (8 * n)) ∧
      rotlBits data (k + 8 * n) = rotlBits data k ∧ rotlBits data (8 * n) = data

/-- XORMASK (rule R171), and that it is its own inverse. -/
def Obligations.XormaskRule : Prop :=
  (∀ round : BitVec 16, (encode (.xormask round)).toNat = 0x27000000 + round.toNat) ∧
    (∀ round : BitVec 16, RaisesFromHost (.xormask round)) ∧
    ∀ (round : BitVec 16) (s : State), s.ports.issuer = .seq →
      ∃ t, exec (.xormask round) s = .next t ∧
        (∀ i : Fin 256, t.blk.st[i] = s.blk.st[i]
          ^^^ BitVec.ofNat 8 (((round.toNat * 17 + 83) % 256 + i.val) % 256)) ∧
        Unchanged [.st] [] s t ∧ exec (.xormask round) t = .next s

/-- RDT (rule R169): the rotation by `(round mod 8) + 1` bits, then the mask. -/
def Obligations.RdtRule : Prop :=
  (∀ round : BitVec 16, (encode (.rdt round)).toNat = 0x28000000 + round.toNat) ∧
    (∀ round : BitVec 16, RaisesFromHost (.rdt round)) ∧
    ∀ (round : BitVec 16) (s : State), s.ports.issuer = .seq →
      ∃ u t, exec (.rotl (BitVec.ofNat 16 (round.toNat % 8 + 1))) s = .next u ∧
        exec (.xormask round) u = .next t ∧ exec (.rdt round) s = .next t ∧
        Unchanged [.st, .tmp] [] s t

/-- BLOCKENC (rules R160 and R161): its errors in their order, and the encrypted block it leaves in `DOUT`,
with the round keys kept. `DOUT` holds 256 bytes (rule R38); that no byte of an earlier, longer result stays
listed beyond them is the model's reading (assumption log 8). -/
def Obligations.BlockencRule : Prop :=
  encode .blockenc = 0x11000000#32 ∧
    (∀ s : State, s.ctx.valid = false ∨ s.keys.valid = false →
      exec .blockenc s = .next (s.raise .illegalCommand)) ∧
    (∀ s : State, s.ctx.valid = true → s.keys.valid = true → s.ops.dinDesc.written = true →
      s.ops.dinDesc.len ≠ 256 → exec .blockenc s = .next (s.raise .invalidBlockLength)) ∧
    ∀ (s : State) (rk : Nat → Block) (block : Block), ContextInv s → s.ctx.valid = true →
      s.keys.valid = true → RoundKeysHeld s rk → InputSupplied s block.toList →
      ∃ t, exec .blockenc s = .next t ∧ t.out.valid = true ∧ t.out.len = 256 ∧ t.err = none ∧
        (∀ q : Fin 256, t.byteAt .dout q.val =
          some (Reference.encryptBlock s.ctx.sbox rk s.ctx.rounds.toNat block)[q]) ∧
        (∀ a, 256 ≤ a → t.byteAt .dout a = none) ∧
        Unchanged [.dout, .st, .tmp, .g] [.doutLen, .outValid, .err, .rnd, .grp] s t

/-- ENCCTR is its micro-program: LDST 1, the operations of EncryptState one by one, STST 1 (rules R100,
R161, R205), in every state, loop variables apart. That `TMP` and `G` keep a value to be compared is the
model's choice (assumption log 13). -/
def Obligations.EncctrIsItsProgram : Prop :=
  ∀ s : State, s.ports.issuer = .seq →
    SameButLoops (exec .encctr s)
      (runOps (.ldst 1#16 :: encryptStateProgram s.ctx.rounds.toNat ++ [.stst 1#16]) s)

/-! ### The CTR driver (43_ctr_driver.md) -/

/-- CTRINIT (rule R204). -/
def Obligations.CtrinitRule : Prop :=
  encode .ctrinit = 0x12000000#32 ∧ RaisesFromHost .ctrinit ∧
    ∀ (s : State) (iv : Vector Byte 32), s.ports.issuer = .seq →
      (∀ j : Fin 32, s.byteAt .iv j.val = some iv[j]) →
      ∃ t, exec .ctrinit s = .next t ∧ (∀ j : Fin 32, t.ctr.cnt[j.val] = iv[j]) ∧
        (∀ j : Fin 256, 32 ≤ j.val → t.ctr.cnt[j] = 0#8) ∧ Unchanged [.cnt] [] s t

/-- ENCCTR (rules R161 and R205): the keystream block is the encryption of the counter block, which is not
changed. -/
def Obligations.EncctrRule : Prop :=
  encode .encctr = 0x13000000#32 ∧ RaisesFromHost .encctr ∧
    ∀ (s : State) (rk : Nat → Block), s.ports.issuer = .seq → ContextInv s →
      s.ctx.valid = true → RoundKeysHeld s rk →
      ∃ t, exec .encctr s = .next t ∧
        t.ctr.ks = Reference.encryptBlock s.ctx.sbox rk s.ctx.rounds.toNat s.ctr.cnt ∧
        Unchanged [.st, .tmp, .g, .ks] [.rnd, .grp] s t

/-- KSXOR (rule R209): the next `N` bytes of the result, from `P` on, and no other byte of `DOUT`. That it also
completes where `DIN_DESC` was never written, on the length the register holds after reset, is the model's
choice (assumption logs 5 and 12). -/
def Obligations.KsxorRule : Prop :=
  encode .ksxor = 0x14000000#32 ∧ RaisesFromHost .ksxor ∧
    ∀ s : State, s.ports.issuer = .seq → s.seq.p ≤ s.ops.dinDesc.len →
      (∀ j, j < min 256 (s.ops.dinDesc.len - s.seq.p) →
        (s.byteAt .din (s.seq.p + j)).isSome = true) →
      ∃ t, exec .ksxor s = .next t ∧ t.seq.n = min 256 (s.ops.dinDesc.len - s.seq.p) ∧
        t.seq.p = s.seq.p + t.seq.n ∧
        (∀ j : Fin 256, j.val < t.seq.n → t.byteAt .dout (s.seq.p + j.val) =
          (s.byteAt .din (s.seq.p + j.val)).map fun d => d ^^^ s.ctr.ks[j]) ∧
        (∀ a, ¬ (s.seq.p ≤ a ∧ a < s.seq.p + t.seq.n) → t.byteAt .dout a = s.byteAt .dout a) ∧
        Unchanged [.dout] [.p, .n] s t

/-- INCCTR (rules R212 and R213): one is added to the 224-byte big-endian field modulo `2^1792`, and the IV
bytes are not touched. -/
def Obligations.IncctrRule : Prop :=
  encode .incctr = 0x15000000#32 ∧ RaisesFromHost .incctr ∧
    ∀ s : State, s.ports.issuer = .seq →
      ∃ t, exec .incctr s = .next t ∧
        Reference.counterField t.ctr.cnt = (Reference.counterField s.ctr.cnt + 1) % 2 ^ 1792 ∧
        (∀ j : Fin 32, t.ctr.cnt[j.val] = s.ctr.cnt[j.val]) ∧
        ((∀ j : Fin 256, 32 ≤ j.val → s.ctr.cnt[j] = 0xFF#8) →
          ∀ j : Fin 256, 32 ≤ j.val → t.ctr.cnt[j] = 0#8) ∧
        Unchanged [.cnt] [.idx] s t

/-- ENCRYPT and DECRYPT (rules R200, R201, R203 and R214): with context, key, IV and input in place the
call completes, byte `q` of the result is the input byte XOR the keystream byte of rule R214, the result has
the input's length, the round keys are gone, and only the call's own storage has changed. -/
def Obligations.CallResult : Prop :=
  encode .encrypt = 0x02000000#32 ∧ encode .decrypt = 0x03000000#32 ∧
    ∀ (i : Instr) (s : State) (key : Block) (iv : Vector Byte 32) (data : List Byte),
      i = .encrypt ∨ i = .decrypt → ContextInv s → s.ctx.valid = true →
      KeySupplied s key → IvSupplied s iv → InputSupplied s data →
      ∃ t, exec i s = .next t ∧ t.out.valid = true ∧ t.err = none ∧ t.out.len = data.length ∧
        (∀ q, t.byteAt .dout q = data[q]?.map fun d =>
          d ^^^ Reference.keystreamByte s.ctx.sbox key s.ctx.rounds.toNat iv q) ∧
        t.keys.valid = false ∧ (∀ a, t.byteAt .rk a = none) ∧
        Unchanged [.dout, .rk, .t, .st, .tmp, .g, .cnt, .ks]
          [.rkValid, .doutLen, .outValid, .err, .w, .rnd, .grp, .p, .n, .idx] s t

/-- The errors of ENCRYPT and DECRYPT (rules R202, R251, R252, R256, R257): the state's admission first,
then the lengths, whatever the input's length; where both are bad one of the two is reported; where
neither is, no error is. -/
def Obligations.CallErrors : Prop :=
  ∀ (i : Instr) (s : State), i = .encrypt ∨ i = .decrypt →
    (s.ctx.valid = false → exec i s = .next (s.raise .illegalCommand)) ∧
    (s.ctx.valid = true → s.ops.keyDesc.written = true → s.ops.ivDesc.written = true →
      s.ops.dinDesc.written = true →
      ((s.ops.keyDesc.present = false ∨ s.ops.keyDesc.len ≠ 256) →
        s.ops.ivDesc.present = true → s.ops.ivDesc.len = 32 →
        exec i s = .next (s.raise .invalidKeyLength)) ∧
      ((s.ops.ivDesc.present = false ∨ s.ops.ivDesc.len ≠ 32) →
        s.ops.keyDesc.present = true → s.ops.keyDesc.len = 256 →
        exec i s = .next (s.raise .invalidIvLength)) ∧
      ((s.ops.keyDesc.present = false ∨ s.ops.keyDesc.len ≠ 256) →
        (s.ops.ivDesc.present = false ∨ s.ops.ivDesc.len ≠ 32) →
        ∃ t, exec i s = .next t ∧
          (t.err = some .invalidKeyLength ∨ t.err = some .invalidIvLength) ∧
          t.out.valid = false ∧ Unchanged [] [.err, .outValid, .freeIndex] s t) ∧
      (s.ops.keyDesc.present = true → s.ops.keyDesc.len = 256 →
        s.ops.ivDesc.present = true → s.ops.ivDesc.len = 32 →
        ∀ t, exec i s = .next t → t.err = none))

/-- DECRYPT of the bytes an ENCRYPT left, under the same context, key and IV, gives the input back, byte for
byte (rules R201 and R216). -/
def Obligations.DecryptUndoesEncrypt : Prop :=
  ∀ (s t u : State) (key : Block) (iv : Vector Byte 32) (data cipher : List Byte),
    ContextInv s → s.ctx.valid = true → KeySupplied s key → IvSupplied s iv →
    InputSupplied s data → exec .encrypt s = .next t →
    (∀ q, t.byteAt .dout q = cipher[q]?) →
    u.ctx = s.ctx → KeySupplied u key → IvSupplied u iv → InputSupplied u cipher →
    ∃ v, exec .decrypt u = .next v ∧ v.out.valid = true ∧ v.out.len = data.length ∧
      ∀ q, v.byteAt .dout q = data[q]?

/-- A call is the sequence of operations of rule R203, issued one by one from a fresh result buffer and
`P = 0`: the same result bytes, the same round-key storage, the same context and operands. The result buffer is fresh
and the sequencer's KEYEXPAND makes no check by the model's reading (assumption logs 8 and 20), and both
leave an emptied round-key storage (assumption log 3). -/
def Obligations.CallIsItsProgram : Prop :=
  ∀ (i : Instr) (s : State) (key : Block) (iv : Vector Byte 32) (data : List Byte),
    i = .encrypt ∨ i = .decrypt → ContextInv s → s.ctx.valid = true →
    KeySupplied s key → IvSupplied s iv → InputSupplied s data →
    ∃ t u, exec i s = .next t ∧
      runOps (callProgram ((data.length + 255) / 256))
        { s with
          out := { s.out with dout := [] }
          seq := { s.seq with p := 0 }
          ports := { s.ports with issuer := .seq } } = .next u ∧
      t.out.dout = u.out.dout ∧ t.keys.rk = u.keys.rk ∧ t.keys.valid = u.keys.valid ∧
      t.ctx = u.ctx ∧ t.ops = u.ops

/-! ### The system family (44_system_commands.md) -/

/-- RELEASE (rules R230 and R231): both issuers; the round keys are gone and BLOCKENC is no longer
admitted; the discarded buffers are all overwritten with zeros or all left as they were (the parameter
`ZEROIZE`; that the storage of `RK` is emptied either way is the model's reading, assumption log 3). -/
def Obligations.ReleaseRule : Prop :=
  encode .release = 0x04000000#32 ∧
    (∀ s : State, s.ports.issuer = .host → s.ctx.valid = false →
      exec .release s = .next (s.raise .illegalCommand)) ∧
    (∀ s : State, s.ports.issuer = .host → s.ctx.valid = true →
      ∃ t, exec .release s = .next t ∧ t.keys.valid = false ∧ t.err = none ∧
        t.out.valid = false ∧ (∀ a, t.byteAt .rk a = none) ∧
        Unchanged [.rk, .t, .st, .tmp, .g, .cnt, .ks] [.rkValid, .err, .outValid] s t ∧
        exec .blockenc t = .next (t.raise .illegalCommand)) ∧
    (∀ s : State, s.ports.issuer = .seq →
      ∃ t, exec .release s = .next t ∧ t.keys.valid = false ∧ (∀ a, t.byteAt .rk a = none) ∧
        Unchanged [.rk, .t, .st, .tmp, .g, .cnt, .ks] [.rkValid] s t) ∧
    ∀ s t : State, (s.ports.issuer = .host → s.ctx.valid = true) → exec .release s = .next t →
      Unchanged [.rk] [.rkValid, .err, .outValid] s t ∨
        ∀ sp, sp ∈ [Space.t, .st, .tmp, .g, .cnt, .ks] →
          ∀ a, t.byteAt sp a = (s.byteAt sp a).map fun _ => 0#8

/-- Host reads (rules R46, R72 and R232): what each register and each space returns, that a read changes
nothing, and that every other read is refused. -/
def Obligations.HostReads : Prop :=
  (∀ (s : State) (reg : Nat) (rest : List HostAction), s.ports.seqWords = [] →
      s.ports.hostActions = .readReg reg :: rest →
      step s =
        if reg = 1 then .next { s with ports := { s.ports with
          hostActions := rest, hostReads := .status s.status :: s.ports.hostReads } }
        else if reg = 5 ∧ s.out.valid = true then .next { s with ports := { s.ports with
          hostActions := rest, hostReads := .doutLen s.out.len :: s.ports.hostReads } }
        else if reg = 6 ∧ s.ctx.valid = true then .next { s with ports := { s.ports with
          hostActions := rest, hostReads := .cfgR s.ctx.rounds :: s.ports.hostReads } }
        else .refused .hostReadRefused) ∧
    (∀ (s : State) (sp : Space) (addr n : Nat) (rest : List HostAction), s.ports.seqWords = [] →
      s.ports.hostActions = .readBytes sp addr n :: rest →
      sp ≠ .dout ∨ s.out.valid = false ∨ s.out.len < addr + n →
      step s = .refused .hostReadRefused) ∧
    ∀ (s : State) (addr n : Nat) (rest : List HostAction), BoundaryInv s →
      s.ports.hostActions = .readBytes .dout addr n :: rest → s.out.valid = true →
      addr + n ≤ s.out.len →
      ∃ bytes : List Byte, bytes.length = n ∧
        (∀ j, j < n → bytes[j]? = s.byteAt .dout (addr + j)) ∧
        step s = .next { s with ports := { s.ports with
          hostActions := rest, hostReads := .bytes bytes :: s.ports.hostReads } }

/-- Host writes (rules R39, R41 and R233): the three descriptors, the bytes of `KEY`, `IV` and `DIN`, each
consuming the host's action and changing nothing else, and the refusal of every other register and space.
Three clauses are the model's choice: bytes are stored at every index, whatever the descriptor's length is
(assumption log 10), data of a kind that is not the register's is refused (assumption log 19), and a
descriptor's write leaves the bytes beyond its length (assumption log 23). -/
def Obligations.HostWrites : Prop :=
  (∀ (s : State) (reg len : Nat) (present : Bool) (rest : List HostAction),
      s.ports.seqWords = [] → s.ports.hostActions = .writeReg reg (.desc present len) :: rest →
      (reg = 2 → ∃ t, step s = .next t ∧
        t.ops.keyDesc = { written := true, present := present, len := len } ∧
        t.ports = { s.ports with hostActions := rest } ∧
        Unchanged [] [.keyDesc, .ports] s t) ∧
      (reg = 3 → ∃ t, step s = .next t ∧
        t.ops.ivDesc = { written := true, present := present, len := len } ∧
        t.ports = { s.ports with hostActions := rest } ∧
        Unchanged [] [.ivDesc, .ports] s t)) ∧
    (∀ (s : State) (len : Nat) (rest : List HostAction), s.ports.seqWords = [] →
      s.ports.hostActions = .writeReg 4 (.length len) :: rest →
      ∃ t, step s = .next t ∧ t.ops.dinDesc = { written := true, len := len } ∧
        t.ports = { s.ports with hostActions := rest } ∧
        Unchanged [] [.dinDesc, .ports] s t) ∧
    (∀ (s : State) (reg : Nat) (d : RegData) (rest : List HostAction), s.ports.seqWords = [] →
      s.ports.hostActions = .writeReg reg d :: rest →
      reg ∉ [0, 2, 3, 4] ∨ (reg = 0 ∧ ∀ w, d ≠ .word w) ∨
        ((reg = 2 ∨ reg = 3) ∧ ∀ p n, d ≠ .desc p n) ∨ (reg = 4 ∧ ∀ n, d ≠ .length n) →
      step s = .refused .hostWriteRefused) ∧
    ∀ (s : State) (sp : Space) (addr : Nat) (bytes : List Byte) (rest : List HostAction),
      s.ports.seqWords = [] → s.ports.hostActions = .writeBytes sp addr bytes :: rest →
      (sp ∈ [Space.key, .iv, .din] →
        ∃ t, step s = .next t ∧
          (∀ j, j < bytes.length → t.byteAt sp (addr + j) = bytes[j]?) ∧
          (∀ a, ¬ (addr ≤ a ∧ a < addr + bytes.length) → t.byteAt sp a = s.byteAt sp a) ∧
          t.ports = { s.ports with hostActions := rest } ∧ Unchanged [sp] [.ports] s t) ∧
      (sp ∉ [Space.key, .iv, .din] → step s = .refused .hostWriteRefused)

/-- A command whose operands the host has not written is refused (rule R46): a descriptor it reads was
never written, or a byte that an accepted descriptor announces. The order is the model's choice, which rule
R46 leaves open: a descriptor never written is refused before any length is checked, even where the length
of another operand is bad (assumption log 9). -/
def Obligations.UnwrittenOperandsRefused : Prop :=
  ∀ s : State, s.ports.issuer = .host → s.ctx.valid = true →
    (s.ops.keyDesc.written = false → exec .keyexpand s = .refused .descriptorNeverWritten) ∧
    (s.keys.valid = true → s.ops.dinDesc.written = false →
      exec .blockenc s = .refused .descriptorNeverWritten) ∧
    (s.ops.keyDesc.written = false ∨ s.ops.ivDesc.written = false ∨
        s.ops.dinDesc.written = false →
      exec .encrypt s = .refused .descriptorNeverWritten ∧
      exec .decrypt s = .refused .descriptorNeverWritten) ∧
    (s.ops.keyDesc = { written := true, present := true, len := 256 } →
      (∃ j, j < 256 ∧ s.byteAt .key j = none) →
      exec .keyexpand s = .refused .operandByteNeverWritten) ∧
    (s.keys.valid = true → s.ops.dinDesc = { written := true, len := 256 } →
      (∃ j, j < 256 ∧ s.byteAt .din j = none) →
      exec .blockenc s = .refused .operandByteNeverWritten) ∧
    (s.callDescriptorsWritten = true → s.keyBad = false → s.ivBad = false →
      ((∃ j, j < 256 ∧ s.byteAt .key j = none) ∨ (∃ j, j < 32 ∧ s.byteAt .iv j = none) ∨
        ∃ q, q < s.ops.dinDesc.len ∧ s.byteAt .din q = none) →
      exec .encrypt s = .refused .operandByteNeverWritten ∧
      exec .decrypt s = .refused .operandByteNeverWritten)

/-! ### The whole machine -/

/-- No operation writes the operands the host owns: the bytes of `KEY`, `IV` and `DIN` and their descriptors
(rules R37 and R39). -/
def Obligations.CommandsKeepOperands : Prop :=
  ∀ (i : Instr) (s t : State), exec i s = .next t →
    t.ops = s.ops ∧ t.ports = s.ports

/-- `OUT_VALID` after a host command: only a successful ENCRYPT, DECRYPT or BLOCKENC sets it, and every
other command and every error clears it (rule R42). -/
def Obligations.OutValidMeansResult : Prop :=
  ∀ (i : Instr) (s t : State), s.ports.issuer = .host → exec i s = .next t →
    (t.out.valid = true ↔
      (i = .encrypt ∨ i = .decrypt ∨ i = .blockenc) ∧ t.err = none)

/-- An index that rule R92 does not admit stops the micro-operation, and so does a round key that holds no
value (rules R46, R73 and R91; assumption log 6), and a stream position beyond the input (rule R36;
assumption log 12). -/
def Obligations.IndexStops : Prop :=
  ∀ (s : State) (w : BitVec 16), s.ports.issuer = .seq →
    (s.ctx.rounds.toNat < w.toNat → exec (.addkey w) s = .fault .noSuchRoundKey) ∧
    (w = 0#16 ∨ s.ctx.rounds.toNat < w.toNat →
      exec (.ksload w) s = .fault .noSuchRoundKey ∧ exec (.ksrcon w) s = .fault .noSuchRoundKey ∧
      exec (.ksxorp w) s = .fault .noSuchRoundKey ∧
      exec (.ksstore w) s = .fault .noSuchRoundKey) ∧
    (w.toNat ≤ s.ctx.rounds.toNat → s.byteAt .rk (256 * w.toNat) = none →
      exec (.addkey w) s = .refused .roundKeyHoldsNoValue) ∧
    (1 ≤ w.toNat → w.toNat ≤ s.ctx.rounds.toNat → s.byteAt .rk (256 * (w.toNat - 1)) = none →
      exec (.ksload w) s = .refused .roundKeyHoldsNoValue ∧
      exec (.ksxorp w) s = .refused .roundKeyHoldsNoValue) ∧
    (s.ops.dinDesc.len < s.seq.p →
      exec .ksxor s = .fault .streamPositionOutOfRange)

/-- Every step keeps every storage in its canonical form, in every state. -/
def Obligations.MemoryInvKept : Prop :=
  ∀ s t : State, MemoryInv s → step s = .next t → MemoryInv t

/-- The state after reset has the invariant of command boundaries. -/
def Obligations.BoundaryInvAtReset : Prop := BoundaryInv State.reset

/-- Every step from a command boundary ends at a command boundary, with its invariant (rules R11, R28, R29,
R30, R38, R42). -/
def Obligations.BoundaryInvKept : Prop :=
  ∀ s t : State, BoundaryInv s → step s = .next t → BoundaryInv t

/-- Nothing that the host or the platform does ends in a fault: no operation forms an out-of-range index
(rules R73 and R261). -/
def Obligations.HostStepsNeverFault : Prop :=
  ∀ (s : State) (e : Fault), s.ports.seqWords = [] → step s ≠ .fault e

/-- Totality (rule R261): at a command boundary, with the operands written, every host command completes,
whatever the word. -/
def Obligations.HostCommandsComplete : Prop :=
  ∀ (s : State) (w : Word32) (rest : List HostAction), BoundaryInv s → OperandsWritten s →
    s.ports.hostActions = .writeReg 0 (.word w) :: rest → ∃ t, step s = .next t

/-- What holds no value can influence nothing: two states that differ in residue only step to outcomes that
differ in residue only, with the same answers to the host (rules R46, R47 and R231). -/
def Obligations.ResidueIsUnobservable : Prop :=
  ∀ s t : State, BoundaryInv s → BoundaryInv t → hideResidue s = hideResidue t →
    SameOutcome (step s) (step t)
end

