-- ==== Sys2Proof/Laws/Blocks.lean ====
section
/-! SUPPORT. Laws of the byte functions: what each byte of a result is. -/

namespace Sys2Proof

/-- An element of a tabulated vector. -/
@[simp] theorem getElem_tab {α : Type} {n : Nat} (f : Fin n → α) (i : Nat) (h : i < n) :
    (tab f)[i] = f ⟨i, h⟩ := by simp [tab]

@[simp] theorem getElem_tab_fin {α : Type} {n : Nat} (f : Fin n → α) (i : Fin n) :
    (tab f)[i] = f i := by simp [tab]

@[simp] theorem getElem_zeroBlock (i : Nat) (h : i < 256) : zeroBlock[i] = 0#8 := by
  simp [zeroBlock]

/-- Two vectors with the same elements are equal. -/
theorem vector_ext {α : Type} {n : Nat} {a b : Vector α n}
    (h : ∀ (i : Nat) (hi : i < n), a[i] = b[i]) : a = b := Vector.ext h

namespace Machine

@[simp] theorem getElem_identityBlock (i : Nat) (h : i < 256) :
    identityBlock[i] = BitVec.ofNat 8 i := by
  rw [identityBlock, getElem_tab]

@[simp] theorem getElem_buildSBox (i : Nat) (h : i < 256) :
    buildSBox[i] = Config.sbox (BitVec.ofNat 8 i) := by
  rw [buildSBox, getElem_tab]

@[simp] theorem getElem_buildPerm (i : Nat) (h : i < 256) :
    buildPerm[i] = BitVec.ofNat 8 (16 * (i / 16) + (i % 16 + 16 - i / 16) % 16) := by
  simp [buildPerm]

@[simp] theorem getElem_rotBytes3 (t : Block) (j : Nat) (h : j < 256) :
    (rotBytes3 t)[j] = t[(j + 3) % 256] := by simp [rotBytes3]

@[simp] theorem getElem_subEveryFourth (sbox t : Block) (j : Nat) (h : j < 256) :
    (subEveryFourth sbox t)[j] = if j % 4 = 0 then sbox[t[j].toNat]'t[j].isLt else t[j] := by
  simp [subEveryFourth]

@[simp] theorem getElem_addRoundConstant (w : Nat) (t : Block) (j : Nat) (h : j < 256) :
    (addRoundConstant w t)[j] = if j = 0 then t[j] ^^^ roundConstant w else t[j] := by
  simp [addRoundConstant]

@[simp] theorem getElem_xorBlock (a b : Block) (i : Nat) (h : i < 256) :
    (xorBlock a b)[i] = a[i] ^^^ b[i] := by simp [xorBlock]

@[simp] theorem getElem_subBlock (sbox st : Block) (i : Nat) (h : i < 256) :
    (subBlock sbox st)[i] = sbox[st[i].toNat]'st[i].isLt := by simp [subBlock]

@[simp] theorem getElem_groupOf (grp : Fin 16) (st : Block) (i : Nat) (h : i < 16) :
    (groupOf grp st)[i] = st[16 * grp.val + i] := by simp [groupOf]

@[simp] theorem getElem_mixGroupBytes (grp : Fin 16) (g : Group) (st : Block) (q : Nat)
    (h : q < 256) :
    (mixGroupBytes grp g st)[q] =
      if q / 16 = grp.val then
        g[q % 16] ^^^ rotl8 g[(q % 16 + 1) % 16] 3 ^^^ g[(q % 16 + 15) % 16]
      else st[q] := by simp [mixGroupBytes]

@[simp] theorem getElem_maskBlock (round : Nat) (st : Block) (i : Nat) (h : i < 256) :
    (maskBlock round st)[i] = st[i] ^^^ maskByte round i := by simp [maskBlock]

theorem getElem_blockOfList (l : List Byte) (i : Nat) (h : i < 256) :
    (blockOfList l)[i] = l.getD i 0#8 := by simp [blockOfList]

/-- A list of 256 bytes and its block are the same bytes. -/
theorem blockOfList_toList (b : Block) : blockOfList b.toList = b := by
  apply vector_ext
  intro i hi
  rw [getElem_blockOfList]
  simp [List.getD_eq_getElem?_getD, hi]

theorem toList_blockOfList (l : List Byte) (h : l.length = 256) : (blockOfList l).toList = l := by
  apply List.ext_getElem
  · simp [h]
  · intro i h1 h2
    simp [getElem_blockOfList, h2]

/-! ### Scattering through a bijection -/

/-- A fold of guarded overwrites keeps the old value where no index matches. -/
theorem foldl_overwrite_none {α β : Type} (l : List α) (P : α → Prop) [DecidablePred P]
    (f : α → β) (b : β) (h : ∀ x ∈ l, ¬ P x) :
    l.foldl (fun cur x => if P x then f x else cur) b = b := by
  induction l generalizing b with
  | nil => rfl
  | cons x l ih =>
    rw [List.foldl_cons, if_neg (h x (by simp))]
    exact ih b fun y hy => h y (by simp [hy])

/-- A fold of guarded overwrites in which exactly one index matches gives that index's value. -/
theorem foldl_overwrite_one {α β : Type} (l : List α) (P : α → Prop) [DecidablePred P]
    (f : α → β) (b : β) (x : α) (hx : x ∈ l) (hP : P x) (huniq : ∀ y ∈ l, P y → y = x) :
    l.foldl (fun cur x => if P x then f x else cur) b = f x := by
  induction l generalizing b with
  | nil => simp at hx
  | cons y l ih =>
    rw [List.foldl_cons]
    by_cases hxl : x ∈ l
    · exact ih _ hxl fun z hz => huniq z (by simp [hz])
    · have hyx : y = x := by
        rcases List.mem_cons.mp hx with h | h
        · exact h.symm
        · exact absurd h hxl
      subst hyx
      rw [if_pos hP]
      apply foldl_overwrite_none
      intro z hz hPz
      have := huniq z (by simp [hz]) hPz
      subst this
      exact hxl hz

/-- The writes `out[dest[i]] <- src[i]` through an injective table put byte `i` at `dest[i]`,
whatever the buffer held before. -/
theorem getElem_scatter (dest src old : Block)
    (hinj : ∀ i j : Fin 256, dest[i] = dest[j] → i = j) (i : Fin 256) :
    (scatter dest src old)[dest[i].toNat]'dest[i].isLt = src[i] := by
  simp only [scatter, getElem_tab]
  refine foldl_overwrite_one (List.finRange 256) (fun j => dest[j].toNat = dest[i].toNat)
    (fun j => src[j]) _ i (List.mem_finRange i) rfl fun j _ hj => ?_
  exact hinj j i (BitVec.eq_of_toNat_eq hj)

/-- `PERM` is injective (rule R127: "It is a bijection"). -/
theorem buildPerm_injective (i j : Fin 256) (h : buildPerm[i] = buildPerm[j]) : i = j := by
  have h' := congrArg BitVec.toNat h
  simp only [Fin.getElem_fin, getElem_buildPerm, BitVec.toNat_ofNat] at h'
  have hi := i.isLt
  have hj := j.isLt
  have hrow : i.val / 16 = j.val / 16 := by omega
  have hcol : i.val % 16 = j.val % 16 := by
    rw [hrow] at h'
    omega
  apply Fin.ext
  omega

/-- Scattering through `PERM` rotates row `r` left by `r` places (rule R166). -/
theorem scatter_buildPerm (st old : Block) :
    scatter buildPerm st old = Reference.rotateRows st := by
  apply vector_ext
  intro q hq
  have hsrc : 16 * (q / 16) + (q % 16 + q / 16) % 16 < 256 := by omega
  have hdest : (buildPerm[(⟨16 * (q / 16) + (q % 16 + q / 16) % 16, hsrc⟩ : Fin 256)]).toNat
      = q := by
    simp only [Fin.getElem_fin, getElem_buildPerm, BitVec.toNat_ofNat]
    omega
  have h := getElem_scatter buildPerm st old buildPerm_injective
    ⟨16 * (q / 16) + (q % 16 + q / 16) % 16, hsrc⟩
  simp only [hdest] at h
  rw [h]
  simp [Reference.rotateRows]

end Machine

end Sys2Proof
end

