-- ==== Sys2Proof/Laws/MixCol.lean ====
section
/-! SUPPORT. MIXCOL group by group is MIXCOL on the whole state (42_block_primitive.md rule R167: groups
do not influence each other). -/

namespace Sys2Proof.Machine

@[simp] theorem getElem_mixGroups (st : Block) (q : Nat) (h : q < 256) :
    (Reference.mixGroups st)[q] =
      st[q] ^^^ rotl8 (st[16 * (q / 16) + (q % 16 + 1) % 16]'(by omega)) 3
        ^^^ st[16 * (q / 16) + (q % 16 + 15) % 16]'(by omega) := by
  simp [Reference.mixGroups]

/-- One group's update, as a function of the state buffer. -/
theorem getElem_mixOne (grp : Fin 16) (st : Block) (q : Nat) (h : q < 256) :
    (mixGroupBytes grp (groupOf grp st) st)[q] =
      if q / 16 = grp.val then (Reference.mixGroups st)[q] else st[q] := by
  rw [getElem_mixGroupBytes, getElem_mixGroups]
  split
  · next hg =>
    simp only [getElem_groupOf, ← hg]
    have : 16 * (q / 16) + q % 16 = q := by omega
    simp only [this]
  · rfl

/-- MIXCOL at a byte reads its own group only. -/
theorem mixGroups_congr (a b : Block) (q : Nat) (h : q < 256)
    (hab : ∀ (j : Nat) (hj : j < 256), j / 16 = q / 16 → a[j] = b[j]) :
    (Reference.mixGroups a)[q] = (Reference.mixGroups b)[q] := by
  rw [getElem_mixGroups, getElem_mixGroups, hab q h rfl, hab _ (by omega) (by omega),
    hab _ (by omega) (by omega)]

/-- The groups of a list, each updated once: the bytes of those groups are mixed. -/
theorem getElem_mixFold (l : List (Fin 16)) (hl : l.Nodup) (st : Block) (q : Nat) (h : q < 256) :
    (l.foldl (fun b grp => mixGroupBytes grp (groupOf grp b) b) st)[q] =
      if (⟨q / 16, by omega⟩ : Fin 16) ∈ l then (Reference.mixGroups st)[q] else st[q] := by
  induction l generalizing st with
  | nil => simp
  | cons x l ih =>
    rw [List.foldl_cons, ih (List.nodup_cons.mp hl).2]
    have hx := (List.nodup_cons.mp hl).1
    by_cases hq : (⟨q / 16, by omega⟩ : Fin 16) ∈ l
    · have hne : q / 16 ≠ x.val := by
        intro he
        have hxq : x = ⟨q / 16, by omega⟩ := Fin.ext he.symm
        exact hx (hxq ▸ hq)
      rw [if_pos hq, if_pos (by simp [hq])]
      apply mixGroups_congr
      intro j hj hjq
      rw [getElem_mixOne, if_neg (by omega)]
    · rw [if_neg hq, getElem_mixOne]
      by_cases he : q / 16 = x.val
      · rw [if_pos he, if_pos (List.mem_cons.mpr (.inl (Fin.ext he)))]
      · rw [if_neg he, if_neg]
        intro hmem
        rcases List.mem_cons.mp hmem with hm | hm
        · exact he (congrArg Fin.val hm)
        · exact hq hm

/-- The state fields MIXCOL's loop leaves, group list by group list. -/
theorem mixGroup_foldl (l : List (Fin 16)) (s : State) :
    ∃ (grp : Nat) (g : Group), l.foldl State.mixGroup s =
      { s with
        seq.grp := grp
        blk.g := g
        blk.st := l.foldl (fun b grp => mixGroupBytes grp (groupOf grp b) b) s.blk.st } := by
  induction l generalizing s with
  | nil => exact ⟨s.seq.grp, s.blk.g, rfl⟩
  | cons x l ih =>
    obtain ⟨grp, g, h⟩ := ih (s.mixGroup x)
    exact ⟨grp, g, by rw [List.foldl_cons, h]; rfl⟩

/-- What MIXCOL leaves: every group mixed from its own snapshot; `GRP` and `G` are those of the last
group, whose bytes no earlier group changed. -/
theorem mixCol_eq (s : State) :
    s.mixCol = { s with
      seq.grp := 15
      blk.g := groupOf 15 s.blk.st
      blk.st := Reference.mixGroups s.blk.st } := by
  have hst : (List.finRange 16).foldl (fun b grp => mixGroupBytes grp (groupOf grp b) b) s.blk.st
      = Reference.mixGroups s.blk.st := by
    apply vector_ext
    intro q hq
    rw [getElem_mixFold _ (List.nodup_finRange 16), if_pos (List.mem_finRange _)]
  have hsplit : List.finRange 16 = (List.finRange 16).take 15 ++ [15] := by decide
  have hnd : ((List.finRange 16).take 15).Nodup :=
    (List.nodup_finRange 16).sublist (List.take_sublist _ _)
  obtain ⟨grp, g, h⟩ := mixGroup_foldl ((List.finRange 16).take 15) s
  have hlast : s.mixCol = State.mixGroup (((List.finRange 16).take 15).foldl State.mixGroup s) 15 := by
    rw [State.mixCol, hsplit, List.foldl_append]
    rfl
  rw [hsplit, List.foldl_append, List.foldl_cons, List.foldl_nil] at hst
  rw [hlast, h]
  simp only [State.mixGroup, hst]
  have hg : groupOf 15 (((List.finRange 16).take 15).foldl
      (fun b grp => mixGroupBytes grp (groupOf grp b) b) s.blk.st) = groupOf 15 s.blk.st := by
    apply vector_ext
    intro i hi
    rw [getElem_groupOf, getElem_groupOf, getElem_mixFold _ hnd]
    rw [if_neg]
    intro hmem
    have h15 : (⟨(16 * (15 : Fin 16).val + i) / 16, by simp; omega⟩ : Fin 16) = 15 := by
      apply Fin.ext
      simp
      omega
    rw [h15] at hmem
    exact absurd hmem (by decide)
  rw [hg]
  rfl

end Sys2Proof.Machine
end

