-- ==== Sys2Proof/Laws/State.lean ====
section
/-! SUPPORT. What each named update of the state does to each part of the state: one lemma per part per
update, so that no later proof unfolds an update. Each is true by `rfl`, written `(rfl)` so that `simp` rewrites with
it as a proposition and never compares two whole states by unfolding. -/

namespace Sys2Proof.Machine

/-! ### `setW` -/

@[simp] theorem State.setW_ctx (s : State) (n : Nat) : (s.setW n).ctx = s.ctx := (rfl)
@[simp] theorem State.setW_keys (s : State) (n : Nat) : (s.setW n).keys = s.keys := (rfl)
@[simp] theorem State.setW_blk (s : State) (n : Nat) : (s.setW n).blk = s.blk := (rfl)
@[simp] theorem State.setW_ctr (s : State) (n : Nat) : (s.setW n).ctr = s.ctr := (rfl)
@[simp] theorem State.setW_seq (s : State) (n : Nat) :
    (s.setW n).seq = { s.seq with w := n } := (rfl)
@[simp] theorem State.setW_ops (s : State) (n : Nat) : (s.setW n).ops = s.ops := (rfl)
@[simp] theorem State.setW_out (s : State) (n : Nat) : (s.setW n).out = s.out := (rfl)
@[simp] theorem State.setW_err (s : State) (n : Nat) : (s.setW n).err = s.err := (rfl)
@[simp] theorem State.setW_ports (s : State) (n : Nat) : (s.setW n).ports = s.ports := (rfl)
@[simp] theorem State.setW_freeIndex (s : State) (n : Nat) : (s.setW n).freeIndex = s.freeIndex := (rfl)

/-! ### `setRnd` -/

@[simp] theorem State.setRnd_ctx (s : State) (n : Nat) : (s.setRnd n).ctx = s.ctx := (rfl)
@[simp] theorem State.setRnd_keys (s : State) (n : Nat) : (s.setRnd n).keys = s.keys := (rfl)
@[simp] theorem State.setRnd_blk (s : State) (n : Nat) : (s.setRnd n).blk = s.blk := (rfl)
@[simp] theorem State.setRnd_ctr (s : State) (n : Nat) : (s.setRnd n).ctr = s.ctr := (rfl)
@[simp] theorem State.setRnd_seq (s : State) (n : Nat) :
    (s.setRnd n).seq = { s.seq with rnd := n } := (rfl)
@[simp] theorem State.setRnd_ops (s : State) (n : Nat) : (s.setRnd n).ops = s.ops := (rfl)
@[simp] theorem State.setRnd_out (s : State) (n : Nat) : (s.setRnd n).out = s.out := (rfl)
@[simp] theorem State.setRnd_err (s : State) (n : Nat) : (s.setRnd n).err = s.err := (rfl)
@[simp] theorem State.setRnd_ports (s : State) (n : Nat) : (s.setRnd n).ports = s.ports := (rfl)
@[simp] theorem State.setRnd_freeIndex (s : State) (n : Nat) : (s.setRnd n).freeIndex = s.freeIndex := (rfl)

/-! ### `setGrp` -/

@[simp] theorem State.setGrp_ctx (s : State) (n : Nat) : (s.setGrp n).ctx = s.ctx := (rfl)
@[simp] theorem State.setGrp_keys (s : State) (n : Nat) : (s.setGrp n).keys = s.keys := (rfl)
@[simp] theorem State.setGrp_blk (s : State) (n : Nat) : (s.setGrp n).blk = s.blk := (rfl)
@[simp] theorem State.setGrp_ctr (s : State) (n : Nat) : (s.setGrp n).ctr = s.ctr := (rfl)
@[simp] theorem State.setGrp_seq (s : State) (n : Nat) :
    (s.setGrp n).seq = { s.seq with grp := n } := (rfl)
@[simp] theorem State.setGrp_ops (s : State) (n : Nat) : (s.setGrp n).ops = s.ops := (rfl)
@[simp] theorem State.setGrp_out (s : State) (n : Nat) : (s.setGrp n).out = s.out := (rfl)
@[simp] theorem State.setGrp_err (s : State) (n : Nat) : (s.setGrp n).err = s.err := (rfl)
@[simp] theorem State.setGrp_ports (s : State) (n : Nat) : (s.setGrp n).ports = s.ports := (rfl)
@[simp] theorem State.setGrp_freeIndex (s : State) (n : Nat) : (s.setGrp n).freeIndex = s.freeIndex := (rfl)

/-! ### `setP` -/

@[simp] theorem State.setP_ctx (s : State) (n : Nat) : (s.setP n).ctx = s.ctx := (rfl)
@[simp] theorem State.setP_keys (s : State) (n : Nat) : (s.setP n).keys = s.keys := (rfl)
@[simp] theorem State.setP_blk (s : State) (n : Nat) : (s.setP n).blk = s.blk := (rfl)
@[simp] theorem State.setP_ctr (s : State) (n : Nat) : (s.setP n).ctr = s.ctr := (rfl)
@[simp] theorem State.setP_seq (s : State) (n : Nat) :
    (s.setP n).seq = { s.seq with p := n } := (rfl)
@[simp] theorem State.setP_ops (s : State) (n : Nat) : (s.setP n).ops = s.ops := (rfl)
@[simp] theorem State.setP_out (s : State) (n : Nat) : (s.setP n).out = s.out := (rfl)
@[simp] theorem State.setP_err (s : State) (n : Nat) : (s.setP n).err = s.err := (rfl)
@[simp] theorem State.setP_ports (s : State) (n : Nat) : (s.setP n).ports = s.ports := (rfl)
@[simp] theorem State.setP_freeIndex (s : State) (n : Nat) : (s.setP n).freeIndex = s.freeIndex := (rfl)

/-! ### `setN` -/

@[simp] theorem State.setN_ctx (s : State) (n : Nat) : (s.setN n).ctx = s.ctx := (rfl)
@[simp] theorem State.setN_keys (s : State) (n : Nat) : (s.setN n).keys = s.keys := (rfl)
@[simp] theorem State.setN_blk (s : State) (n : Nat) : (s.setN n).blk = s.blk := (rfl)
@[simp] theorem State.setN_ctr (s : State) (n : Nat) : (s.setN n).ctr = s.ctr := (rfl)
@[simp] theorem State.setN_seq (s : State) (n : Nat) :
    (s.setN n).seq = { s.seq with n := n } := (rfl)
@[simp] theorem State.setN_ops (s : State) (n : Nat) : (s.setN n).ops = s.ops := (rfl)
@[simp] theorem State.setN_out (s : State) (n : Nat) : (s.setN n).out = s.out := (rfl)
@[simp] theorem State.setN_err (s : State) (n : Nat) : (s.setN n).err = s.err := (rfl)
@[simp] theorem State.setN_ports (s : State) (n : Nat) : (s.setN n).ports = s.ports := (rfl)
@[simp] theorem State.setN_freeIndex (s : State) (n : Nat) : (s.setN n).freeIndex = s.freeIndex := (rfl)

/-! ### `setIdx` -/

@[simp] theorem State.setIdx_ctx (s : State) (n : Nat) : (s.setIdx n).ctx = s.ctx := (rfl)
@[simp] theorem State.setIdx_keys (s : State) (n : Nat) : (s.setIdx n).keys = s.keys := (rfl)
@[simp] theorem State.setIdx_blk (s : State) (n : Nat) : (s.setIdx n).blk = s.blk := (rfl)
@[simp] theorem State.setIdx_ctr (s : State) (n : Nat) : (s.setIdx n).ctr = s.ctr := (rfl)
@[simp] theorem State.setIdx_seq (s : State) (n : Nat) :
    (s.setIdx n).seq = { s.seq with idx := n } := (rfl)
@[simp] theorem State.setIdx_ops (s : State) (n : Nat) : (s.setIdx n).ops = s.ops := (rfl)
@[simp] theorem State.setIdx_out (s : State) (n : Nat) : (s.setIdx n).out = s.out := (rfl)
@[simp] theorem State.setIdx_err (s : State) (n : Nat) : (s.setIdx n).err = s.err := (rfl)
@[simp] theorem State.setIdx_ports (s : State) (n : Nat) : (s.setIdx n).ports = s.ports := (rfl)
@[simp] theorem State.setIdx_freeIndex (s : State) (n : Nat) : (s.setIdx n).freeIndex = s.freeIndex := (rfl)

/-! ### `setRk` -/

@[simp] theorem State.setRk_ctx (s : State) (rk : Store Block) : (s.setRk rk).ctx = s.ctx := (rfl)
@[simp] theorem State.setRk_keys (s : State) (rk : Store Block) :
    (s.setRk rk).keys = { s.keys with rk := rk } := (rfl)
@[simp] theorem State.setRk_blk (s : State) (rk : Store Block) : (s.setRk rk).blk = s.blk := (rfl)
@[simp] theorem State.setRk_ctr (s : State) (rk : Store Block) : (s.setRk rk).ctr = s.ctr := (rfl)
@[simp] theorem State.setRk_seq (s : State) (rk : Store Block) : (s.setRk rk).seq = s.seq := (rfl)
@[simp] theorem State.setRk_ops (s : State) (rk : Store Block) : (s.setRk rk).ops = s.ops := (rfl)
@[simp] theorem State.setRk_out (s : State) (rk : Store Block) : (s.setRk rk).out = s.out := (rfl)
@[simp] theorem State.setRk_err (s : State) (rk : Store Block) : (s.setRk rk).err = s.err := (rfl)
@[simp] theorem State.setRk_ports (s : State) (rk : Store Block) : (s.setRk rk).ports = s.ports := (rfl)
@[simp] theorem State.setRk_freeIndex (s : State) (rk : Store Block) : (s.setRk rk).freeIndex = s.freeIndex := (rfl)

/-! ### `setT` -/

@[simp] theorem State.setT_ctx (s : State) (b : Block) : (s.setT b).ctx = s.ctx := (rfl)
@[simp] theorem State.setT_keys (s : State) (b : Block) :
    (s.setT b).keys = { s.keys with t := b } := (rfl)
@[simp] theorem State.setT_blk (s : State) (b : Block) : (s.setT b).blk = s.blk := (rfl)
@[simp] theorem State.setT_ctr (s : State) (b : Block) : (s.setT b).ctr = s.ctr := (rfl)
@[simp] theorem State.setT_seq (s : State) (b : Block) : (s.setT b).seq = s.seq := (rfl)
@[simp] theorem State.setT_ops (s : State) (b : Block) : (s.setT b).ops = s.ops := (rfl)
@[simp] theorem State.setT_out (s : State) (b : Block) : (s.setT b).out = s.out := (rfl)
@[simp] theorem State.setT_err (s : State) (b : Block) : (s.setT b).err = s.err := (rfl)
@[simp] theorem State.setT_ports (s : State) (b : Block) : (s.setT b).ports = s.ports := (rfl)
@[simp] theorem State.setT_freeIndex (s : State) (b : Block) : (s.setT b).freeIndex = s.freeIndex := (rfl)

/-! ### `setKeysValid` -/

@[simp] theorem State.setKeysValid_ctx (s : State) (v : Bool) : (s.setKeysValid v).ctx = s.ctx := (rfl)
@[simp] theorem State.setKeysValid_keys (s : State) (v : Bool) :
    (s.setKeysValid v).keys = { s.keys with valid := v } := (rfl)
@[simp] theorem State.setKeysValid_blk (s : State) (v : Bool) : (s.setKeysValid v).blk = s.blk := (rfl)
@[simp] theorem State.setKeysValid_ctr (s : State) (v : Bool) : (s.setKeysValid v).ctr = s.ctr := (rfl)
@[simp] theorem State.setKeysValid_seq (s : State) (v : Bool) : (s.setKeysValid v).seq = s.seq := (rfl)
@[simp] theorem State.setKeysValid_ops (s : State) (v : Bool) : (s.setKeysValid v).ops = s.ops := (rfl)
@[simp] theorem State.setKeysValid_out (s : State) (v : Bool) : (s.setKeysValid v).out = s.out := (rfl)
@[simp] theorem State.setKeysValid_err (s : State) (v : Bool) : (s.setKeysValid v).err = s.err := (rfl)
@[simp] theorem State.setKeysValid_ports (s : State) (v : Bool) : (s.setKeysValid v).ports = s.ports := (rfl)
@[simp] theorem State.setKeysValid_freeIndex (s : State) (v : Bool) : (s.setKeysValid v).freeIndex = s.freeIndex := (rfl)

/-! ### `setSt` -/

@[simp] theorem State.setSt_ctx (s : State) (b : Block) : (s.setSt b).ctx = s.ctx := (rfl)
@[simp] theorem State.setSt_keys (s : State) (b : Block) : (s.setSt b).keys = s.keys := (rfl)
@[simp] theorem State.setSt_blk (s : State) (b : Block) :
    (s.setSt b).blk = { s.blk with st := b } := (rfl)
@[simp] theorem State.setSt_ctr (s : State) (b : Block) : (s.setSt b).ctr = s.ctr := (rfl)
@[simp] theorem State.setSt_seq (s : State) (b : Block) : (s.setSt b).seq = s.seq := (rfl)
@[simp] theorem State.setSt_ops (s : State) (b : Block) : (s.setSt b).ops = s.ops := (rfl)
@[simp] theorem State.setSt_out (s : State) (b : Block) : (s.setSt b).out = s.out := (rfl)
@[simp] theorem State.setSt_err (s : State) (b : Block) : (s.setSt b).err = s.err := (rfl)
@[simp] theorem State.setSt_ports (s : State) (b : Block) : (s.setSt b).ports = s.ports := (rfl)
@[simp] theorem State.setSt_freeIndex (s : State) (b : Block) : (s.setSt b).freeIndex = s.freeIndex := (rfl)

/-! ### `setTmp` -/

@[simp] theorem State.setTmp_ctx (s : State) (b : Block) : (s.setTmp b).ctx = s.ctx := (rfl)
@[simp] theorem State.setTmp_keys (s : State) (b : Block) : (s.setTmp b).keys = s.keys := (rfl)
@[simp] theorem State.setTmp_blk (s : State) (b : Block) :
    (s.setTmp b).blk = { s.blk with tmp := b } := (rfl)
@[simp] theorem State.setTmp_ctr (s : State) (b : Block) : (s.setTmp b).ctr = s.ctr := (rfl)
@[simp] theorem State.setTmp_seq (s : State) (b : Block) : (s.setTmp b).seq = s.seq := (rfl)
@[simp] theorem State.setTmp_ops (s : State) (b : Block) : (s.setTmp b).ops = s.ops := (rfl)
@[simp] theorem State.setTmp_out (s : State) (b : Block) : (s.setTmp b).out = s.out := (rfl)
@[simp] theorem State.setTmp_err (s : State) (b : Block) : (s.setTmp b).err = s.err := (rfl)
@[simp] theorem State.setTmp_ports (s : State) (b : Block) : (s.setTmp b).ports = s.ports := (rfl)
@[simp] theorem State.setTmp_freeIndex (s : State) (b : Block) : (s.setTmp b).freeIndex = s.freeIndex := (rfl)

/-! ### `setG` -/

@[simp] theorem State.setG_ctx (s : State) (g : Group) : (s.setG g).ctx = s.ctx := (rfl)
@[simp] theorem State.setG_keys (s : State) (g : Group) : (s.setG g).keys = s.keys := (rfl)
@[simp] theorem State.setG_blk (s : State) (g : Group) :
    (s.setG g).blk = { s.blk with g := g } := (rfl)
@[simp] theorem State.setG_ctr (s : State) (g : Group) : (s.setG g).ctr = s.ctr := (rfl)
@[simp] theorem State.setG_seq (s : State) (g : Group) : (s.setG g).seq = s.seq := (rfl)
@[simp] theorem State.setG_ops (s : State) (g : Group) : (s.setG g).ops = s.ops := (rfl)
@[simp] theorem State.setG_out (s : State) (g : Group) : (s.setG g).out = s.out := (rfl)
@[simp] theorem State.setG_err (s : State) (g : Group) : (s.setG g).err = s.err := (rfl)
@[simp] theorem State.setG_ports (s : State) (g : Group) : (s.setG g).ports = s.ports := (rfl)
@[simp] theorem State.setG_freeIndex (s : State) (g : Group) : (s.setG g).freeIndex = s.freeIndex := (rfl)

/-! ### `setCnt` -/

@[simp] theorem State.setCnt_ctx (s : State) (b : Block) : (s.setCnt b).ctx = s.ctx := (rfl)
@[simp] theorem State.setCnt_keys (s : State) (b : Block) : (s.setCnt b).keys = s.keys := (rfl)
@[simp] theorem State.setCnt_blk (s : State) (b : Block) : (s.setCnt b).blk = s.blk := (rfl)
@[simp] theorem State.setCnt_ctr (s : State) (b : Block) :
    (s.setCnt b).ctr = { s.ctr with cnt := b } := (rfl)
@[simp] theorem State.setCnt_seq (s : State) (b : Block) : (s.setCnt b).seq = s.seq := (rfl)
@[simp] theorem State.setCnt_ops (s : State) (b : Block) : (s.setCnt b).ops = s.ops := (rfl)
@[simp] theorem State.setCnt_out (s : State) (b : Block) : (s.setCnt b).out = s.out := (rfl)
@[simp] theorem State.setCnt_err (s : State) (b : Block) : (s.setCnt b).err = s.err := (rfl)
@[simp] theorem State.setCnt_ports (s : State) (b : Block) : (s.setCnt b).ports = s.ports := (rfl)
@[simp] theorem State.setCnt_freeIndex (s : State) (b : Block) : (s.setCnt b).freeIndex = s.freeIndex := (rfl)

/-! ### `setKs` -/

@[simp] theorem State.setKs_ctx (s : State) (b : Block) : (s.setKs b).ctx = s.ctx := (rfl)
@[simp] theorem State.setKs_keys (s : State) (b : Block) : (s.setKs b).keys = s.keys := (rfl)
@[simp] theorem State.setKs_blk (s : State) (b : Block) : (s.setKs b).blk = s.blk := (rfl)
@[simp] theorem State.setKs_ctr (s : State) (b : Block) :
    (s.setKs b).ctr = { s.ctr with ks := b } := (rfl)
@[simp] theorem State.setKs_seq (s : State) (b : Block) : (s.setKs b).seq = s.seq := (rfl)
@[simp] theorem State.setKs_ops (s : State) (b : Block) : (s.setKs b).ops = s.ops := (rfl)
@[simp] theorem State.setKs_out (s : State) (b : Block) : (s.setKs b).out = s.out := (rfl)
@[simp] theorem State.setKs_err (s : State) (b : Block) : (s.setKs b).err = s.err := (rfl)
@[simp] theorem State.setKs_ports (s : State) (b : Block) : (s.setKs b).ports = s.ports := (rfl)
@[simp] theorem State.setKs_freeIndex (s : State) (b : Block) : (s.setKs b).freeIndex = s.freeIndex := (rfl)

/-! ### `setDout` -/

@[simp] theorem State.setDout_ctx (s : State) (m : Memory) : (s.setDout m).ctx = s.ctx := (rfl)
@[simp] theorem State.setDout_keys (s : State) (m : Memory) : (s.setDout m).keys = s.keys := (rfl)
@[simp] theorem State.setDout_blk (s : State) (m : Memory) : (s.setDout m).blk = s.blk := (rfl)
@[simp] theorem State.setDout_ctr (s : State) (m : Memory) : (s.setDout m).ctr = s.ctr := (rfl)
@[simp] theorem State.setDout_seq (s : State) (m : Memory) : (s.setDout m).seq = s.seq := (rfl)
@[simp] theorem State.setDout_ops (s : State) (m : Memory) : (s.setDout m).ops = s.ops := (rfl)
@[simp] theorem State.setDout_out (s : State) (m : Memory) :
    (s.setDout m).out = { s.out with dout := m } := (rfl)
@[simp] theorem State.setDout_err (s : State) (m : Memory) : (s.setDout m).err = s.err := (rfl)
@[simp] theorem State.setDout_ports (s : State) (m : Memory) : (s.setDout m).ports = s.ports := (rfl)
@[simp] theorem State.setDout_freeIndex (s : State) (m : Memory) : (s.setDout m).freeIndex = s.freeIndex := (rfl)

/-! ### `raise` -/

@[simp] theorem State.raise_ctx (s : State) (k : ErrKind) : (s.raise k).ctx = s.ctx := (rfl)
@[simp] theorem State.raise_keys (s : State) (k : ErrKind) : (s.raise k).keys = s.keys := (rfl)
@[simp] theorem State.raise_blk (s : State) (k : ErrKind) : (s.raise k).blk = s.blk := (rfl)
@[simp] theorem State.raise_ctr (s : State) (k : ErrKind) : (s.raise k).ctr = s.ctr := (rfl)
@[simp] theorem State.raise_seq (s : State) (k : ErrKind) : (s.raise k).seq = s.seq := (rfl)
@[simp] theorem State.raise_ops (s : State) (k : ErrKind) : (s.raise k).ops = s.ops := (rfl)
@[simp] theorem State.raise_out (s : State) (k : ErrKind) :
    (s.raise k).out = { s.out with valid := false } := (rfl)
@[simp] theorem State.raise_err (s : State) (k : ErrKind) :
    (s.raise k).err = some k := (rfl)
@[simp] theorem State.raise_ports (s : State) (k : ErrKind) : (s.raise k).ports = s.ports := (rfl)
@[simp] theorem State.raise_freeIndex (s : State) (k : ErrKind) : (s.raise k).freeIndex = s.freeIndex := (rfl)

/-! ### `complete` -/

@[simp] theorem State.complete_ctx (s : State) : (s.complete).ctx = s.ctx := (rfl)
@[simp] theorem State.complete_keys (s : State) : (s.complete).keys = s.keys := (rfl)
@[simp] theorem State.complete_blk (s : State) : (s.complete).blk = s.blk := (rfl)
@[simp] theorem State.complete_ctr (s : State) : (s.complete).ctr = s.ctr := (rfl)
@[simp] theorem State.complete_seq (s : State) : (s.complete).seq = s.seq := (rfl)
@[simp] theorem State.complete_ops (s : State) : (s.complete).ops = s.ops := (rfl)
@[simp] theorem State.complete_out (s : State) :
    (s.complete).out = { s.out with valid := false } := (rfl)
@[simp] theorem State.complete_err (s : State) :
    (s.complete).err = none := (rfl)
@[simp] theorem State.complete_ports (s : State) : (s.complete).ports = s.ports := (rfl)
@[simp] theorem State.complete_freeIndex (s : State) : (s.complete).freeIndex = s.freeIndex := (rfl)

/-! ### `completeWithResult` -/

@[simp] theorem State.completeWithResult_ctx (s : State) (len : Nat) : (s.completeWithResult len).ctx = s.ctx := (rfl)
@[simp] theorem State.completeWithResult_keys (s : State) (len : Nat) : (s.completeWithResult len).keys = s.keys := (rfl)
@[simp] theorem State.completeWithResult_blk (s : State) (len : Nat) : (s.completeWithResult len).blk = s.blk := (rfl)
@[simp] theorem State.completeWithResult_ctr (s : State) (len : Nat) : (s.completeWithResult len).ctr = s.ctr := (rfl)
@[simp] theorem State.completeWithResult_seq (s : State) (len : Nat) : (s.completeWithResult len).seq = s.seq := (rfl)
@[simp] theorem State.completeWithResult_ops (s : State) (len : Nat) : (s.completeWithResult len).ops = s.ops := (rfl)
@[simp] theorem State.completeWithResult_out (s : State) (len : Nat) :
    (s.completeWithResult len).out = { s.out with len := len, valid := true } := (rfl)
@[simp] theorem State.completeWithResult_err (s : State) (len : Nat) :
    (s.completeWithResult len).err = none := (rfl)
@[simp] theorem State.completeWithResult_ports (s : State) (len : Nat) : (s.completeWithResult len).ports = s.ports := (rfl)
@[simp] theorem State.completeWithResult_freeIndex (s : State) (len : Nat) : (s.completeWithResult len).freeIndex = s.freeIndex := (rfl)

/-! ### `allocateResult` -/

@[simp] theorem State.allocateResult_ctx (s : State) : (s.allocateResult).ctx = s.ctx := (rfl)
@[simp] theorem State.allocateResult_keys (s : State) : (s.allocateResult).keys = s.keys := (rfl)
@[simp] theorem State.allocateResult_blk (s : State) : (s.allocateResult).blk = s.blk := (rfl)
@[simp] theorem State.allocateResult_ctr (s : State) : (s.allocateResult).ctr = s.ctr := (rfl)
@[simp] theorem State.allocateResult_seq (s : State) : (s.allocateResult).seq = s.seq := (rfl)
@[simp] theorem State.allocateResult_ops (s : State) : (s.allocateResult).ops = s.ops := (rfl)
@[simp] theorem State.allocateResult_out (s : State) :
    (s.allocateResult).out = { s.out with dout := [] } := (rfl)
@[simp] theorem State.allocateResult_err (s : State) : (s.allocateResult).err = s.err := (rfl)
@[simp] theorem State.allocateResult_ports (s : State) : (s.allocateResult).ports = s.ports := (rfl)
@[simp] theorem State.allocateResult_freeIndex (s : State) : (s.allocateResult).freeIndex = s.freeIndex := (rfl)

/-! ### `discard` -/

@[simp] theorem State.discard_ctx (s : State) : (s.discard).ctx = s.ctx := (rfl)
@[simp] theorem State.discard_keys (s : State) :
    (s.discard).keys = { rk := [], valid := false, t := scrub Config.zeroize s.keys.t } := (rfl)
@[simp] theorem State.discard_seq (s : State) : (s.discard).seq = s.seq := (rfl)
@[simp] theorem State.discard_ops (s : State) : (s.discard).ops = s.ops := (rfl)
@[simp] theorem State.discard_out (s : State) : (s.discard).out = s.out := (rfl)
@[simp] theorem State.discard_err (s : State) : (s.discard).err = s.err := (rfl)
@[simp] theorem State.discard_ports (s : State) : (s.discard).ports = s.ports := (rfl)
@[simp] theorem State.discard_freeIndex (s : State) : (s.discard).freeIndex = s.freeIndex := (rfl)

/-! ### `endKeySchedule` -/

@[simp] theorem State.endKeySchedule_ctx (s : State) : (s.endKeySchedule).ctx = s.ctx := (rfl)
@[simp] theorem State.endKeySchedule_keys (s : State) :
    (s.endKeySchedule).keys = { s.keys with t := scrub Config.scrubAtEnd s.keys.t } := (rfl)
@[simp] theorem State.endKeySchedule_blk (s : State) : (s.endKeySchedule).blk = s.blk := (rfl)
@[simp] theorem State.endKeySchedule_ctr (s : State) : (s.endKeySchedule).ctr = s.ctr := (rfl)
@[simp] theorem State.endKeySchedule_seq (s : State) : (s.endKeySchedule).seq = s.seq := (rfl)
@[simp] theorem State.endKeySchedule_ops (s : State) : (s.endKeySchedule).ops = s.ops := (rfl)
@[simp] theorem State.endKeySchedule_out (s : State) : (s.endKeySchedule).out = s.out := (rfl)
@[simp] theorem State.endKeySchedule_err (s : State) : (s.endKeySchedule).err = s.err := (rfl)
@[simp] theorem State.endKeySchedule_ports (s : State) : (s.endKeySchedule).ports = s.ports := (rfl)
@[simp] theorem State.endKeySchedule_freeIndex (s : State) : (s.endKeySchedule).freeIndex = s.freeIndex := (rfl)

/-! ### `endBlock` -/

@[simp] theorem State.endBlock_ctx (s : State) : (s.endBlock).ctx = s.ctx := (rfl)
@[simp] theorem State.endBlock_keys (s : State) : (s.endBlock).keys = s.keys := (rfl)
@[simp] theorem State.endBlock_ctr (s : State) : (s.endBlock).ctr = s.ctr := (rfl)
@[simp] theorem State.endBlock_seq (s : State) : (s.endBlock).seq = s.seq := (rfl)
@[simp] theorem State.endBlock_ops (s : State) : (s.endBlock).ops = s.ops := (rfl)
@[simp] theorem State.endBlock_out (s : State) : (s.endBlock).out = s.out := (rfl)
@[simp] theorem State.endBlock_err (s : State) : (s.endBlock).err = s.err := (rfl)
@[simp] theorem State.endBlock_ports (s : State) : (s.endBlock).ports = s.ports := (rfl)
@[simp] theorem State.endBlock_freeIndex (s : State) : (s.endBlock).freeIndex = s.freeIndex := (rfl)

/-! ### `issuedBy` -/

@[simp] theorem State.issuedBy_ctx (s : State) (who : Issuer) : (s.issuedBy who).ctx = s.ctx := (rfl)
@[simp] theorem State.issuedBy_keys (s : State) (who : Issuer) : (s.issuedBy who).keys = s.keys := (rfl)
@[simp] theorem State.issuedBy_blk (s : State) (who : Issuer) : (s.issuedBy who).blk = s.blk := (rfl)
@[simp] theorem State.issuedBy_ctr (s : State) (who : Issuer) : (s.issuedBy who).ctr = s.ctr := (rfl)
@[simp] theorem State.issuedBy_seq (s : State) (who : Issuer) : (s.issuedBy who).seq = s.seq := (rfl)
@[simp] theorem State.issuedBy_ops (s : State) (who : Issuer) : (s.issuedBy who).ops = s.ops := (rfl)
@[simp] theorem State.issuedBy_out (s : State) (who : Issuer) : (s.issuedBy who).out = s.out := (rfl)
@[simp] theorem State.issuedBy_err (s : State) (who : Issuer) : (s.issuedBy who).err = s.err := (rfl)
@[simp] theorem State.issuedBy_ports (s : State) (who : Issuer) :
    (s.issuedBy who).ports = { s.ports with issuer := who } := (rfl)
@[simp] theorem State.issuedBy_freeIndex (s : State) (who : Issuer) : (s.issuedBy who).freeIndex = s.freeIndex := (rfl)

/-! ### `ksRot3` -/

@[simp] theorem State.ksRot3_ctx (s : State) : (s.ksRot3).ctx = s.ctx := (rfl)
@[simp] theorem State.ksRot3_keys (s : State) :
    (s.ksRot3).keys = { s.keys with t := rotBytes3 s.keys.t } := (rfl)
@[simp] theorem State.ksRot3_blk (s : State) : (s.ksRot3).blk = s.blk := (rfl)
@[simp] theorem State.ksRot3_ctr (s : State) : (s.ksRot3).ctr = s.ctr := (rfl)
@[simp] theorem State.ksRot3_seq (s : State) : (s.ksRot3).seq = s.seq := (rfl)
@[simp] theorem State.ksRot3_ops (s : State) : (s.ksRot3).ops = s.ops := (rfl)
@[simp] theorem State.ksRot3_out (s : State) : (s.ksRot3).out = s.out := (rfl)
@[simp] theorem State.ksRot3_err (s : State) : (s.ksRot3).err = s.err := (rfl)
@[simp] theorem State.ksRot3_ports (s : State) : (s.ksRot3).ports = s.ports := (rfl)
@[simp] theorem State.ksRot3_freeIndex (s : State) : (s.ksRot3).freeIndex = s.freeIndex := (rfl)

/-! ### `ksSub4` -/

@[simp] theorem State.ksSub4_ctx (s : State) : (s.ksSub4).ctx = s.ctx := (rfl)
@[simp] theorem State.ksSub4_keys (s : State) :
    (s.ksSub4).keys = { s.keys with t := subEveryFourth s.ctx.sbox s.keys.t } := (rfl)
@[simp] theorem State.ksSub4_blk (s : State) : (s.ksSub4).blk = s.blk := (rfl)
@[simp] theorem State.ksSub4_ctr (s : State) : (s.ksSub4).ctr = s.ctr := (rfl)
@[simp] theorem State.ksSub4_seq (s : State) : (s.ksSub4).seq = s.seq := (rfl)
@[simp] theorem State.ksSub4_ops (s : State) : (s.ksSub4).ops = s.ops := (rfl)
@[simp] theorem State.ksSub4_out (s : State) : (s.ksSub4).out = s.out := (rfl)
@[simp] theorem State.ksSub4_err (s : State) : (s.ksSub4).err = s.err := (rfl)
@[simp] theorem State.ksSub4_ports (s : State) : (s.ksSub4).ports = s.ports := (rfl)
@[simp] theorem State.ksSub4_freeIndex (s : State) : (s.ksSub4).freeIndex = s.freeIndex := (rfl)

/-! ### `subBytes` -/

@[simp] theorem State.subBytes_ctx (s : State) : (s.subBytes).ctx = s.ctx := (rfl)
@[simp] theorem State.subBytes_keys (s : State) : (s.subBytes).keys = s.keys := (rfl)
@[simp] theorem State.subBytes_blk (s : State) :
    (s.subBytes).blk = { s.blk with st := subBlock s.ctx.sbox s.blk.st } := (rfl)
@[simp] theorem State.subBytes_ctr (s : State) : (s.subBytes).ctr = s.ctr := (rfl)
@[simp] theorem State.subBytes_seq (s : State) : (s.subBytes).seq = s.seq := (rfl)
@[simp] theorem State.subBytes_ops (s : State) : (s.subBytes).ops = s.ops := (rfl)
@[simp] theorem State.subBytes_out (s : State) : (s.subBytes).out = s.out := (rfl)
@[simp] theorem State.subBytes_err (s : State) : (s.subBytes).err = s.err := (rfl)
@[simp] theorem State.subBytes_ports (s : State) : (s.subBytes).ports = s.ports := (rfl)
@[simp] theorem State.subBytes_freeIndex (s : State) : (s.subBytes).freeIndex = s.freeIndex := (rfl)

/-! ### `permute` -/

@[simp] theorem State.permute_ctx (s : State) : (s.permute).ctx = s.ctx := (rfl)
@[simp] theorem State.permute_keys (s : State) : (s.permute).keys = s.keys := (rfl)
@[simp] theorem State.permute_blk (s : State) :
    (s.permute).blk = { s.blk with
      st := scatter s.ctx.perm s.blk.st s.blk.tmp
      tmp := scatter s.ctx.perm s.blk.st s.blk.tmp } := (rfl)
@[simp] theorem State.permute_ctr (s : State) : (s.permute).ctr = s.ctr := (rfl)
@[simp] theorem State.permute_seq (s : State) : (s.permute).seq = s.seq := (rfl)
@[simp] theorem State.permute_ops (s : State) : (s.permute).ops = s.ops := (rfl)
@[simp] theorem State.permute_out (s : State) : (s.permute).out = s.out := (rfl)
@[simp] theorem State.permute_err (s : State) : (s.permute).err = s.err := (rfl)
@[simp] theorem State.permute_ports (s : State) : (s.permute).ports = s.ports := (rfl)
@[simp] theorem State.permute_freeIndex (s : State) : (s.permute).freeIndex = s.freeIndex := (rfl)

/-! ### `rotl` -/

@[simp] theorem State.rotl_ctx (s : State) (k : Nat) : (s.rotl k).ctx = s.ctx := (rfl)
@[simp] theorem State.rotl_keys (s : State) (k : Nat) : (s.rotl k).keys = s.keys := (rfl)
@[simp] theorem State.rotl_blk (s : State) (k : Nat) :
    (s.rotl k).blk = { s.blk with st := rotlBits s.blk.st k, tmp := rotlBits s.blk.st k } := (rfl)
@[simp] theorem State.rotl_ctr (s : State) (k : Nat) : (s.rotl k).ctr = s.ctr := (rfl)
@[simp] theorem State.rotl_seq (s : State) (k : Nat) : (s.rotl k).seq = s.seq := (rfl)
@[simp] theorem State.rotl_ops (s : State) (k : Nat) : (s.rotl k).ops = s.ops := (rfl)
@[simp] theorem State.rotl_out (s : State) (k : Nat) : (s.rotl k).out = s.out := (rfl)
@[simp] theorem State.rotl_err (s : State) (k : Nat) : (s.rotl k).err = s.err := (rfl)
@[simp] theorem State.rotl_ports (s : State) (k : Nat) : (s.rotl k).ports = s.ports := (rfl)
@[simp] theorem State.rotl_freeIndex (s : State) (k : Nat) : (s.rotl k).freeIndex = s.freeIndex := (rfl)

/-! ### `xorMask` -/

@[simp] theorem State.xorMask_ctx (s : State) (round : Nat) : (s.xorMask round).ctx = s.ctx := (rfl)
@[simp] theorem State.xorMask_keys (s : State) (round : Nat) : (s.xorMask round).keys = s.keys := (rfl)
@[simp] theorem State.xorMask_blk (s : State) (round : Nat) :
    (s.xorMask round).blk = { s.blk with st := maskBlock round s.blk.st } := (rfl)
@[simp] theorem State.xorMask_ctr (s : State) (round : Nat) : (s.xorMask round).ctr = s.ctr := (rfl)
@[simp] theorem State.xorMask_seq (s : State) (round : Nat) : (s.xorMask round).seq = s.seq := (rfl)
@[simp] theorem State.xorMask_ops (s : State) (round : Nat) : (s.xorMask round).ops = s.ops := (rfl)
@[simp] theorem State.xorMask_out (s : State) (round : Nat) : (s.xorMask round).out = s.out := (rfl)
@[simp] theorem State.xorMask_err (s : State) (round : Nat) : (s.xorMask round).err = s.err := (rfl)
@[simp] theorem State.xorMask_ports (s : State) (round : Nat) : (s.xorMask round).ports = s.ports := (rfl)
@[simp] theorem State.xorMask_freeIndex (s : State) (round : Nat) : (s.xorMask round).freeIndex = s.freeIndex := (rfl)

/-! ### `rdt` -/

@[simp] theorem State.rdt_ctx (s : State) (round : Nat) : (s.rdt round).ctx = s.ctx := (rfl)
@[simp] theorem State.rdt_keys (s : State) (round : Nat) : (s.rdt round).keys = s.keys := (rfl)
@[simp] theorem State.rdt_blk (s : State) (round : Nat) :
    (s.rdt round).blk = { s.blk with
      st := maskBlock round (rotlBits s.blk.st (rotAmount round))
      tmp := rotlBits s.blk.st (rotAmount round) } := (rfl)
@[simp] theorem State.rdt_ctr (s : State) (round : Nat) : (s.rdt round).ctr = s.ctr := (rfl)
@[simp] theorem State.rdt_seq (s : State) (round : Nat) : (s.rdt round).seq = s.seq := (rfl)
@[simp] theorem State.rdt_ops (s : State) (round : Nat) : (s.rdt round).ops = s.ops := (rfl)
@[simp] theorem State.rdt_out (s : State) (round : Nat) : (s.rdt round).out = s.out := (rfl)
@[simp] theorem State.rdt_err (s : State) (round : Nat) : (s.rdt round).err = s.err := (rfl)
@[simp] theorem State.rdt_ports (s : State) (round : Nat) : (s.rdt round).ports = s.ports := (rfl)
@[simp] theorem State.rdt_freeIndex (s : State) (round : Nat) : (s.rdt round).freeIndex = s.freeIndex := (rfl)

/-! ### `incCtr` -/

@[simp] theorem State.incCtr_ctx (s : State) : (s.incCtr).ctx = s.ctx := (rfl)
@[simp] theorem State.incCtr_keys (s : State) : (s.incCtr).keys = s.keys := (rfl)
@[simp] theorem State.incCtr_blk (s : State) : (s.incCtr).blk = s.blk := (rfl)
@[simp] theorem State.incCtr_ctr (s : State) :
    (s.incCtr).ctr = { s.ctr with cnt := (incFrom 224 (by decide) s.ctr.cnt).1 } := (rfl)
@[simp] theorem State.incCtr_seq (s : State) :
    (s.incCtr).seq = { s.seq with idx := (incFrom 224 (by decide) s.ctr.cnt).2 } := (rfl)
@[simp] theorem State.incCtr_ops (s : State) : (s.incCtr).ops = s.ops := (rfl)
@[simp] theorem State.incCtr_out (s : State) : (s.incCtr).out = s.out := (rfl)
@[simp] theorem State.incCtr_err (s : State) : (s.incCtr).err = s.err := (rfl)
@[simp] theorem State.incCtr_ports (s : State) : (s.incCtr).ports = s.ports := (rfl)
@[simp] theorem State.incCtr_freeIndex (s : State) : (s.incCtr).freeIndex = s.freeIndex := (rfl)

/-! ### `mixCol` -/

@[simp] theorem State.mixCol_ctx (s : State) :
    s.mixCol.ctx = s.ctx := by
  rw [mixCol_eq]
@[simp] theorem State.mixCol_keys (s : State) :
    s.mixCol.keys = s.keys := by
  rw [mixCol_eq]
@[simp] theorem State.mixCol_blk (s : State) :
    s.mixCol.blk = { s.blk with st := Reference.mixGroups s.blk.st, g := groupOf 15 s.blk.st } := by
  rw [mixCol_eq]
@[simp] theorem State.mixCol_ctr (s : State) :
    s.mixCol.ctr = s.ctr := by
  rw [mixCol_eq]
@[simp] theorem State.mixCol_seq (s : State) :
    s.mixCol.seq = { s.seq with grp := 15 } := by
  rw [mixCol_eq]
@[simp] theorem State.mixCol_ops (s : State) :
    s.mixCol.ops = s.ops := by
  rw [mixCol_eq]
@[simp] theorem State.mixCol_out (s : State) :
    s.mixCol.out = s.out := by
  rw [mixCol_eq]
@[simp] theorem State.mixCol_err (s : State) :
    s.mixCol.err = s.err := by
  rw [mixCol_eq]
@[simp] theorem State.mixCol_ports (s : State) :
    s.mixCol.ports = s.ports := by
  rw [mixCol_eq]
@[simp] theorem State.mixCol_freeIndex (s : State) :
    s.mixCol.freeIndex = s.freeIndex := by
  rw [mixCol_eq]

/-! ### `storeSt` -/

@[simp] theorem State.storeSt_ctx (s : State) (sel : Nat) : (s.storeSt sel).ctx = s.ctx := by
  unfold State.storeSt; split <;> rfl
@[simp] theorem State.storeSt_keys (s : State) (sel : Nat) : (s.storeSt sel).keys = s.keys := by
  unfold State.storeSt; split <;> rfl
@[simp] theorem State.storeSt_blk (s : State) (sel : Nat) : (s.storeSt sel).blk = s.blk := by
  unfold State.storeSt; split <;> rfl
@[simp] theorem State.storeSt_seq (s : State) (sel : Nat) : (s.storeSt sel).seq = s.seq := by
  unfold State.storeSt; split <;> rfl
@[simp] theorem State.storeSt_ops (s : State) (sel : Nat) : (s.storeSt sel).ops = s.ops := by
  unfold State.storeSt; split <;> rfl
@[simp] theorem State.storeSt_err (s : State) (sel : Nat) : (s.storeSt sel).err = s.err := by
  unfold State.storeSt; split <;> rfl
@[simp] theorem State.storeSt_ports (s : State) (sel : Nat) : (s.storeSt sel).ports = s.ports := by
  unfold State.storeSt; split <;> rfl
@[simp] theorem State.storeSt_freeIndex (s : State) (sel : Nat) : (s.storeSt sel).freeIndex = s.freeIndex := by
  unfold State.storeSt; split <;> rfl

@[simp] theorem State.storeSt_ctr (s : State) (sel : Nat) :
    (s.storeSt sel).ctr = if sel = 0 then s.ctr else { s.ctr with ks := s.blk.st } := by
  unfold State.storeSt; split <;> rfl

@[simp] theorem State.storeSt_out (s : State) (sel : Nat) :
    (s.storeSt sel).out =
      if sel = 0 then { s.out with dout := Memory.writeBytes s.out.dout 0 s.blk.st.toList }
      else s.out := by
  unfold State.storeSt; split <;> rfl

/-! ### Contents of the discarded buffers -/

@[simp] theorem State.discard_blk (s : State) :
    s.discard.blk =
      { st := scrub Config.zeroize s.blk.st, tmp := scrub Config.zeroize s.blk.tmp
        g := scrub Config.zeroize s.blk.g } := (rfl)

@[simp] theorem State.discard_ctr (s : State) :
    s.discard.ctr =
      { cnt := scrub Config.zeroize s.ctr.cnt, ks := scrub Config.zeroize s.ctr.ks } := (rfl)

@[simp] theorem State.endBlock_blk (s : State) :
    s.endBlock.blk =
      { st := scrub Config.scrubAtEnd s.blk.st, tmp := scrub Config.scrubAtEnd s.blk.tmp
        g := scrub Config.scrubAtEnd s.blk.g } := (rfl)

/-- Two states with equal parts are equal. -/
theorem state_ext {s t : State} (ctx : s.ctx = t.ctx) (keys : s.keys = t.keys)
    (blk : s.blk = t.blk) (ctr : s.ctr = t.ctr) (seq : s.seq = t.seq) (ops : s.ops = t.ops)
    (out : s.out = t.out) (err : s.err = t.err) (ports : s.ports = t.ports)
    (freeIndex : s.freeIndex = t.freeIndex) : s = t := by
  cases s; cases t; simp_all

end Sys2Proof.Machine
end

