-- ==== Sys2Proof/Laws/Frames.lean ====
section
/-! SUPPORT. Three frames the shared operations keep: everything outside the key-schedule unit,
everything outside the block-primitive unit, and everything outside the two units that work on a CTR call
and its result bytes. Each also names the loop variables of rule R36 that stay. -/

namespace Sys2Proof.Machine

/-- `t` differs from `s` in the key-schedule unit and the loop variable `W` at most. -/
structure FrameKeys (s t : State) : Prop where
  ctx : t.ctx = s.ctx
  blk : t.blk = s.blk
  ctr : t.ctr = s.ctr
  ops : t.ops = s.ops
  out : t.out = s.out
  err : t.err = s.err
  ports : t.ports = s.ports
  freeIndex : t.freeIndex = s.freeIndex
  rnd : t.seq.rnd = s.seq.rnd
  grp : t.seq.grp = s.seq.grp
  p : t.seq.p = s.seq.p
  n : t.seq.n = s.seq.n
  idx : t.seq.idx = s.seq.idx

/-- `t` differs from `s` in the block-primitive unit and the loop variables `RND` and `GRP` at most. -/
structure FrameBlk (s t : State) : Prop where
  ctx : t.ctx = s.ctx
  keys : t.keys = s.keys
  ctr : t.ctr = s.ctr
  ops : t.ops = s.ops
  out : t.out = s.out
  err : t.err = s.err
  ports : t.ports = s.ports
  freeIndex : t.freeIndex = s.freeIndex
  w : t.seq.w = s.seq.w
  p : t.seq.p = s.seq.p
  n : t.seq.n = s.seq.n
  idx : t.seq.idx = s.seq.idx

/-- `t` differs from `s` in the block-primitive unit, the CTR driver's buffers, the bytes of `DOUT` and
the loop variables other than `W` at most. -/
structure FrameCtr (s t : State) : Prop where
  ctx : t.ctx = s.ctx
  keys : t.keys = s.keys
  ops : t.ops = s.ops
  len : t.out.len = s.out.len
  valid : t.out.valid = s.out.valid
  err : t.err = s.err
  ports : t.ports = s.ports
  freeIndex : t.freeIndex = s.freeIndex
  w : t.seq.w = s.seq.w

theorem FrameKeys.refl (s : State) : FrameKeys s s :=
  ⟨rfl, rfl, rfl, rfl, rfl, rfl, rfl, rfl, rfl, rfl, rfl, rfl, rfl⟩

theorem FrameKeys.trans {s t u : State} (h : FrameKeys s t) (k : FrameKeys t u) : FrameKeys s u :=
  ⟨k.ctx.trans h.ctx, k.blk.trans h.blk, k.ctr.trans h.ctr, k.ops.trans h.ops, k.out.trans h.out,
    k.err.trans h.err, k.ports.trans h.ports, k.freeIndex.trans h.freeIndex, k.rnd.trans h.rnd,
    k.grp.trans h.grp, k.p.trans h.p, k.n.trans h.n, k.idx.trans h.idx⟩

theorem FrameBlk.refl (s : State) : FrameBlk s s :=
  ⟨rfl, rfl, rfl, rfl, rfl, rfl, rfl, rfl, rfl, rfl, rfl, rfl⟩

theorem FrameBlk.trans {s t u : State} (h : FrameBlk s t) (k : FrameBlk t u) : FrameBlk s u :=
  ⟨k.ctx.trans h.ctx, k.keys.trans h.keys, k.ctr.trans h.ctr, k.ops.trans h.ops, k.out.trans h.out,
    k.err.trans h.err, k.ports.trans h.ports, k.freeIndex.trans h.freeIndex, k.w.trans h.w,
    k.p.trans h.p, k.n.trans h.n, k.idx.trans h.idx⟩

theorem FrameCtr.refl (s : State) : FrameCtr s s := ⟨rfl, rfl, rfl, rfl, rfl, rfl, rfl, rfl, rfl⟩

theorem FrameCtr.trans {s t u : State} (h : FrameCtr s t) (k : FrameCtr t u) : FrameCtr s u :=
  ⟨k.ctx.trans h.ctx, k.keys.trans h.keys, k.ops.trans h.ops, k.len.trans h.len,
    k.valid.trans h.valid, k.err.trans h.err, k.ports.trans h.ports, k.freeIndex.trans h.freeIndex,
    k.w.trans h.w⟩

theorem FrameBlk.toCtr {s t : State} (h : FrameBlk s t) : FrameCtr s t :=
  ⟨h.ctx, h.keys, h.ops, by rw [h.out], by rw [h.out], h.err, h.ports, h.freeIndex, h.w⟩

end Sys2Proof.Machine
end

