-- ==== Sys2Proof/Laws/Memory.lean ====
section
/-! SUPPORT. Laws of the storages: read after write, and that every operation keeps the canonical
form. -/

namespace Sys2Proof.Machine

theorem Store.read_nil {α : Type} (a : Nat) : Store.read ([] : Store α) a = none := rfl

theorem Store.read_append {α : Type} (m k : Store α) (a : Nat) :
    Store.read (m ++ k) a = (Store.read m a).or (Store.read k a) := by
  simp only [Store.read, List.find?_append]
  cases m.find? fun c => c.1 == a <;> simp

theorem Store.read_filter {α : Type} (m : Store α) (p : Nat → Bool) (a : Nat) :
    Store.read (m.filter fun c => p c.1) a = if p a then Store.read m a else none := by
  induction m with
  | nil => simp [Store.read]
  | cons c m ih =>
    by_cases hc : c.1 = a
    · subst hc
      by_cases hp : p c.1
      · simp [Store.read, hp]
      · simp only [List.filter_cons, hp, Bool.false_eq_true, if_false]
        rw [ih]
        simp [hp]
    · have hm : Store.read (c :: m) a = Store.read m a := by
        simp [Store.read, hc]
      rw [hm, ← ih]
      by_cases hp : p c.1
      · simp [Store.read, hp, hc]
      · simp [Store.read, hp]

theorem Store.read_run {α : Type} (vs : List α) (a x : Nat) :
    Store.read (Store.run a vs) x = if a ≤ x then vs[x - a]? else none := by
  induction vs generalizing a with
  | nil => simp [Store.run, Store.read]
  | cons v vs ih =>
    by_cases hx : a = x
    · subst hx
      simp [Store.run, Store.read]
    · have : Store.read (Store.run a (v :: vs)) x = Store.read (Store.run (a + 1) vs) x := by
        simp [Store.run, Store.read, hx]
      rw [this, ih]
      by_cases h : a + 1 ≤ x
      · have h2 : x - a = (x - (a + 1)) + 1 := by omega
        rw [if_pos h, if_pos (by omega), h2, List.getElem?_cons_succ]
      · rw [if_neg h, if_neg (by omega)]

/-- What a run of writes leaves: the new elements inside it, the old ones outside. -/
theorem Store.read_writeRun {α : Type} (m : Store α) (a : Nat) (vs : List α) (x : Nat) :
    Store.read (Store.writeRun m a vs) x =
      if a ≤ x ∧ x < a + vs.length then vs[x - a]? else Store.read m x := by
  rw [Store.writeRun, Store.read_append, Store.read_append,
    Store.read_filter m (fun c => decide (c < a)),
    Store.read_filter m (fun c => decide (a + vs.length ≤ c)), Store.read_run]
  by_cases h1 : a ≤ x
  · by_cases h2 : x < a + vs.length
    · have : x - a < vs.length := by omega
      simp [h1, h2, Nat.not_lt.mpr h1, List.getElem?_eq_getElem this]
    · have : vs[x - a]? = none := by simp; omega
      simp [h1, h2, Nat.not_lt.mpr h1, this, Nat.not_lt.mp h2]
  · have h3 : ¬ a + vs.length ≤ x := by omega
    simp [h1, Nat.not_le.mp h1, h3]

/-- Read after a write of one element. -/
theorem Store.read_write {α : Type} (m : Store α) (a : Nat) (v : α) (x : Nat) :
    Store.read (Store.write m a v) x = if x = a then some v else Store.read m x := by
  rw [Store.write, Store.read_writeRun]
  by_cases h : x = a
  · subst h; simp
  · rw [if_neg (by simp; omega), if_neg h]

theorem Memory.byte?_writeBytes (m : Memory) (addr : Nat) (bytes : List Byte) (x : Nat) :
    Memory.byte? (Memory.writeBytes m addr bytes) x =
      if addr ≤ x ∧ x < addr + bytes.length then bytes[x - addr]? else Memory.byte? m x :=
  Store.read_writeRun m addr bytes x

theorem Memory.byte?_nil (x : Nat) : Memory.byte? [] x = none := rfl

theorem mapM_eq_some_iff {α β : Type} (f : α → Option β) (l : List α) (r : List β) :
    l.mapM f = some r ↔ l.map f = r.map some := by
  induction l generalizing r with
  | nil => cases r <;> simp
  | cons a l ih =>
    cases hf : f a with
    | none => cases r <;> simp [List.mapM_cons, hf]
    | some b =>
      cases hm : l.mapM f with
      | none =>
        cases r with
        | nil => simp [List.mapM_cons, hf, hm]
        | cons c r =>
          have := (ih r).not.mp (by simp [hm])
          simp [List.mapM_cons, hf, hm, this]
      | some t =>
        cases r with
        | nil => simp [List.mapM_cons, hf, hm]
        | cons c r =>
          have := ih r
          simp only [hm, Option.some.injEq] at this
          simp [List.mapM_cons, hf, hm, this]

/-- What `MemRead` says when it answers: `n` bytes, each the byte at its address. -/
theorem Memory.readBytes_eq_some (m : Memory) (addr n : Nat) (l : List Byte) :
    Memory.readBytes m addr n = some l ↔
      l.length = n ∧ ∀ j, j < n → Memory.byte? m (addr + j) = l[j]? := by
  rw [Memory.readBytes, mapM_eq_some_iff]
  constructor
  · intro h
    have hl : l.length = n := by simpa using (congrArg List.length h).symm
    refine ⟨hl, fun j hj => ?_⟩
    have hjl : j < l.length := by omega
    have := congrArg (·[j]?) h
    simp only [List.getElem?_map, List.getElem?_range hj, Option.map_some,
      List.getElem?_eq_getElem hjl, Option.some.injEq] at this
    rw [this, List.getElem?_eq_getElem hjl]
  · rintro ⟨hl, h⟩
    apply List.ext_getElem?
    intro j
    by_cases hj : j < n
    · have hb := h j hj
      have : j < l.length := by omega
      simp [hj, hb, this]
    · simp [hj, hl]

/-- `MemRead` answers exactly where every byte of its range holds a value. -/
theorem Memory.readBytes_isSome (m : Memory) (addr n : Nat) :
    (Memory.readBytes m addr n).isSome ↔ ∀ j, j < n → (Memory.byte? m (addr + j)).isSome := by
  constructor
  · intro h j hj
    obtain ⟨l, hl⟩ := Option.isSome_iff_exists.mp h
    obtain ⟨hlen, hb⟩ := (Memory.readBytes_eq_some m addr n l).mp hl
    rw [hb j hj]
    simp [hlen, hj]
  · intro h
    have : Memory.readBytes m addr n =
        some ((List.range n).map fun j => (Memory.byte? m (addr + j)).getD 0#8) := by
      rw [Memory.readBytes_eq_some]
      refine ⟨by simp, fun j hj => ?_⟩
      obtain ⟨b, hb⟩ := Option.isSome_iff_exists.mp (h j hj)
      simp [hj, hb]
    simp [this]

/-! ### The canonical form -/

theorem Store.wf_nil {α : Type} : Store.wf ([] : Store α) := List.Pairwise.nil

theorem Store.run_keys {α : Type} (vs : List α) (a : Nat) :
    ∀ k ∈ (Store.run a vs).map Prod.fst, a ≤ k ∧ k < a + vs.length := by
  induction vs generalizing a with
  | nil => simp [Store.run]
  | cons v vs ih =>
    intro k hk
    simp only [Store.run, List.map_cons, List.mem_cons] at hk
    rcases hk with rfl | hk
    · simp
    · have := ih (a + 1) k hk
      simp only [List.length_cons]
      omega

theorem Store.wf_run {α : Type} (vs : List α) (a : Nat) : Store.wf (Store.run a vs) := by
  induction vs generalizing a with
  | nil => simp [Store.run, Store.wf]
  | cons v vs ih =>
    simp only [Store.wf, Store.run, List.map_cons, List.pairwise_cons]
    refine ⟨fun k hk => ?_, ih (a + 1)⟩
    have := Store.run_keys vs (a + 1) k hk
    omega

theorem Store.wf_filter {α : Type} {m : Store α} (h : Store.wf m) (p : Nat × α → Bool) :
    Store.wf (m.filter p) :=
  List.Pairwise.sublist ((List.filter_sublist (p := p) (l := m)).map Prod.fst) h

/-- A run of writes keeps the canonical form. -/
theorem Store.wf_writeRun {α : Type} {m : Store α} (h : Store.wf m) (a : Nat) (vs : List α) :
    Store.wf (Store.writeRun m a vs) := by
  have h1 := Store.wf_filter h fun c => decide (c.1 < a)
  have h2 := Store.wf_run vs a
  have h3 := Store.wf_filter h fun c => decide (a + vs.length ≤ c.1)
  have hlow : ∀ k ∈ (m.filter fun c => decide (c.1 < a)).map Prod.fst, k < a := by
    intro k hk
    simp only [List.mem_map, List.mem_filter, decide_eq_true_eq] at hk
    obtain ⟨c, ⟨_, hc⟩, rfl⟩ := hk
    exact hc
  have hhigh : ∀ k ∈ (m.filter fun c => decide (a + vs.length ≤ c.1)).map Prod.fst,
      a + vs.length ≤ k := by
    intro k hk
    simp only [List.mem_map, List.mem_filter, decide_eq_true_eq] at hk
    obtain ⟨c, ⟨_, hc⟩, rfl⟩ := hk
    exact hc
  simp only [Store.wf, Store.writeRun, List.map_append, List.pairwise_append]
  refine ⟨⟨h1, h2, fun x hx y hy => ?_⟩, h3, fun x hx y hy => ?_⟩
  · have := hlow x hx; have := Store.run_keys vs a y hy; omega
  · have := hhigh y hy
    rcases List.mem_append.mp hx with hx | hx
    · have := hlow x hx; omega
    · have := Store.run_keys vs a x hx; omega

theorem Store.wf_write {α : Type} {m : Store α} (h : Store.wf m) (a : Nat) (v : α) :
    Store.wf (Store.write m a v) := Store.wf_writeRun h a [v]

theorem Memory.wf_writeBytes {m : Memory} (h : Memory.wf m) (addr : Nat) (bytes : List Byte) :
    Memory.wf (Memory.writeBytes m addr bytes) := Store.wf_writeRun h addr bytes

/-- In canonical form, memories that read alike are equal data. -/
theorem Store.ext_of_wf {α : Type} {m k : Store α} (hm : Store.wf m) (hk : Store.wf k)
    (h : ∀ a, Store.read m a = Store.read k a) : m = k := by
  induction m generalizing k with
  | nil =>
    cases k with
    | nil => rfl
    | cons c k => simpa [Store.read] using h c.1
  | cons c m ih =>
    cases k with
    | nil => simpa [Store.read] using h c.1
    | cons d k =>
      simp only [Store.wf, List.map_cons, List.pairwise_cons] at hm hk
      have absent : ∀ {l : Store α} {x : Nat}, (∀ y ∈ l.map Prod.fst, x < y) →
          Store.read l x = none := by
        intro l x hl
        simp only [Store.read, Option.map_eq_none_iff, List.find?_eq_none]
        intro e he hx
        have := hl e.1 (List.mem_map_of_mem he)
        simp at hx
        omega
      have hkey : c.1 = d.1 := by
        by_contra hne
        rcases Nat.lt_or_gt_of_ne hne with hlt | hlt
        · have hc := h c.1
          have : Store.read (d :: k) c.1 = none := by
            apply absent
            intro y hy
            simp only [List.map_cons, List.mem_cons] at hy
            rcases hy with rfl | hy
            · exact hlt
            · have := hk.1 y hy; omega
          rw [this] at hc
          simp [Store.read] at hc
        · have hc := h d.1
          have : Store.read (c :: m) d.1 = none := by
            apply absent
            intro y hy
            simp only [List.map_cons, List.mem_cons] at hy
            rcases hy with rfl | hy
            · exact hlt
            · have := hm.1 y hy; omega
          rw [this] at hc
          simp [Store.read] at hc
      have hval : c.2 = d.2 := by
        have := h c.1
        simpa [Store.read, hkey] using this
      have hcd : c = d := Prod.ext hkey hval
      subst hcd
      congr 1
      refine ih hm.2 hk.2 fun a => ?_
      by_cases ha : c.1 = a
      · subst ha
        rw [absent hm.1, absent hk.1]
      · have := h a
        simpa [Store.read, ha] using this

end Sys2Proof.Machine
end

