-- ==== Sys2Proof/Laws/Ops.lean ====
section
/-! SUPPORT. What the shared operations can answer: sequencing, loops, the issuer check, and the
accesses to round keys and operands. -/

namespace Sys2Proof.Machine

/-! ### Sequencing -/

@[simp] theorem andThen_next (s : State) (f : State → Res) : andThen (.next s) f = f s := rfl

@[simp] theorem andThen_fault (e : Fault) (f : State → Res) : andThen (.fault e) f = .fault e := rfl

@[simp] theorem andThen_refused (e : Refusal) (f : State → Res) :
    andThen (.refused e) f = .refused e := rfl

/-- A sequence answers a next state exactly when both its parts do. -/
theorem andThen_eq_next {r : Res} {f : State → Res} {t : State} :
    andThen r f = .next t ↔ ∃ s, r = .next s ∧ f s = .next t := by
  cases r <;> simp [andThen]

/-- A sequence faults when its first part does, or its second part does from the first's state. -/
theorem andThen_eq_fault {r : Res} {f : State → Res} {e : Fault} :
    andThen r f = .fault e ↔ r = .fault e ∨ ∃ s, r = .next s ∧ f s = .fault e := by
  cases r <;> simp [andThen]

@[simp] theorem forLoop_zero (body : Nat → State → Res) (first : Nat) (s : State) :
    forLoop body first 0 s = .next s := rfl

@[simp] theorem forLoop_succ (body : Nat → State → Res) (first count : Nat) (s : State) :
    forLoop body first (count + 1) s
      = andThen (body first s) (forLoop body (first + 1) count) := rfl

/-- A loop completes when each iteration does, and carries an invariant indexed by the loop
variable. -/
theorem forLoop_completes (P : Nat → State → Prop) {body : Nat → State → Res} {count first : Nat}
    {s : State} (h0 : P first s)
    (hstep : ∀ v s, first ≤ v → v < first + count → P v s → ∃ t, body v s = .next t ∧ P (v + 1) t) :
    ∃ t, forLoop body first count s = .next t ∧ P (first + count) t := by
  induction count generalizing first s with
  | zero => exact ⟨s, rfl, h0⟩
  | succ n ih =>
    obtain ⟨u, hu, hPu⟩ := hstep first s (Nat.le_refl _) (by omega) h0
    obtain ⟨t, ht, hPt⟩ := ih hPu fun v s hv hv' => hstep v s (by omega) (by omega)
    refine ⟨t, by simp [hu, ht], ?_⟩
    have : first + 1 + n = first + (n + 1) := by omega
    exact this ▸ hPt

/-- What every iteration keeps, a loop that answers keeps. -/
theorem forLoop_keeps (P : State → Prop) {body : Nat → State → Res} {count first : Nat}
    {s t : State} (hbody : ∀ v s t, body v s = .next t → P s → P t)
    (h : forLoop body first count s = .next t) (hs : P s) : P t := by
  induction count generalizing first s with
  | zero => cases h; exact hs
  | succ n ih =>
    obtain ⟨u, hu, ht⟩ := andThen_eq_next.mp h
    exact ih ht (hbody first s u hu hs)

/-- A loop none of whose iterations faults does not fault. -/
theorem forLoop_no_fault (P : State → Prop) {body : Nat → State → Res} {count first : Nat}
    {s : State} {e : Fault}
    (hkeep : ∀ v s t, body v s = .next t → P s → P t)
    (hno : ∀ v s, first ≤ v → v < first + count → P s → body v s ≠ .fault e) (hs : P s) :
    forLoop body first count s ≠ .fault e := by
  induction count generalizing first s with
  | zero => simp [forLoop]
  | succ n ih =>
    intro h
    rcases andThen_eq_fault.mp h with h | ⟨u, hu, h⟩
    · exact hno first s (Nat.le_refl _) (by omega) hs h
    · exact ih (fun v s hv hv' => hno v s (by omega) (by omega)) (hkeep first s u hu hs) h

/-! ### The issuer check -/

@[simp] theorem seqOnly_seq {s : State} (effect : Res) (h : s.ports.issuer = .seq) :
    s.seqOnly effect = effect := by simp [State.seqOnly, h]

@[simp] theorem seqOnly_host {s : State} (effect : Res) (h : s.ports.issuer = .host) :
    s.seqOnly effect = .next (s.raise .illegalCommand) := by simp [State.seqOnly, h]

/-- A sequencer-only operation either has its effect, for the sequencer, or raises. -/
theorem seqOnly_eq_next {s t : State} {effect : Res} :
    s.seqOnly effect = .next t ↔
      (s.ports.issuer = .seq ∧ effect = .next t) ∨
      (s.ports.issuer = .host ∧ t = s.raise .illegalCommand) := by
  cases h : s.ports.issuer <;> simp [h, eq_comm]

/-! ### Round keys and operands -/

theorem withWindow_of_read {s : State} {r : Nat} {key : Block} (use : Block → Res)
    (hr : r ≤ s.ctx.rounds.toNat) (hk : Store.read s.keys.rk r = some key) :
    s.withWindow r use = use key := by
  simp [State.withWindow, Nat.not_lt.mpr hr, hk]

/-- An access to a round key answers only where the window exists and holds a value. -/
theorem withWindow_eq_next {s t : State} {r : Nat} {use : Block → Res} :
    s.withWindow r use = .next t ↔
      r ≤ s.ctx.rounds.toNat ∧ ∃ key, Store.read s.keys.rk r = some key ∧ use key = .next t := by
  unfold State.withWindow
  split
  · next h => simp; omega
  · next h =>
    cases hk : Store.read s.keys.rk r with
    | none => simp
    | some key => simp; omega

/-- An access to a round key that exists faults only in what uses it. -/
theorem withWindow_eq_fault {s : State} {r : Nat} {use : Block → Res} {e : Fault}
    (h : s.withWindow r use = .fault e) :
    s.ctx.rounds.toNat < r ∨ ∃ key, use key = .fault e := by
  unfold State.withWindow at h
  split at h
  · next hr => exact .inl hr
  · split at h
    · cases h
    · next key _ => exact .inr ⟨key, h⟩

/-- An index inside `1..R` is admitted. -/
theorem withIndex_of_le {s : State} {w : Nat} (effect : Res) (h1 : 1 ≤ w)
    (hR : w ≤ s.ctx.rounds.toNat) : s.withIndex w effect = effect := by
  rw [State.withIndex, if_neg (by omega)]

/-- An operation on a window answers only where its index lies in `1..R`. -/
theorem withIndex_eq_next {s t : State} {w : Nat} {effect : Res} :
    s.withIndex w effect = .next t ↔ 1 ≤ w ∧ w ≤ s.ctx.rounds.toNat ∧ effect = .next t := by
  unfold State.withIndex
  split
  · next h => simp; omega
  · next h => exact ⟨fun e => ⟨by omega, by omega, e⟩, fun e => e.2.2⟩

theorem withKey_eq_next {s t : State} {use : Block → Res} :
    s.withKey use = .next t ↔
      ∃ l, Memory.readBytes s.ops.key 0 256 = some l ∧ use (blockOfList l) = .next t := by
  unfold State.withKey
  split <;> simp_all

theorem withIv_eq_next {s t : State} {use : List Byte → Res} :
    s.withIv use = .next t ↔
      ∃ l, Memory.readBytes s.ops.iv 0 32 = some l ∧ use l = .next t := by
  unfold State.withIv
  split <;> simp_all

theorem withDin_eq_next {s t : State} {addr n : Nat} {use : List Byte → Res} :
    s.withDin addr n use = .next t ↔
      ∃ l, Memory.readBytes s.ops.din addr n = some l ∧ use l = .next t := by
  unfold State.withDin
  split <;> simp_all

end Sys2Proof.Machine
end

