-- ==== Sys2Proof/Laws/KeySchedule.lean ====
section
/-! SUPPORT. The key schedule: what one window, and the whole expansion, answer (41_key_schedule.md rules
R140 and R148). -/

namespace Sys2Proof.Machine

/-- Steps 2 to 5 of a window on a copy of the previous window are the closed form of rule R148. -/
theorem window_bytes (sbox prev : Block) (w : Nat) :
    xorBlock (addRoundConstant w (subEveryFourth sbox (rotBytes3 prev))) prev
      = Reference.nextWindow sbox prev w := by
  apply vector_ext
  intro j hj
  simp only [getElem_xorBlock, getElem_addRoundConstant, getElem_subEveryFourth, getElem_rotBytes3,
    Reference.nextWindow, getElem_tab, roundConstant]
  by_cases h0 : j = 0
  · simp [h0]
  · simp [h0]

/-- KSLOAD, where the previous window holds a value. -/
theorem ksLoad_eq {s : State} {w : Nat} {prev : Block} (h1 : 1 ≤ w)
    (hR : w ≤ s.ctx.rounds.toNat) (hprev : Store.read s.keys.rk (w - 1) = some prev) :
    s.ksLoad w = .next (s.setT prev) := by
  rw [State.ksLoad, withIndex_of_le _ h1 hR, withWindow_of_read _ (by omega) hprev]

/-- KSRCON, where the index is in range. -/
theorem ksRcon_eq {s : State} {w : Nat} (h1 : 1 ≤ w) (hR : w ≤ s.ctx.rounds.toNat) :
    s.ksRcon w = .next (s.setT (addRoundConstant w s.keys.t)) := by
  rw [State.ksRcon, withIndex_of_le _ h1 hR]

/-- KSXORP, where the previous window holds a value. -/
theorem ksXorp_eq {s : State} {w : Nat} {prev : Block} (h1 : 1 ≤ w)
    (hR : w ≤ s.ctx.rounds.toNat) (hprev : Store.read s.keys.rk (w - 1) = some prev) :
    s.ksXorp w = .next (s.setT (xorBlock s.keys.t prev)) := by
  rw [State.ksXorp, withIndex_of_le _ h1 hR, withWindow_of_read _ (by omega) hprev]

/-- KSSTORE, where the window exists. -/
theorem ksStore_eq {s : State} {w : Nat} (h1 : 1 ≤ w) (hR : w ≤ s.ctx.rounds.toNat) :
    s.ksStore w = .next (s.setRk (Store.write s.keys.rk w s.keys.t)) := by
  rw [State.ksStore, withIndex_of_le _ h1 hR]

/-- One window of the key schedule, where the previous window holds a value: window `w` is stored, and
nothing outside the unit changes. -/
theorem ksWindow_eq {s : State} {w : Nat} {prev : Block} (h1 : 1 ≤ w)
    (hR : w ≤ s.ctx.rounds.toNat) (hprev : Store.read s.keys.rk (w - 1) = some prev) :
    ∃ t, ksWindow w s = .next t ∧ FrameKeys s t ∧ t.keys.valid = s.keys.valid ∧
      t.keys.rk = Store.write s.keys.rk w (Reference.nextWindow s.ctx.sbox prev w) := by
  rw [ksWindow, ksLoad_eq h1 (by simpa using hR) (by simpa using hprev), andThen_next,
    ksRcon_eq h1 (by simpa using hR), andThen_next,
    ksXorp_eq (prev := prev) h1 (by simpa using hR) (by simpa using hprev), andThen_next,
    ksStore_eq h1 (by simpa using hR)]
  refine ⟨_, rfl, ?_, ?_, ?_⟩
  · constructor <;> simp
  · simp
  · simp [window_bytes]

/-- What a window that answers can do: store some window `w`, and nothing outside the unit. -/
theorem ksWindow_eq_next {w : Nat} {s t : State} (h : ksWindow w s = .next t) :
    FrameKeys s t ∧ t.keys.valid = s.keys.valid ∧
      ∃ b, t.keys.rk = Store.write s.keys.rk w b := by
  unfold ksWindow State.ksLoad State.ksRcon State.ksXorp State.ksStore at h
  obtain ⟨_, hu, h⟩ := andThen_eq_next.mp h
  obtain ⟨_, _, hu⟩ := withIndex_eq_next.mp hu
  obtain ⟨_, key, _, hu⟩ := withWindow_eq_next.mp hu
  cases hu
  obtain ⟨_, hv, h⟩ := andThen_eq_next.mp h
  obtain ⟨_, _, hv⟩ := withIndex_eq_next.mp hv
  cases hv
  obtain ⟨_, hx, h⟩ := andThen_eq_next.mp h
  obtain ⟨_, _, hx⟩ := withIndex_eq_next.mp hx
  obtain ⟨_, key', _, hx⟩ := withWindow_eq_next.mp hx
  cases hx
  obtain ⟨_, _, h⟩ := withIndex_eq_next.mp h
  cases h
  exact ⟨by constructor <;> simp, by simp, _, by simp; rfl⟩

/-- The whole expansion, where the key's bytes are there: every round key, and nothing else. -/
theorem expandKey_eq {s : State} {key : Block}
    (hkey : Memory.readBytes s.ops.key 0 256 = some key.toList) :
    ∃ t, s.expandKey = .next t ∧ FrameKeys s t ∧ t.keys.valid = true ∧ Store.wf t.keys.rk ∧
      ∀ w, Store.read t.keys.rk w =
        if w ≤ s.ctx.rounds.toNat then some (Reference.roundKey s.ctx.sbox key w) else none := by
  let P : Nat → State → Prop := fun v u =>
    FrameKeys s u ∧ Store.wf u.keys.rk ∧
      ∀ w, Store.read u.keys.rk w =
        if w < v then some (Reference.roundKey s.ctx.sbox key w) else none
  have hinit : s.ksInit = .next (s.setRk [(0, key)]) := by
    simp [State.ksInit, State.withKey, hkey, blockOfList_toList]
  have h0 : P 1 (s.setRk [(0, key)]) := by
    refine ⟨by constructor <;> simp, by simp [Store.wf], fun w => ?_⟩
    by_cases hw : w = 0
    · subst hw; simp [Store.read, Reference.roundKey]
    · have : ¬ 0 = w := fun h => hw h.symm
      simp [Store.read, hw, this]
  obtain ⟨u, hu, hframe, hwf, hread⟩ := forLoop_completes P (body := ksWindow)
    (count := s.ctx.rounds.toNat) h0 (by
      rintro v u hv hv' ⟨hframe, hwf, hread⟩
      have hprev : Store.read u.keys.rk (v - 1)
          = some (Reference.roundKey s.ctx.sbox key (v - 1)) := by
        rw [hread, if_pos (by omega)]
      obtain ⟨t, ht, htf, _, htrk⟩ := ksWindow_eq hv (by rw [hframe.ctx]; omega) hprev
      refine ⟨t, ht, hframe.trans htf, by rw [htrk]; exact Store.wf_write hwf _ _, fun w => ?_⟩
      obtain ⟨n, rfl⟩ : ∃ n, v = n + 1 := ⟨v - 1, by omega⟩
      rw [htrk, Store.read_write, hread, hframe.ctx]
      by_cases hw : w = n + 1
      · subst hw; simp [Reference.roundKey]
      · rw [if_neg hw]
        by_cases hlt : w < n + 1
        · rw [if_pos hlt, if_pos (by omega)]
        · rw [if_neg hlt, if_neg (by omega)])
  have hrun : s.expandKey = .next (u.endKeySchedule.setKeysValid true) := by
    unfold State.expandKey
    rw [hinit, andThen_next, State.setRk_ctx, hu, andThen_next]
  refine ⟨_, hrun, hframe.trans (by constructor <;> simp), by simp, by simpa using hwf, fun w => ?_⟩
  simp only [State.setKeysValid_keys, State.endKeySchedule_keys, hread]
  by_cases hw : w ≤ s.ctx.rounds.toNat
  · rw [if_pos hw, if_pos (by omega)]
  · rw [if_neg hw, if_neg (by omega)]

/-- An expansion that answers found all 256 bytes of the key. -/
theorem expandKey_key {s t : State} (h : s.expandKey = .next t) :
    ∃ key : Block, Memory.readBytes s.ops.key 0 256 = some key.toList := by
  unfold State.expandKey State.ksInit at h
  obtain ⟨u, hu, _⟩ := andThen_eq_next.mp h
  obtain ⟨l, hl, _⟩ := withKey_eq_next.mp hu
  have hlen := ((Memory.readBytes_eq_some _ _ _ _).mp hl).1
  exact ⟨blockOfList l, by rw [toList_blockOfList l hlen]; exact hl⟩

/-- What an expansion that answers has done: windows `0 .. R` hold a value and no other does. -/
theorem expandKey_eq_next {s t : State} (h : s.expandKey = .next t) :
    FrameKeys s t ∧ t.keys.valid = true ∧ Store.wf t.keys.rk ∧
      ∀ w, (Store.read t.keys.rk w).isSome = true ↔ w ≤ s.ctx.rounds.toNat := by
  obtain ⟨key, hkey⟩ := expandKey_key h
  obtain ⟨u, hu, hframe, hvalid, hwf, hread⟩ := expandKey_eq hkey
  rw [h] at hu
  cases hu
  refine ⟨hframe, hvalid, hwf, fun w => ?_⟩
  rw [hread]
  split <;> simp_all

/-- The expansion does not fault. -/
theorem expandKey_no_fault (s : State) (e : Fault) : s.expandKey ≠ .fault e := by
  intro h
  cases hk : Memory.readBytes s.ops.key 0 256 with
  | none => simp [State.expandKey, State.ksInit, State.withKey, hk] at h
  | some l =>
    have hlen := ((Memory.readBytes_eq_some _ _ _ _).mp hk).1
    rw [← toList_blockOfList l hlen] at hk
    obtain ⟨t, ht, _⟩ := expandKey_eq hk
    rw [ht] at h
    cases h

end Sys2Proof.Machine
end

