-- ==== Sys2Proof/Laws/BlockPrimitive.lean ====
section
/-! SUPPORT. The block primitive: what a round, and the whole micro-program, answer
(42_block_primitive.md rule R161). -/

namespace Sys2Proof.Machine

/-- RDT's bytes are those of the closed form (rule R169). -/
theorem mask_rotl_eq (round : Nat) (st : Block) :
    maskBlock round (rotlBits st (rotAmount round)) = Reference.roundDependent round st := by
  apply vector_ext
  intro i hi
  simp [Reference.roundDependent, rotAmount, maskByte, maskStart]

theorem addBlock_eq (a b : Block) : Reference.addBlock a b = xorBlock a b := rfl

theorem substitute_eq (sbox st : Block) : Reference.substitute sbox st = subBlock sbox st := rfl

/-- ADDKEY, where the round key holds a value. -/
theorem addKey_eq {s : State} {r : Nat} {key : Block} (hr : r ≤ s.ctx.rounds.toNat)
    (hk : Store.read s.keys.rk r = some key) :
    s.addKey r = .next (s.setSt (Reference.addBlock s.blk.st key)) :=
  withWindow_of_read _ hr hk

/-- One main round under the table `PERM`. -/
theorem mainRound_eq {s : State} {r : Nat} {key : Block} (hperm : s.ctx.perm = buildPerm)
    (hr : r ≤ s.ctx.rounds.toNat) (hk : Store.read s.keys.rk r = some key)
    (rk : Nat → Block) (hrk : rk r = key) :
    ∃ t, mainRound r s = .next t ∧ FrameBlk s t ∧
      t.blk.st = Reference.mainRound s.ctx.sbox rk r s.blk.st := by
  unfold mainRound
  rw [addKey_eq (key := key) (by simpa using hr) (by simpa using hk)]
  refine ⟨_, rfl, ?_, ?_⟩
  · constructor <;> simp
  · simp [Reference.mainRound, hrk, hperm, scatter_buildPerm, mask_rotl_eq, substitute_eq]

/-- The final round under the table `PERM`. -/
theorem finalRound_eq {s : State} {r : Nat} {key : Block} (hperm : s.ctx.perm = buildPerm)
    (hr : r ≤ s.ctx.rounds.toNat) (hk : Store.read s.keys.rk r = some key)
    (rk : Nat → Block) (hrk : rk r = key) :
    ∃ t, finalRound r s = .next t ∧ FrameBlk s t ∧
      t.blk.st = Reference.finalRound s.ctx.sbox rk r s.blk.st := by
  unfold finalRound
  rw [addKey_eq (key := key) (by simpa using hr) (by simpa using hk)]
  refine ⟨_, rfl, ?_, ?_⟩
  · constructor <;> simp
  · simp [Reference.finalRound, hrk, hperm, scatter_buildPerm, mask_rotl_eq, substitute_eq]

/-- The whole block encryption, where every round key holds a value. -/
theorem encryptState_eq {s : State} (rk : Nat → Block) (hperm : s.ctx.perm = buildPerm)
    (hrk : ∀ w, w ≤ s.ctx.rounds.toNat → Store.read s.keys.rk w = some (rk w)) :
    ∃ t, s.encryptState = .next t ∧ FrameBlk s t ∧
      t.blk.st = Reference.encryptBlock s.ctx.sbox rk s.ctx.rounds.toNat s.blk.st := by
  let P : Nat → State → Prop := fun v u =>
    FrameBlk s u ∧
      u.blk.st = Reference.mainRounds s.ctx.sbox rk (v - 1) (Reference.addBlock s.blk.st (rk 0))
  have hwhite := addKey_eq (s := s) (Nat.zero_le _) (hrk 0 (Nat.zero_le _))
  have h0 : P 1 (s.setSt (Reference.addBlock s.blk.st (rk 0))) :=
    ⟨by constructor <;> simp, by simp [Reference.mainRounds]⟩
  obtain ⟨u, hu, hframe, hst⟩ := forLoop_completes P (body := mainRound)
    (count := s.ctx.rounds.toNat - 1) h0 (by
      rintro v u hv hv' ⟨hframe, hst⟩
      obtain ⟨t, ht, htf, htst⟩ := mainRound_eq (s := u) (r := v) (key := rk v)
        (by rw [hframe.ctx, hperm]) (by rw [hframe.ctx]; omega)
        (by rw [hframe.keys]; exact hrk v (by omega)) rk rfl
      refine ⟨t, ht, hframe.trans htf, ?_⟩
      obtain ⟨n, rfl⟩ : ∃ n, v = n + 1 := ⟨v - 1, by omega⟩
      rw [htst, hst, hframe.ctx]
      rfl)
  obtain ⟨t, ht, htf, htst⟩ := finalRound_eq (s := u) (r := s.ctx.rounds.toNat)
    (key := rk s.ctx.rounds.toNat) (by rw [hframe.ctx, hperm]) (by rw [hframe.ctx])
    (by rw [hframe.keys]; exact hrk _ (Nat.le_refl _)) rk rfl
  refine ⟨t, ?_, hframe.trans htf, ?_⟩
  · unfold State.encryptState
    rw [hwhite, andThen_next, State.setSt_ctx, hu, andThen_next, hframe.ctx, ht]
  · rw [htst, hst, hframe.ctx]
    simp [Reference.encryptBlock]

/-- ADDKEY that answers changes the state buffer only. -/
theorem addKey_frame {s t : State} {r : Nat} (h : s.addKey r = .next t) : FrameBlk s t := by
  obtain ⟨_, key, _, h⟩ := withWindow_eq_next.mp h
  cases h
  constructor <;> simp

/-- A main round that answers changes only the block-primitive unit and loop variables. -/
theorem mainRound_frame {r : Nat} {s t : State} (h : mainRound r s = .next t) : FrameBlk s t := by
  unfold mainRound at h
  have h1 : FrameBlk s ((s.setRnd r).subBytes.permute.mixCol.rdt r) := by constructor <;> simp
  exact h1.trans (addKey_frame h)

/-- A final round that answers changes only the block-primitive unit and loop variables. -/
theorem finalRound_frame {r : Nat} {s t : State} (h : finalRound r s = .next t) : FrameBlk s t := by
  unfold finalRound at h
  have h1 : FrameBlk s ((s.setRnd r).subBytes.permute.rdt r) := by constructor <;> simp
  exact h1.trans (addKey_frame h)

/-- A block encryption that answers changes only the block-primitive unit and loop variables. -/
theorem encryptState_frame {s t : State} (h : s.encryptState = .next t) : FrameBlk s t := by
  unfold State.encryptState at h
  obtain ⟨u, hu, h⟩ := andThen_eq_next.mp h
  obtain ⟨v, hv, h⟩ := andThen_eq_next.mp h
  have hv' : FrameBlk s v :=
    forLoop_keeps (FrameBlk s) (fun _ _ _ hxy hx => hx.trans (mainRound_frame hxy)) hv
      (addKey_frame hu)
  exact hv'.trans (finalRound_frame h)

/-- The block encryption does not fault: its round keys are `0 .. R`. -/
theorem encryptState_no_fault (s : State) (e : Fault) : s.encryptState ≠ .fault e := by
  intro h
  have hadd : ∀ (r : Nat) (u : State), r ≤ u.ctx.rounds.toNat → u.addKey r ≠ .fault e := by
    intro r u hr h
    rcases withWindow_eq_fault h with h | ⟨key, h⟩
    · omega
    · cases h
  unfold State.encryptState at h
  rcases andThen_eq_fault.mp h with h | ⟨u, hu, h⟩
  · exact hadd 0 s (Nat.zero_le _) h
  · have hus := addKey_frame hu
    rcases andThen_eq_fault.mp h with h | ⟨v, hv, h⟩
    · refine forLoop_no_fault (FrameBlk u) (fun _ _ _ hxy hx => hx.trans (mainRound_frame hxy)) ?_
        (FrameBlk.refl u) h
      intro r x _ hr hx
      unfold mainRound
      apply hadd
      simp only [State.rdt_ctx, State.mixCol_ctx, State.permute_ctx, State.subBytes_ctx,
        State.setRnd_ctx, hx.ctx]
      omega
    · unfold finalRound at h
      exact hadd _ _ (by simp) h

theorem frameBlk_setSt (s : State) (b : Block) : FrameBlk s (s.setSt b) := by constructor <;> simp

/-- What a BLOCKENC that answers has done: reported an error, or encrypted `DIN` into a fresh result. -/
theorem blockenc_eq_next {s t : State} (h : execBlockenc s = .next t) :
    (∃ k, t = s.raise k) ∨
      ∃ u, s.ctx.valid = true ∧ s.keys.valid = true ∧ FrameBlk s.allocateResult u ∧
        t = (u.storeSt 0).endBlock.completeWithResult 256 := by
  unfold execBlockenc at h
  split at h
  · cases h
    exact .inl ⟨_, rfl⟩
  split at h
  · cases h
  split at h
  · cases h
    exact .inl ⟨_, rfl⟩
  obtain ⟨u, hu, h⟩ := andThen_eq_next.mp h
  obtain ⟨v, hv, h⟩ := andThen_eq_next.mp h
  cases h
  rw [State.loadSt, if_pos rfl] at hu
  obtain ⟨l, _, hu⟩ := withDin_eq_next.mp hu
  cases hu
  refine .inr ⟨v, ?_, ?_, (frameBlk_setSt _ _).trans (encryptState_frame hv), rfl⟩ <;> simp_all

end Sys2Proof.Machine
end

