-- ==== Sys2Proof/Laws/CtrDriver.lean ====
section
/-! SUPPORT. The CTR driver: what one step, and one iteration of a call, answer (43_ctr_driver.md rules
R203 to R213), and what a whole call leaves alone. -/

namespace Sys2Proof.Machine

/-! ### The counter increment -/

/-- The number the first `c` bytes of the counter field stand for, big-endian (rule R67). -/
def fieldPrefix (cnt : Block) : (c : Nat) → c ≤ 224 → Nat
  | 0, _ => 0
  | c + 1, h => fieldPrefix cnt c (by omega) * 256 + cnt[32 + c].toNat

theorem fieldPrefix_congr {a b : Block} (c : Nat) (h : c ≤ 224)
    (hab : ∀ (j : Nat) (hj : j < 256), 32 ≤ j → j < 32 + c → a[j] = b[j]) :
    fieldPrefix a c h = fieldPrefix b c h := by
  induction c with
  | zero => rfl
  | succ c ih =>
    rw [fieldPrefix, fieldPrefix, ih (by omega) fun j hj h1 h2 => hab j hj h1 (by omega),
      hab (32 + c) (by omega) (by omega) (by omega)]

theorem fieldPrefix_lt (cnt : Block) (c : Nat) (h : c ≤ 224) : fieldPrefix cnt c h < 256 ^ c := by
  induction c with
  | zero => simp [fieldPrefix]
  | succ c ih =>
    have h1 := ih (by omega)
    have h2 := cnt[32 + c].isLt
    rw [fieldPrefix, Nat.pow_succ]
    omega

/-- The loop of INCCTR touches the bytes `32 .. 31 + count` at most. -/
theorem incFrom_outside (count : Nat) (h : count ≤ 224) (cnt : Block) (j : Nat) (hj : j < 256)
    (hout : j < 32 ∨ 32 + count ≤ j) : (incFrom count h cnt).1[j] = cnt[j] := by
  induction count generalizing cnt with
  | zero => rfl
  | succ c ih =>
    have hne : ¬ 32 + c = j := by omega
    simp only [incFrom]
    split
    · simp [hne]
    · rw [ih (by omega) _ (by omega)]
      simp [hne]

/-- The loop of INCCTR adds one to the big-endian number in the bytes `32 .. 31 + count`. -/
theorem incFrom_field (count : Nat) (h : count ≤ 224) (cnt : Block) :
    fieldPrefix (incFrom count h cnt).1 count h = (fieldPrefix cnt count h + 1) % 256 ^ count := by
  induction count generalizing cnt with
  | zero => simp [fieldPrefix]
  | succ c ih =>
    have hc : c ≤ 224 := by omega
    have hlt := fieldPrefix_lt cnt c hc
    have hb := cnt[32 + c].isLt
    have hsame : ∀ v : Byte, fieldPrefix (cnt.set (32 + c) v) c hc = fieldPrefix cnt c hc := by
      intro v
      refine fieldPrefix_congr c hc fun j hj h1 h2 => ?_
      have hne : ¬ 32 + c = j := by omega
      simp [hne]
    rw [fieldPrefix, fieldPrefix]
    simp only [incFrom]
    have hv : (cnt[32 + c] + 1#8).toNat = (cnt[32 + c].toNat + 1) % 256 := by
      simp [BitVec.toNat_add]
    split
    · next hnz =>
      have hcarry : cnt[32 + c].toNat + 1 < 256 := by
        by_contra hcon
        apply hnz
        apply BitVec.eq_of_toNat_eq
        rw [hv]
        simp
        omega
      simp only [hsame, Vector.getElem_set_self, hv]
      rw [Nat.mod_eq_of_lt hcarry, Nat.mod_eq_of_lt]
      · omega
      · rw [Nat.pow_succ]; omega
    · next hz =>
      have hz' : cnt[32 + c] + 1#8 = 0#8 := not_not.mp hz
      have hfull : cnt[32 + c].toNat = 255 := by
        have := congrArg BitVec.toNat hz'
        rw [hv] at this
        simp at this
        omega
      rw [ih hc, incFrom_outside c hc _ (32 + c) (by omega) (by omega), hsame]
      simp only [Vector.getElem_set_self, hz', hfull]
      have : (fieldPrefix cnt c hc * 256 + 255 + 1) = 256 * (fieldPrefix cnt c hc + 1) := by ring
      rw [this, Nat.pow_succ, Nat.mul_comm (256 ^ c), Nat.mul_mod_mul_left]
      simp [Nat.mul_comm]

/-- The sum of rule R67 over the first `c` bytes of the field. -/
theorem fieldPrefix_eq_sum (cnt : Block) (c : Nat) (h : c ≤ 224) :
    fieldPrefix cnt c h
      = ∑ j : Fin c, (cnt[32 + j.val]'(by omega)).toNat * 2 ^ (8 * (c - 1 - j.val)) := by
  induction c with
  | zero => simp [fieldPrefix]
  | succ c ih =>
    rw [fieldPrefix, ih (by omega), Fin.sum_univ_castSucc, Finset.sum_mul]
    simp only [Fin.val_castSucc, Fin.val_last, Nat.add_sub_cancel, Nat.sub_self, Nat.mul_zero,
      Nat.pow_zero, Nat.mul_one]
    congr 1
    refine Finset.sum_congr rfl fun j _ => ?_
    have hj := j.isLt
    have hexp : 8 * (c - j.val) = 8 * (c - 1 - j.val) + 8 := by omega
    rw [hexp, Nat.pow_add, Nat.mul_assoc]

/-- The counter field as a number (rule R67). -/
theorem counterField_eq (cnt : Block) :
    Reference.counterField cnt = fieldPrefix cnt 224 (Nat.le_refl _) := by
  rw [fieldPrefix_eq_sum, Reference.counterField]
  refine Finset.sum_congr rfl fun j _ => ?_
  have hexp : 255 - (32 + j.val) = 224 - 1 - j.val := by omega
  rw [hexp]

/-- A counter block is its IV bytes and its field. -/
theorem block_eq_of_field {a b : Block} (hiv : ∀ (j : Nat) (hj : j < 32), a[j] = b[j])
    (hfield : Reference.counterField a = Reference.counterField b) : a = b := by
  have key : ∀ (c : Nat) (h : c ≤ 224), fieldPrefix a c h = fieldPrefix b c h →
      ∀ (j : Nat) (hj : j < 256), 32 ≤ j → j < 32 + c → a[j] = b[j] := by
    intro c
    induction c with
    | zero => intro _ _ j _ h1 h2; omega
    | succ c ih =>
      intro h hab j hj h1 h2
      rw [fieldPrefix, fieldPrefix] at hab
      have ha := a[32 + c].isLt
      have hb := b[32 + c].isLt
      by_cases hjc : j = 32 + c
      · subst hjc
        apply BitVec.eq_of_toNat_eq
        omega
      · exact ih (by omega) (by omega) j hj h1 (by omega)
  rw [counterField_eq, counterField_eq] at hfield
  apply vector_ext
  intro j hj
  by_cases hj32 : j < 32
  · exact hiv j hj32
  · exact key 224 (Nat.le_refl _) hfield j hj (by omega) (by omega)

theorem two_pow_field : (2 : Nat) ^ 1792 = 256 ^ 224 := by
  have h : (256 : Nat) = 2 ^ 8 := rfl
  rw [h, ← Nat.pow_mul]

/-- The field of the counter block of block number `m` (rule R214). -/
theorem counterField_counterBlock (iv : Vector Byte 32) (m : Nat) :
    Reference.counterField (Reference.counterBlock iv m) = m % 2 ^ 1792 := by
  rw [counterField_eq]
  have hM : m % 2 ^ 1792 < 256 ^ 224 := by
    rw [← two_pow_field]
    exact Nat.mod_lt _ (Nat.two_pow_pos _)
  have hbyte : ∀ (j : Nat) (hj : j < 256), 32 ≤ j →
      ((Reference.counterBlock iv m)[j]).toNat = m % 2 ^ 1792 / 2 ^ (8 * (255 - j)) % 256 := by
    intro j hj h32
    simp only [Reference.counterBlock, getElem_tab, Nat.not_lt.mpr h32, dif_neg, not_false_eq_true,
      BitVec.toNat_ofNat]
    exact Nat.mod_mod _ _
  revert hM hbyte
  generalize m % 2 ^ 1792 = M
  intro hM hbyte
  have key : ∀ (c : Nat) (h : c ≤ 224),
      fieldPrefix (Reference.counterBlock iv m) c h = M / 256 ^ (224 - c) := by
    intro c
    induction c with
    | zero =>
      intro h
      rw [fieldPrefix]
      exact (Nat.div_eq_of_lt hM).symm
    | succ c ih =>
      intro h
      have h2 : (2 : Nat) ^ (8 * (255 - (32 + c))) = 256 ^ (224 - (c + 1)) := by
        rw [Nat.pow_mul]
        congr 1
        omega
      have hexp : 224 - c = 224 - (c + 1) + 1 := by omega
      rw [fieldPrefix, ih (by omega), hbyte _ _ (by omega), h2, hexp, Nat.pow_succ,
        ← Nat.div_div_eq_div_mul]
      omega
  rw [key 224 (Nat.le_refl _), Nat.sub_self, Nat.pow_zero, Nat.div_one]

/-- The IV bytes of the counter block of any block number (rule R214). -/
theorem getElem_counterBlock_iv (iv : Vector Byte 32) (m j : Nat) (hj : j < 32) :
    (Reference.counterBlock iv m)[j] = iv[j] := by
  simp [Reference.counterBlock, hj]

/-- INCCTR takes the counter block of block number `m` to that of `m + 1`. -/
theorem incFrom_counterBlock (iv : Vector Byte 32) (m : Nat) :
    (incFrom 224 (by decide) (Reference.counterBlock iv m)).1
      = Reference.counterBlock iv (m + 1) := by
  apply block_eq_of_field
  · intro j hj
    rw [incFrom_outside _ _ _ j (by omega) (.inl hj), getElem_counterBlock_iv _ _ _ hj,
      getElem_counterBlock_iv _ _ _ hj]
  · rw [counterField_eq, incFrom_field, ← counterField_eq, counterField_counterBlock,
      counterField_counterBlock]
    rw [← two_pow_field, Nat.mod_add_mod]

/-! ### The steps of a call -/

/-- CTRINIT, where the IV's bytes are there: the counter block of block number 0. -/
theorem ctrInit_eq {s : State} {iv : Vector Byte 32}
    (hiv : Memory.readBytes s.ops.iv 0 32 = some iv.toList) :
    s.ctrInit = .next (s.setCnt (Reference.counterBlock iv 0)) := by
  have hblock : blockOfList iv.toList = Reference.counterBlock iv 0 := by
    apply vector_ext
    intro j hj
    rw [getElem_blockOfList]
    simp only [Reference.counterBlock, getElem_tab]
    by_cases h : j < 32
    · rw [dif_pos h]
      simp [List.getD_eq_getElem?_getD, h]
    · rw [dif_neg h, Nat.zero_mod, Nat.zero_div, Nat.zero_mod]
      simp [List.getD_eq_getElem?_getD, h]
  simp [State.ctrInit, State.withIv, hiv, hblock]

/-- LDST 1 loads the counter block. -/
theorem loadSt_one (s : State) : s.loadSt 1 = .next (s.setSt s.ctr.cnt) := rfl

theorem frameCtr_storeSt (s : State) (sel : Nat) : FrameCtr s (s.storeSt sel) := by
  constructor <;> simp <;> split <;> rfl

/-- ENCCTR, where every round key holds a value: the keystream block is the encrypted counter block. -/
theorem encCtr_eq {s : State} (rk : Nat → Block) (hperm : s.ctx.perm = buildPerm)
    (hrk : ∀ w, w ≤ s.ctx.rounds.toNat → Store.read s.keys.rk w = some (rk w)) :
    ∃ t, s.encCtr = .next t ∧ FrameCtr s t ∧ t.out = s.out ∧ t.seq.p = s.seq.p ∧
      t.ctr.cnt = s.ctr.cnt ∧
      t.ctr.ks = Reference.encryptBlock s.ctx.sbox rk s.ctx.rounds.toNat s.ctr.cnt := by
  have hload := frameBlk_setSt s s.ctr.cnt
  obtain ⟨u, hu, hframe, hst⟩ := encryptState_eq (s := s.setSt s.ctr.cnt) rk
    (by rw [hload.ctx, hperm]) (by rw [hload.ctx, hload.keys]; exact hrk)
  have hall := hload.trans hframe
  refine ⟨u.storeSt 1, ?_, hall.toCtr.trans (frameCtr_storeSt u 1), ?_, ?_, ?_, ?_⟩
  · rw [State.encCtr, loadSt_one, andThen_next, hu, andThen_next]
  · simp [hall.out]
  · simp [hall.p]
  · simp [hall.ctr]
  · simpa using hst

/-- An ENCCTR that answers changes the block-primitive unit, `KS` and loop variables only. -/
theorem encCtr_frame {s t : State} (h : s.encCtr = .next t) :
    FrameCtr s t ∧ t.out = s.out ∧ t.ctr.cnt = s.ctr.cnt := by
  rw [State.encCtr, loadSt_one, andThen_next] at h
  obtain ⟨u, hu, h⟩ := andThen_eq_next.mp h
  cases h
  have hall := (frameBlk_setSt s s.ctr.cnt).trans (encryptState_frame hu)
  exact ⟨hall.toCtr.trans (frameCtr_storeSt u 1), by simp [hall.out], by simp [hall.ctr]⟩

/-- What a KSXOR that answers has done: rule R209's three assignments. -/
theorem ksXor_eq_next {s t : State} (h : s.ksXor = .next t) :
    s.seq.p ≤ s.ops.dinDesc.len ∧
      ∃ l, Memory.readBytes s.ops.din s.seq.p (min 256 (s.ops.dinDesc.len - s.seq.p)) = some l ∧
        t = ((s.setDout (Memory.writeBytes s.out.dout s.seq.p
          (List.zipWith (fun d k => d ^^^ k) l s.ctr.ks.toList))).setN
            (min 256 (s.ops.dinDesc.len - s.seq.p))).setP
              (s.seq.p + min 256 (s.ops.dinDesc.len - s.seq.p)) := by
  unfold State.ksXor at h
  split at h
  · cases h
  · next hp =>
    obtain ⟨l, hl, h⟩ := withDin_eq_next.mp h
    cases h
    exact ⟨by omega, l, hl, rfl⟩

/-- A KSXOR that answers changes `DOUT`, `N` and `P` only. -/
theorem ksXor_frame {s t : State} (h : s.ksXor = .next t) :
    FrameCtr s t ∧ t.ctr = s.ctr ∧ t.blk = s.blk ∧
      (Memory.wf s.out.dout → Memory.wf t.out.dout) := by
  obtain ⟨_, l, _, rfl⟩ := ksXor_eq_next h
  exact ⟨by constructor <;> simp, by simp, by simp, fun hw => by
    simpa using Memory.wf_writeBytes hw _ _⟩

theorem frameCtr_incCtr (s : State) : FrameCtr s s.incCtr := by constructor <;> simp

/-- An iteration that answers keeps everything outside the call's own buffers. -/
theorem ctrBlock_frame {s t : State} (h : ctrBlock s = .next t) :
    FrameCtr s t ∧ (Memory.wf s.out.dout → Memory.wf t.out.dout) := by
  unfold ctrBlock at h
  obtain ⟨u, hu, h⟩ := andThen_eq_next.mp h
  obtain ⟨v, hv, h⟩ := andThen_eq_next.mp h
  cases h
  obtain ⟨h1, hout, _⟩ := encCtr_frame hu
  obtain ⟨h2, _, _, hwf⟩ := ksXor_frame hv
  refine ⟨(h1.trans h2).trans (frameCtr_incCtr v), fun hs => ?_⟩
  rw [State.incCtr_out]
  exact hwf (by rw [hout]; exact hs)

/-- The loop of a call keeps everything outside the call's own buffers. -/
theorem ctrLoop_frame {fuel : Nat} {s t : State} (h : ctrLoop fuel s = .next t) :
    FrameCtr s t ∧ (Memory.wf s.out.dout → Memory.wf t.out.dout) := by
  induction fuel generalizing s with
  | zero => cases h; exact ⟨FrameCtr.refl _, id⟩
  | succ n ih =>
    unfold ctrLoop at h
    split at h
    · obtain ⟨u, hu, h⟩ := andThen_eq_next.mp h
      obtain ⟨h1, w1⟩ := ctrBlock_frame hu
      obtain ⟨h2, w2⟩ := ih h
      exact ⟨h1.trans h2, fun hs => w2 (w1 hs)⟩
    · cases h
      exact ⟨FrameCtr.refl _, id⟩

/-- The loop of a call that answers has written exactly the bytes up to the input's length, where it had
written exactly those up to `P` before. -/
theorem ctrLoop_bytes {fuel : Nat} {s t : State} (h : ctrLoop fuel s = .next t)
    (hfuel : s.ops.dinDesc.len ≤ s.seq.p + 256 * fuel) (hp : s.seq.p ≤ s.ops.dinDesc.len)
    (hs : ∀ q, (Memory.byte? s.out.dout q).isSome = true ↔ q < s.seq.p) :
    ∀ q, (Memory.byte? t.out.dout q).isSome = true ↔ q < s.ops.dinDesc.len := by
  induction fuel generalizing s with
  | zero =>
    cases h
    have : t.seq.p = t.ops.dinDesc.len := by omega
    rwa [this] at hs
  | succ n ih =>
    unfold ctrLoop at h
    split at h
    · next hlt =>
      obtain ⟨x, hx, h⟩ := andThen_eq_next.mp h
      have hxf := (ctrBlock_frame hx).1
      unfold ctrBlock at hx
      obtain ⟨u, hu, hx⟩ := andThen_eq_next.mp hx
      obtain ⟨v, hv, hx⟩ := andThen_eq_next.mp hx
      cases hx
      obtain ⟨huf, huout, _⟩ := encCtr_frame hu
      obtain ⟨_, l, hl, rfl⟩ := ksXor_eq_next hv
      have hup : u.seq.p = s.seq.p := by
        rw [State.encCtr, loadSt_one, andThen_next] at hu
        obtain ⟨e, he, hu⟩ := andThen_eq_next.mp hu
        cases hu
        rw [State.storeSt_seq, (encryptState_frame he).p]
        rfl
      rw [huf.ops, hup] at h hl
      rw [huout] at h
      have hlen := ((Memory.readBytes_eq_some _ _ _ _).mp hl).1
      have hz : (List.zipWith (fun d k => d ^^^ k) l u.ctr.ks.toList).length
          = min 256 (s.ops.dinDesc.len - s.seq.p) := by simp [hlen]
      have hops : ∀ (m : Memory) (a b : Nat),
          (((u.setDout m).setN a).setP b).incCtr.ops = s.ops := by
        intro m a b
        simp [huf.ops]
      have := ih h (by simp only [hops, State.incCtr_seq, State.setP_seq]; omega)
        (by simp only [hops, State.incCtr_seq, State.setP_seq]; omega) (by
          intro q
          simp only [State.incCtr_out, State.setP_out, State.setN_out, State.setDout_out,
            State.incCtr_seq, State.setP_seq]
          rw [Memory.byte?_writeBytes, hz]
          split
          · next hq =>
            rw [List.getElem?_eq_getElem (by rw [hz]; omega)]
            simp
            omega
          · next hq =>
            rw [hs q]
            omega)
      rwa [hops] at this
    · next hge =>
      cases h
      have : t.seq.p = t.ops.dinDesc.len := by omega
      rwa [this] at hs

/-! ### The loop's closed form -/

/-- The bytes a call has produced once `p` of them are written (rule R214). -/
def Produced (sbox : Block) (rk : Nat → Block) (rounds : Nat) (iv : Vector Byte 32)
    (din dout : Memory) (p : Nat) : Prop :=
  ∀ q, Memory.byte? dout q =
    if q < p then
      (Memory.byte? din q).map fun d =>
        d ^^^ (Reference.encryptBlock sbox rk rounds
          (Reference.counterBlock iv (q / 256)))[q % 256]'(Nat.mod_lt _ (by decide))
    else none

/-- One iteration, with `k` blocks done before it: the next chunk of rule R214's bytes is added. -/
theorem ctrBlock_eq {s : State} (rk : Nat → Block) (iv : Vector Byte 32) (k : Nat)
    (hperm : s.ctx.perm = buildPerm)
    (hrk : ∀ w, w ≤ s.ctx.rounds.toNat → Store.read s.keys.rk w = some (rk w))
    (hp : s.seq.p = 256 * k)
    (hlt : s.seq.p < s.ops.dinDesc.len)
    (hdin : ∀ q, q < s.ops.dinDesc.len → (Memory.byte? s.ops.din q).isSome)
    (hcnt : s.ctr.cnt = Reference.counterBlock iv k)
    (hdone : Produced s.ctx.sbox rk s.ctx.rounds.toNat iv s.ops.din s.out.dout s.seq.p) :
    ∃ t, ctrBlock s = .next t ∧ FrameCtr s t ∧
      t.seq.p = min (256 * (k + 1)) s.ops.dinDesc.len ∧
      t.ctr.cnt = Reference.counterBlock iv (k + 1) ∧
      Produced s.ctx.sbox rk s.ctx.rounds.toNat iv s.ops.din t.out.dout t.seq.p := by
  obtain ⟨u, hu, hf, hout, hup, hucnt, huks⟩ := encCtr_eq rk hperm hrk
  have hsome : (Memory.readBytes s.ops.din s.seq.p
      (min 256 (s.ops.dinDesc.len - s.seq.p))).isSome := by
    rw [Memory.readBytes_isSome]
    intro j hj
    exact hdin _ (by omega)
  obtain ⟨l, hl⟩ := Option.isSome_iff_exists.mp hsome
  have hx : u.ksXor = .next (((u.setDout (Memory.writeBytes s.out.dout s.seq.p
      (List.zipWith (fun d k => d ^^^ k) l u.ctr.ks.toList))).setN
        (min 256 (s.ops.dinDesc.len - s.seq.p))).setP
          (s.seq.p + min 256 (s.ops.dinDesc.len - s.seq.p))) := by
    unfold State.ksXor
    rw [hf.ops, hup, hout, if_neg (by omega)]
    simp only [State.withDin, hf.ops, hl]
  refine ⟨_, by rw [ctrBlock, hu, andThen_next, hx, andThen_next], ?_, ?_, ?_, ?_⟩
  · exact (hf.trans (by constructor <;> simp)).trans (frameCtr_incCtr _)
  · simp only [State.incCtr_seq, State.setP_seq]
    omega
  · simp only [State.incCtr_ctr, State.setP_ctr, State.setN_ctr, State.setDout_ctr, hucnt, hcnt]
    exact incFrom_counterBlock iv k
  · simp only [State.incCtr_out, State.setP_out, State.setN_out, State.setDout_out,
      State.incCtr_seq, State.setP_seq]
    obtain ⟨hlen, hbytes⟩ := (Memory.readBytes_eq_some _ _ _ _).mp hl
    have hzl : (List.zipWith (fun d k => d ^^^ k) l u.ctr.ks.toList).length
        = min 256 (s.ops.dinDesc.len - s.seq.p) := by
      simp [hlen]
    intro q
    rw [Memory.byte?_writeBytes, hzl]
    by_cases hq : s.seq.p ≤ q ∧ q < s.seq.p + min 256 (s.ops.dinDesc.len - s.seq.p)
    · rw [if_pos hq, if_pos hq.2]
      have hb := hbytes (q - s.seq.p) (by omega)
      rw [Nat.add_sub_cancel' hq.1] at hb
      have hdiv : q / 256 = k := by omega
      have hmod : q - s.seq.p = q % 256 := by omega
      have hql : q - s.seq.p < l.length := by omega
      have hqk : q - s.seq.p < u.ctr.ks.toList.length := by simp; omega
      rw [hb, List.getElem?_eq_getElem (by rw [hzl]; omega), List.getElem?_eq_getElem hql,
        List.getElem_zipWith]
      simp only [Option.map_some, Vector.getElem_toList, huks, hcnt, hdiv, hmod]
    · rw [if_neg hq, hdone q]
      by_cases hlow : q < s.seq.p
      · rw [if_pos hlow, if_pos (by omega)]
      · rw [if_neg hlow, if_neg (by omega)]

/-- The loop of a call, with enough iterations left: every byte of the result (rule R214). -/
theorem ctrLoop_eq {fuel : Nat} {s : State} (rk : Nat → Block) (iv : Vector Byte 32) (k : Nat)
    (hfuel : s.ops.dinDesc.len ≤ 256 * (k + fuel)) (hperm : s.ctx.perm = buildPerm)
    (hrk : ∀ w, w ≤ s.ctx.rounds.toNat → Store.read s.keys.rk w = some (rk w))
    (hp : s.seq.p = min (256 * k) s.ops.dinDesc.len)
    (hdin : ∀ q, q < s.ops.dinDesc.len → (Memory.byte? s.ops.din q).isSome)
    (hcnt : s.ctr.cnt = Reference.counterBlock iv k)
    (hdone : Produced s.ctx.sbox rk s.ctx.rounds.toNat iv s.ops.din s.out.dout s.seq.p) :
    ∃ t, ctrLoop fuel s = .next t ∧ FrameCtr s t ∧
      Produced s.ctx.sbox rk s.ctx.rounds.toNat iv s.ops.din t.out.dout s.ops.dinDesc.len := by
  induction fuel generalizing s k with
  | zero =>
    refine ⟨s, rfl, FrameCtr.refl s, ?_⟩
    rwa [hp, Nat.min_eq_right (by omega)] at hdone
  | succ n ih =>
    unfold ctrLoop
    split
    · next hlt =>
      obtain ⟨u, hu, hf, hup, hucnt, hudone⟩ :=
        ctrBlock_eq rk iv k hperm hrk (by omega) hlt hdin hcnt hdone
      obtain ⟨t, ht, htf, htdone⟩ := ih (s := u) (k + 1) (by rw [hf.ops]; omega)
        (by rw [hf.ctx, hperm]) (by rw [hf.ctx, hf.keys]; exact hrk)
        (by rw [hf.ops, hup]) (by rw [hf.ops]; exact hdin) hucnt
        (by rw [hf.ctx, hf.ops]; exact hudone)
      rw [hf.ctx, hf.ops] at htdone
      exact ⟨t, by rw [hu, andThen_next, ht], hf.trans htf, htdone⟩
    · next hge =>
      refine ⟨s, rfl, FrameCtr.refl s, ?_⟩
      have : s.seq.p = s.ops.dinDesc.len := by omega
      rwa [this] at hdone

/-- What a call's procedure that answers leaves alone; the round keys are gone, and `DOUT` keeps its
canonical form. -/
theorem ctrProcedure_frame {s t : State} (h : s.ctrProcedure = .next t) :
    t.ctx = s.ctx ∧ t.ops = s.ops ∧ t.err = s.err ∧ t.ports = s.ports ∧
      t.freeIndex = s.freeIndex ∧ t.keys.rk = [] ∧ t.keys.valid = false ∧
      Memory.wf t.out.dout ∧
      ∀ q, (Memory.byte? t.out.dout q).isSome = true ↔ q < s.ops.dinDesc.len := by
  unfold State.ctrProcedure at h
  obtain ⟨u, hu, h⟩ := andThen_eq_next.mp h
  obtain ⟨v, hv, h⟩ := andThen_eq_next.mp h
  obtain ⟨w, hw, h⟩ := andThen_eq_next.mp h
  cases h
  obtain ⟨key, hkey⟩ := expandKey_key hu
  obtain ⟨u', hu', hfu, _⟩ := expandKey_eq hkey
  rw [hu] at hu'
  cases hu'
  obtain ⟨iv, _, hv⟩ := withIv_eq_next.mp hv
  cases hv
  obtain ⟨hfw, hwf⟩ := ctrLoop_frame hw
  refine ⟨?_, ?_, ?_, ?_, ?_, rfl, rfl, ?_, ?_⟩
  · simp [hfw.ctx, hfu.ctx]
  · simp [hfw.ops, hfu.ops]
  · simp [hfw.err, hfu.err]
  · simp [hfw.ports, hfu.ports]
  · simp [hfw.freeIndex, hfu.freeIndex]
  · simpa using hwf (by simpa using Store.wf_nil)
  · have := ctrLoop_bytes hw (by simp [State.ctrIterations, hfu.ops]; omega) (by simp)
      (by intro q; simp [Memory.byte?_nil])
    simpa [hfu.ops] using this

/-- A call's procedure, where key, IV and input are there: every byte of the result (rule R214). -/
theorem ctrProcedure_eq {s : State} {key : Block} {iv : Vector Byte 32}
    (hkey : Memory.readBytes s.ops.key 0 256 = some key.toList)
    (hiv : Memory.readBytes s.ops.iv 0 32 = some iv.toList) (hperm : s.ctx.perm = buildPerm)
    (hdin : ∀ q, q < s.ops.dinDesc.len → (Memory.byte? s.ops.din q).isSome) :
    ∃ t, s.ctrProcedure = .next t ∧
      Produced s.ctx.sbox (Reference.roundKey s.ctx.sbox key) s.ctx.rounds.toNat iv s.ops.din
        t.out.dout s.ops.dinDesc.len := by
  obtain ⟨u, hu, hfu, _, _, hread⟩ := expandKey_eq hkey
  let v : State := (u.allocateResult.setCnt (Reference.counterBlock iv 0)).setP 0
  have hctx : v.ctx = s.ctx := by simp [v, hfu.ctx]
  have hops : v.ops = s.ops := by simp [v, hfu.ops]
  have hkeys : v.keys = u.keys := by simp [v]
  obtain ⟨t, ht, _, hdone⟩ := ctrLoop_eq (fuel := s.ctrIterations) (s := v)
    (Reference.roundKey s.ctx.sbox key) iv 0
    (by rw [hops, State.ctrIterations]; omega) (by rw [hctx, hperm])
    (by rw [hctx, hkeys]; intro w hw; rw [hread, if_pos hw])
    (by simp [v]) (by rw [hops]; exact hdin) (by simp [v])
    (by intro q; simp [v, Memory.byte?_nil])
  rw [hctx, hops] at hdone
  refine ⟨t.discard, ?_, by simpa using hdone⟩
  have hiter : (u.allocateResult.setCnt (Reference.counterBlock iv 0)).ctrIterations
      = s.ctrIterations := by simp [State.ctrIterations, hfu.ops]
  rw [State.ctrProcedure, hu, andThen_next,
    ctrInit_eq (iv := iv) (by simpa [hfu.ops] using hiv), andThen_next, hiter, ht, andThen_next]

/-- What a call that answers has done: reported an error, or run its procedure to the end. -/
theorem ctrCall_eq_next {s t : State} (h : s.ctrCall = .next t) :
    (∃ k n, t = State.raise { s with freeIndex := n } k) ∨
      ∃ u, s.ctrProcedure = .next u ∧ s.ctx.valid = true ∧ s.callDescriptorsWritten = true ∧
        s.validate = none ∧ t = u.completeWithResult s.ops.dinDesc.len := by
  unfold State.ctrCall at h
  split at h
  · cases h
    exact .inl ⟨_, s.freeIndex, rfl⟩
  split at h
  · cases h
  split at h
  · next k hk =>
    cases h
    unfold State.validated
    split
    · exact .inl ⟨k, s.freeIndex + 1, rfl⟩
    · exact .inl ⟨k, s.freeIndex, rfl⟩
  · next hv =>
    obtain ⟨u, hu, h⟩ := andThen_eq_next.mp h
    cases h
    refine .inr ⟨u, hu, ?_, ?_, hv, rfl⟩ <;> simp_all

end Sys2Proof.Machine
end

