-- ==== Sys2Proof/Laws/PerInstr.lean ====
section
/-! SUPPORT. Statements for all operations, one lemma per constructor of `Instr`. -/

namespace Sys2Proof.Laws.EncodeFields

/-- The three fields of an operation's word are its opcode, zero, and its immediate (rules R90 and
R93). -/
def Statement (i : Instr) : Prop :=
  opcodeField (encode i) = i.opcode ∧ zeroField (encode i) = 0#8 ∧ imm16Field (encode i) = i.imm16

/-- A bit of a word put together from three fields. -/
theorem bit_of_append (op : BitVec 8) (imm : BitVec 16) (i : Nat) :
    BitVec.getLsbD (w := 32) (op ++ 0#8 ++ imm) i =
      if i < 16 then imm.getLsbD i else if i - 16 < 8 then false else op.getLsbD (i - 16 - 8) := by
  have h1 := BitVec.getLsbD_append (x := op ++ 0#8) (y := imm) (i := i)
  have h2 := BitVec.getLsbD_append (x := op) (y := 0#8) (i := i - 16)
  rw [h2] at h1
  refine h1.trans ?_
  simp

/-- The fields of a word put together from three. -/
theorem fields_of_append (op : BitVec 8) (imm : BitVec 16) :
    opcodeField (op ++ 0#8 ++ imm) = op ∧ zeroField (op ++ 0#8 ++ imm) = 0#8 ∧
      imm16Field (op ++ 0#8 ++ imm) = imm := by
  refine ⟨?_, ?_, ?_⟩ <;> apply BitVec.eq_of_getLsbD_eq <;> intro i hi
  · rw [opcodeField, BitVec.getLsbD_extractLsb', bit_of_append, if_neg (by omega),
      if_neg (by omega)]
    have h : 24 + i - 16 - 8 = i := by omega
    simp [hi, h]
  · rw [zeroField, BitVec.getLsbD_extractLsb', bit_of_append, if_neg (by omega), if_pos (by omega)]
    simp
  · rw [imm16Field, BitVec.getLsbD_extractLsb', bit_of_append, if_pos (by omega)]
    simp [hi]

theorem construct (r : BitVec 16) : Statement (.construct r) := fields_of_append _ _
theorem encrypt : Statement .encrypt := fields_of_append _ _
theorem decrypt : Statement .decrypt := fields_of_append _ _
theorem release : Statement .release := fields_of_append _ _
theorem keyexpand : Statement .keyexpand := fields_of_append _ _
theorem blockenc : Statement .blockenc := fields_of_append _ _
theorem ctrinit : Statement .ctrinit := fields_of_append _ _
theorem encctr : Statement .encctr := fields_of_append _ _
theorem ksxor : Statement .ksxor := fields_of_append _ _
theorem incctr : Statement .incctr := fields_of_append _ _
theorem ldst (sel : BitVec 16) : Statement (.ldst sel) := fields_of_append _ _
theorem stst (sel : BitVec 16) : Statement (.stst sel) := fields_of_append _ _
theorem addkey (r : BitVec 16) : Statement (.addkey r) := fields_of_append _ _
theorem subbytes : Statement .subbytes := fields_of_append _ _
theorem permute : Statement .permute := fields_of_append _ _
theorem mixcol : Statement .mixcol := fields_of_append _ _
theorem rotl (k : BitVec 16) : Statement (.rotl k) := fields_of_append _ _
theorem xormask (round : BitVec 16) : Statement (.xormask round) := fields_of_append _ _
theorem rdt (round : BitVec 16) : Statement (.rdt round) := fields_of_append _ _
theorem ksinit : Statement .ksinit := fields_of_append _ _
theorem ksload (w : BitVec 16) : Statement (.ksload w) := fields_of_append _ _
theorem ksrot3 : Statement .ksrot3 := fields_of_append _ _
theorem kssub4 : Statement .kssub4 := fields_of_append _ _
theorem ksrcon (w : BitVec 16) : Statement (.ksrcon w) := fields_of_append _ _
theorem ksxorp (w : BitVec 16) : Statement (.ksxorp w) := fields_of_append _ _
theorem ksstore (w : BitVec 16) : Statement (.ksstore w) := fields_of_append _ _

end Sys2Proof.Laws.EncodeFields
end

