-- ==== Sys2Proof/Tests/Slice0.lean ====
section
/-! SUPPORT. Small tests whose expected values are those of 95_test_vectors.md, and for each obligation with
hypotheses a state that meets them all. -/

namespace Sys2Proof.Tests

open Sys2Proof.Machine Sys2Proof.Safety

/-! ### WellFormed: one ill-formed term for each check -/

theorem test_illFormed_construct : (Instr.construct 0#16).wellFormed = false := by decide
theorem test_illFormed_ldst : (Instr.ldst 2#16).wellFormed = false := by decide
theorem test_illFormed_stst : (Instr.stst 2#16).wellFormed = false := by decide
theorem test_illFormed_ksload : (Instr.ksload 0#16).wellFormed = false := by decide
theorem test_illFormed_ksrcon : (Instr.ksrcon 0#16).wellFormed = false := by decide
theorem test_illFormed_ksxorp : (Instr.ksxorp 0#16).wellFormed = false := by decide
theorem test_illFormed_ksstore : (Instr.ksstore 0#16).wellFormed = false := by decide

/-! ### Decoding: the words of V86, V87 and V88 -/

theorem test_word_construct : decode 0x010000A0#32 = .ok (.construct 160#16) := by decide
theorem test_word_construct_max : decode 0x0100FFFF#32 = .ok (.construct 65535#16) := by decide
theorem test_word_encrypt : decode 0x02000000#32 = .ok .encrypt := by decide
theorem test_word_decrypt : decode 0x03000000#32 = .ok .decrypt := by decide
theorem test_word_release : decode 0x04000000#32 = .ok .release := by decide
theorem test_word_keyexpand : decode 0x10000000#32 = .ok .keyexpand := by decide
theorem test_word_blockenc : decode 0x11000000#32 = .ok .blockenc := by decide
theorem test_word_ctrinit : decode 0x12000000#32 = .ok .ctrinit := by decide
theorem test_word_encctr : decode 0x13000000#32 = .ok .encctr := by decide
theorem test_word_ksxor : decode 0x14000000#32 = .ok .ksxor := by decide
theorem test_word_incctr : decode 0x15000000#32 = .ok .incctr := by decide
theorem test_word_ldst : decode 0x20000001#32 = .ok (.ldst 1#16) := by decide
theorem test_word_stst : decode 0x21000000#32 = .ok (.stst 0#16) := by decide
theorem test_word_addkey : decode 0x220000A0#32 = .ok (.addkey 160#16) := by decide
theorem test_word_subbytes : decode 0x23000000#32 = .ok .subbytes := by decide
theorem test_word_permute : decode 0x24000000#32 = .ok .permute := by decide
theorem test_word_mixcol : decode 0x25000000#32 = .ok .mixcol := by decide
theorem test_word_rotl : decode 0x26000008#32 = .ok (.rotl 8#16) := by decide
theorem test_word_xormask : decode 0x27000007#32 = .ok (.xormask 7#16) := by decide
theorem test_word_rdt : decode 0x2800009F#32 = .ok (.rdt 159#16) := by decide
theorem test_word_ksinit : decode 0x30000000#32 = .ok .ksinit := by decide
theorem test_word_ksload : decode 0x31000001#32 = .ok (.ksload 1#16) := by decide
theorem test_word_ksrot3 : decode 0x32000000#32 = .ok .ksrot3 := by decide
theorem test_word_kssub4 : decode 0x33000000#32 = .ok .kssub4 := by decide
theorem test_word_ksrcon : decode 0x340000A0#32 = .ok (.ksrcon 160#16) := by decide
theorem test_word_ksxorp : decode 0x35000002#32 = .ok (.ksxorp 2#16) := by decide
theorem test_word_ksstore : decode 0x360000A0#32 = .ok (.ksstore 160#16) := by decide

/-- The reserved opcodes that V89 lists. -/
theorem test_reserved_opcodes :
    [0x00000000#32, 0x05000000#32, 0x0F000000#32, 0x16000000#32, 0x29000000#32, 0x37000000#32,
      0xFF000000#32].all (fun w => decode w == .error .reservedOpcode) = true := by decide

/-- The other ill-formed words that V89 lists. -/
theorem test_ill_formed_words :
    decode 0x02010000#32 = .error .zeroField ∧ decode 0x02000001#32 = .error .immediate ∧
      decode 0x01000000#32 = .error .immediate ∧ decode 0x20000002#32 = .error .immediate := by
  decide

theorem test_decodeTableWord : decodeTableWord 32 0x220000A0 = some (.addkey 160#16) := by decide

/-! ### Small states -/

/-- The test S-box of 95_test_vectors.md section 2. -/
def sboxT : Block := tab fun i => BitVec.ofNat 8 (7 * i.val + 99)

/-- The buffer that is zero except for one byte. -/
def byteBlock (k : Fin 256) (v : Byte) : Block := tab fun i => if i = k then v else 0#8

/-- A buffer with one value in every place. -/
def fill (v : Byte) : Block := tab fun _ => v

/-- A state with a context under `SBOX_T` and the given round count, whose next word comes from the
sequencer. -/
def seqState (rounds : BitVec 16) : State :=
  { State.reset with
    ctx :=
      { sbox := sboxT, invsbox := zeroBlock, perm := buildPerm, rounds := rounds, valid := true }
    ports := { State.reset.ports with issuer := .seq } }

/-- The same state, whose next command comes from the host. -/
def hostState (rounds : BitVec 16) : State :=
  { seqState rounds with ports := State.reset.ports }

/-- What `f` sees in the next state. -/
def view {α : Type} (r : Res) (f : State → α) : Option α :=
  match r with
  | .next s => some (f s)
  | _ => none

/-! ### The key schedule (V10 to V13) -/

theorem test_ksrot3 : view (exec .ksrot3 ((seqState 1#16).setT (byteBlock 0 0xAA#8)))
    (fun s => (s.keys.t[253], s.keys.t[0])) = some (0xAA#8, 0#8) := by decide +kernel

theorem test_kssub4 : view (exec .kssub4 ((seqState 1#16).setT identityBlock))
    (fun s => (s.keys.t[4], s.keys.t[5])) = some (0x7F#8, 5#8) := by decide +kernel

theorem test_ksrcon : view (exec (.ksrcon 160#16) ((seqState 160#16).setT (fill 0x63#8)))
    (fun s => (s.keys.t[0], s.keys.t[1])) = some (0xC3#8, 0x63#8) := by decide +kernel

theorem test_ksrcon_period : view (exec (.ksrcon 257#16) ((seqState 300#16).setT (fill 0x63#8)))
    (fun s => s.keys.t[0]) = some 0x62#8 := by decide +kernel

theorem test_ksxorp :
    view (exec (.ksxorp 1#16) (((seqState 1#16).setT (fill 0xFF#8)).setRk [(0, identityBlock)]))
      (fun s => s.keys.t[3]) = some 0xFC#8 := by decide +kernel

theorem test_ksload : view (exec (.ksload 2#16) ((seqState 2#16).setRk [(1, identityBlock)]))
    (fun s => s.keys.t[7]) = some 7#8 := by decide +kernel

theorem test_ksstore : view (exec (.ksstore 2#16) ((seqState 2#16).setT identityBlock))
    (fun s => (s.byteAt .rk 519, s.byteAt .rk 511)) = some (some 7#8, none) := by decide +kernel

theorem test_ksinit_unwritten :
    exec .ksinit (seqState 1#16) = .refused .operandByteNeverWritten := by rfl

/-! ### The block primitive (V20 to V37) -/

theorem test_subbytes : view (exec .subbytes ((seqState 1#16).setSt identityBlock))
    (fun s => s.blk.st[3]) = some 0x78#8 := by decide +kernel

theorem test_permute : view (exec .permute ((seqState 1#16).setSt identityBlock))
    (fun s => s.blk.st[16]) = some 0x11#8 := by decide +kernel

theorem test_mixcol : view (exec .mixcol ((seqState 1#16).setSt (byteBlock 21 0xA7#8)))
    (fun s => s.blk.st[20]) = some 0x3D#8 := by decide +kernel

theorem test_rotl_carry : view (exec (.rotl 1#16) ((seqState 1#16).setSt (byteBlock 255 0x80#8)))
    (fun s => s.blk.st[0]) = some 1#8 := by decide +kernel

theorem test_rotl_byte : view (exec (.rotl 8#16) ((seqState 1#16).setSt identityBlock))
    (fun s => (s.blk.st[0], s.blk.st[1])) = some (0xFF#8, 0#8) := by decide +kernel

theorem test_xormask : view (exec (.xormask 1#16) (seqState 1#16))
    (fun s => (s.blk.st[0], s.blk.st[255])) = some (0x64#8, 0x63#8) := by decide +kernel

theorem test_rdt : view (exec (.rdt 7#16) (seqState 1#16))
    (fun s => s.blk.st[0]) = some 0xCA#8 := by decide +kernel

theorem test_addkey :
    view (exec (.addkey 1#16) (((seqState 1#16).setSt identityBlock).setRk [(1, fill 0xFF#8)]))
      (fun s => s.blk.st[5]) = some 0xFA#8 := by decide +kernel

theorem test_ldst : view (exec (.ldst 1#16) ((seqState 1#16).setCnt identityBlock))
    (fun s => s.blk.st[9]) = some 9#8 := by decide +kernel

theorem test_stst : view (exec (.stst 1#16) ((seqState 1#16).setSt identityBlock))
    (fun s => s.ctr.ks[9]) = some 9#8 := by decide +kernel

/-! ### The CTR driver (V51 to V56) -/

theorem test_incctr : view (exec .incctr ((seqState 1#16).setCnt (byteBlock 255 0xFF#8)))
    (fun s => (s.ctr.cnt[254], s.ctr.cnt[255])) = some (1#8, 0#8) := by decide +kernel

theorem test_incctr_wrap : view (exec .incctr ((seqState 1#16).setCnt (fill 0xFF#8)))
    (fun s => (s.ctr.cnt[31], s.ctr.cnt[32])) = some (0xFF#8, 0#8) := by decide +kernel

/-- V56: one byte is left. -/
theorem test_ksxor :
    view (exec .ksxor
        { ((seqState 1#16).setKs (fill 0x9A#8)).setP 256 with
          ops := { State.reset.ops with
            din := [(256, 0x0F#8)], dinDesc := { written := true, len := 257 } } })
      (fun s => (s.out.dout, s.seq.n, s.seq.p)) = some ([(256, 0x95#8)], 1, 257) := by
  decide +kernel

/-! ### Commands and their `STATUS` (V4 and V70 to V84) -/

theorem test_construct_status :
    view (exec (.construct 160#16) State.reset) (fun s => (s.status, s.ctx.rounds))
      = some (0x00000001#32, 160#16) := by decide +kernel

theorem test_construct_twice :
    view (exec (.construct 160#16) (hostState 1#16)) State.status = some 0x000000F1#32 := by
  decide +kernel

theorem test_encrypt_before_construct :
    view (exec .encrypt State.reset) State.status = some 0x000000F0#32 := by decide +kernel

/-- V72: a key of 255 bytes. -/
theorem test_encrypt_bad_key :
    view (exec .encrypt { hostState 1#16 with
        ops := { State.reset.ops with
          keyDesc := { written := true, present := true, len := 255 }
          ivDesc := { written := true, present := true, len := 32 }
          dinDesc := { written := true, len := 0 } } })
      State.status = some 0x00000011#32 := by decide +kernel

/-- V75: an IV of 31 bytes. -/
theorem test_decrypt_bad_iv :
    view (exec .decrypt { hostState 1#16 with
        ops := { State.reset.ops with
          keyDesc := { written := true, present := true, len := 256 }
          ivDesc := { written := true, present := true, len := 31 }
          dinDesc := { written := true, len := 0 } } })
      State.status = some 0x00000021#32 := by decide +kernel

/-- V78: KEYEXPAND with a key of 255 bytes. -/
theorem test_keyexpand_bad_key :
    view (exec .keyexpand { hostState 1#16 with
        ops := { State.reset.ops with
          keyDesc := { written := true, present := true, len := 255 } } })
      State.status = some 0x00000011#32 := by decide +kernel

/-- V79: BLOCKENC without round keys. -/
theorem test_blockenc_no_keys :
    view (exec .blockenc (hostState 1#16)) State.status = some 0x000000F1#32 := by decide +kernel

/-- V80: BLOCKENC on 255 bytes. -/
theorem test_blockenc_bad_length :
    view (exec .blockenc { (hostState 1#16).setKeysValid true with
        ops := { State.reset.ops with dinDesc := { written := true, len := 255 } } })
      State.status = some 0x00000033#32 := by decide +kernel

/-- V84. -/
theorem test_release :
    view (exec .release ((hostState 1#16).setKeysValid true)) State.status
      = some 0x00000001#32 := by decide +kernel

theorem test_seq_only_from_host :
    view (exec .ctrinit (hostState 1#16)) State.status = some 0x000000F1#32 := by decide +kernel

/-- A word placed for the next step is the word that step runs. -/
theorem test_step_construct :
    view (step (State.reset.withFetchWord 32 0x010000A0)) State.status = some 1#32 := by
  decide +kernel

theorem test_step_sequencer_word :
    view (step ((hostState 1#16).withFetchWord 32 0x15000000)) (fun s => s.ctr.cnt[255])
      = some 1#8 := by decide +kernel

theorem test_reset_status : State.reset.status = 0#32 := by decide

/-! ### States that meet the hypotheses of the obligations -/

/-- The bytes of a list from index 0 on. -/
def held (l : List Byte) : Memory := Memory.writeBytes [] 0 l

theorem byte?_held (l : List Byte) (x : Nat) : Memory.byte? (held l) x = l[x]? := by
  rw [held, Memory.byte?_writeBytes, Memory.byte?_nil]
  by_cases h : x < l.length
  · rw [if_pos (by omega), Nat.sub_zero]
  · rw [if_neg (by omega), List.getElem?_eq_none (by omega)]

theorem wf_held (l : List Byte) : Memory.wf (held l) := Memory.wf_writeBytes Store.wf_nil 0 l

/-- The round keys of the witness state. -/
def wKeys (r : Nat) : Block := if r = 0 then zeroBlock else identityBlock

/-- The IV of the witness state. -/
def wIv : Vector Byte 32 := tab fun j => BitVec.ofNat 8 j.val

/-- A command boundary in the middle of a session: a context with `R = 1`, expanded keys, all operands in
place, and a readable result. -/
def wHost : State :=
  { State.reset with
    ctx :=
      { sbox := identityBlock, invsbox := identityBlock, perm := buildPerm, rounds := 1#16
        valid := true }
    keys := { rk := [(0, zeroBlock), (1, identityBlock)], valid := true, t := zeroBlock }
    ops :=
      { key := held identityBlock.toList, iv := held wIv.toList, din := held identityBlock.toList
        keyDesc := { written := true, present := true, len := 256 }
        ivDesc := { written := true, present := true, len := 32 }
        dinDesc := { written := true, len := 256 } }
    out := { dout := held identityBlock.toList, len := 256, valid := true } }

/-- The same state with a word from the sequencer in execution. -/
def wSeq : State := { wHost with ports := { State.reset.ports with issuer := .seq } }

/-- The same state with actions of the host to come. -/
def wActions (l : List HostAction) : State :=
  { wHost with ports := { State.reset.ports with hostActions := l } }

theorem identity_bijective :
    Function.Bijective fun b : Byte => identityBlock[b.toNat]'b.isLt := by
  have h : (fun b : Byte => identityBlock[b.toNat]'b.isLt) = id := by
    funext b
    rw [getElem_identityBlock]
    exact BitVec.ofNat_toNat _ b |>.trans (by simp)
  rw [h]
  exact Function.bijective_id

theorem buildPerm_bijective : Function.Bijective fun b : Byte => buildPerm[b.toNat]'b.isLt := by
  rw [← Finite.injective_iff_bijective]
  intro a b h
  have := buildPerm_injective ⟨a.toNat, a.isLt⟩ ⟨b.toNat, b.isLt⟩ h
  exact BitVec.eq_of_toNat_eq (congrArg Fin.val this)

theorem wContext {s : State} (h : s.ctx = wHost.ctx) : ContextInv s where
  sbox _ := by simpa only [h, wHost] using identity_bijective
  invsbox _ b := by simp only [h, wHost, getElem_identityBlock]; simp
  perm _ := by simpa only [h, wHost] using buildPerm_bijective
  permTable _ q := by
    simp only [h, wHost, Fin.getElem_fin, getElem_buildPerm, BitVec.toNat_ofNat]
    omega
  rounds _ := by rw [h]; decide

theorem wBoundary (l : List HostAction) : BoundaryInv (wActions l) where
  idle := rfl
  context := wContext rfl
  memory := ⟨wf_held _, wf_held _, wf_held _, wf_held _, by simp [wActions, wHost, Store.wf]⟩
  keysNeedContext _ := rfl
  roundKeys r := by
    have hR : (wActions l).ctx.rounds.toNat = 1 := rfl
    have hv : (wActions l).keys.valid = true := rfl
    have hrk : (wActions l).keys.rk = [(0, zeroBlock), (1, identityBlock)] := rfl
    rw [hR, hv, hrk]
    match r with
    | 0 => simp [Store.read]
    | 1 => simp [Store.read]
    | n + 2 => simp [Store.read]
  resultBytes _ q := by
    have hd : (wActions l).out.dout = held identityBlock.toList := rfl
    have hl : (wActions l).out.len = 256 := rfl
    rw [hd, hl, byte?_held]
    simp
  resultOfSuccess _ := rfl

theorem wKey (l : List HostAction) : KeySupplied (wActions l) identityBlock := by
  refine ⟨rfl, fun j => ?_⟩
  have : (wActions l).ops.key = held identityBlock.toList := rfl
  rw [this, byte?_held]
  simp

theorem wIvSupplied (l : List HostAction) : IvSupplied (wActions l) wIv := by
  refine ⟨rfl, fun j => ?_⟩
  have : (wActions l).ops.iv = held wIv.toList := rfl
  rw [this, byte?_held]
  simp

theorem wInput (l : List HostAction) : InputSupplied (wActions l) identityBlock.toList := by
  refine ⟨by simp [wActions, wHost], fun q _ => ?_⟩
  exact byte?_held _ _

theorem wRoundKeys : RoundKeysHeld wSeq wKeys := by
  intro r hr j
  have hR : wSeq.ctx.rounds.toNat = 1 := rfl
  have hrk : wSeq.keys.rk = [(0, zeroBlock), (1, identityBlock)] := rfl
  have hj := j.isLt
  have hd : (256 * r + j.val) / 256 = r := by omega
  have hm : (256 * r + j.val) % 256 = j.val := by omega
  simp only [State.byteAt, State.rkByte, hd, hm, hrk]
  rw [hR] at hr
  match r with
  | 0 => simp [Store.read, wKeys]
  | 1 => simp [Store.read, wKeys]
  | n + 2 => omega

theorem wOperands (l : List HostAction) : OperandsWritten (wActions l) := by
  have hk := (wKey l).2
  have hi := (wIvSupplied l).2
  have hd := (wInput l).2
  refine ⟨rfl, fun _ j hj => ?_, fun _ j hj => ?_, fun q hq => ?_⟩
  · have := hk ⟨j, hj⟩
    simp only at this
    rw [this]
    rfl
  · have := hi ⟨j, hj⟩
    simp only at this
    rw [this]
    rfl
  · have hl : (wActions l).ops.dinDesc.len = 256 := rfl
    rw [hd q (by simp; omega)]
    simp
    omega

/-! ### Witnesses, by obligation -/

theorem witness_DecodeOfEncode : (Instr.ksload 65535#16).wellFormed = true := by decide

theorem witness_IllegalWordsRaise :
    let s (w : Word32) := wActions [.writeReg 0 (.word w)]
    (∀ w, (s w).ports.seqWords = [] ∧
      (s w).ports.hostActions = .writeReg 0 (.word w) :: []) ∧
      IllegalWord 0x00000000#32 ∧ IllegalWord 0xFF000000#32 ∧ IllegalWord 0x23000000#32 ∧
      IllegalWord 0x02010000#32 ∧ IllegalWord 0x02000001#32 ∧ IllegalWord 0x01000000#32 ∧
      ¬ IllegalWord 0x01000001#32 ∧ ¬ IllegalWord 0x0100FFFF#32 ∧ ¬ IllegalWord 0x11000000#32 := by
  refine ⟨fun w => ⟨rfl, rfl⟩, ?_, ?_, ?_, ?_, ?_, ?_, ?_, ?_, ?_⟩ <;> unfold IllegalWord <;> decide

theorem witness_StepRunsHostCommand :
    let s := wActions [.writeReg 0 (.word 0x04000000#32)]
    s.ports.seqWords = [] ∧ s.ports.hostActions = [.writeReg 0 (.word 0x04000000#32)] ∧
      decode 0x04000000#32 = .ok .release := ⟨rfl, rfl, by decide⟩

theorem witness_StepRunsSequencerWord :
    let s (w : Word32) : State := { wHost with ports := { wHost.ports with seqWords := [w] } }
    (∀ w, (s w).ports.seqWords = [w]) ∧
      (decode 0x2600FFFF#32 = .ok (.rotl 0xFFFF#16) ∧ (Instr.rotl 0xFFFF#16).hostOnly = false) ∧
      (decode 0x02000000#32 = .ok .encrypt ∧ Instr.encrypt.hostOnly = true) ∧
      decode 0x31000000#32 = .error .immediate := ⟨fun _ => rfl, by decide⟩

theorem witness_StepRunsFetchWord :
    (decode 0x010000A0#32 = .ok (.construct 160#16) ∧
      (Instr.construct 160#16).seqOnly = false) ∧
    (decode 0x36000001#32 = .ok (.ksstore 1#16) ∧ (Instr.ksstore 1#16).seqOnly = true) := by
  decide

theorem witness_IdleKeepsState :
    State.reset.ports.seqWords = [] ∧ State.reset.ports.hostActions = [] := ⟨rfl, rfl⟩

theorem witness_StatusLayout :
    (wActions [.readReg 1]).ports.seqWords = [] ∧
      (wActions [.readReg 1]).ports.hostActions = [.readReg 1] := ⟨rfl, rfl⟩

theorem witness_ErrorsArePrecise :
    State.reset.ports.issuer = .host ∧
      exec .encrypt State.reset = .next (State.reset.raise .illegalCommand) ∧
      (State.reset.raise .illegalCommand).err = some .illegalCommand := ⟨rfl, rfl, rfl⟩

theorem witness_ResetEvent :
    (wActions [.reset]).ports.seqWords = [] ∧
      (wActions [.reset]).ports.hostActions = [.reset] := ⟨rfl, rfl⟩

theorem witness_ConstructRule :
    wHost.ctx.valid = true ∧ State.reset.ctx.valid = false ∧ (1#16 ≠ 0#16) ∧ 65535#16 ≠ 0#16 :=
  ⟨rfl, rfl, by decide, by decide⟩

theorem witness_InverseTable :
    Function.Bijective fun b : Byte => identityBlock[b.toNat]'b.isLt := identity_bijective

theorem witness_ShuffleIsPermutation :
    ∀ i, 1 ≤ i → i ≤ 255 → (fun i : Nat => i - 1) i ≤ i := fun i _ _ => Nat.sub_le i 1

theorem witness_ContextInvKept : ContextInv wHost ∧ step wHost = .next wHost :=
  ⟨wContext rfl, rfl⟩

theorem witness_ContextIsImmutable : wHost.ctx.valid = true ∧ step wHost = .next wHost :=
  ⟨rfl, rfl⟩

theorem wSeq_byte_key (j : Fin 256) : wSeq.byteAt .key j.val = some identityBlock[j] :=
  (wKey []).2 j

theorem wSeq_byte_din (j : Fin 256) : wSeq.byteAt .din j.val = some identityBlock[j] := by
  have h := (wInput []).2 j.val (by simp)
  have h' : wSeq.byteAt .din j.val = identityBlock.toList[j.val]? := h
  rw [h']
  simp

theorem witness_KsinitRule : wSeq.ports.issuer = .seq ∧
    ∀ j : Fin 256, wSeq.byteAt .key j.val = some identityBlock[j] := ⟨rfl, wSeq_byte_key⟩

theorem witness_KsloadRule : wSeq.ports.issuer = .seq ∧ 1 ≤ (1#16).toNat ∧
    (1#16).toNat ≤ wSeq.ctx.rounds.toNat ∧
    ∀ j : Fin 256, wSeq.byteAt .rk (256 * ((1#16).toNat - 1) + j.val) = some (wKeys 0)[j] :=
  ⟨rfl, by decide, by decide, fun j => wRoundKeys 0 (by decide) j⟩

theorem witness_Ksrot3Rule : wSeq.ports.issuer = .seq := rfl

theorem witness_KsstoreRule : wSeq.ports.issuer = .seq ∧ 1 ≤ (1#16).toNat ∧
    (1#16).toNat ≤ wSeq.ctx.rounds.toNat := ⟨rfl, by decide, by decide⟩

theorem witness_KeyexpandRule :
    (State.reset.ports.issuer = .host ∧ State.reset.ctx.valid = false) ∧
    (wHost.ports.issuer = .host ∧ wHost.ctx.valid = true ∧ wHost.ops.keyDesc.written = true ∧
      KeySupplied wHost identityBlock) ∧
    (let s : State := { wHost with ops := { wHost.ops with
        keyDesc := { written := true, present := false, len := 256 } } };
      s.ops.keyDesc.written = true ∧ s.ops.keyDesc.present = false) ∧
    (let s : State := { wHost with ops := { wHost.ops with
        keyDesc := { written := true, present := true, len := 257 } } };
      s.ops.keyDesc.written = true ∧ s.ops.keyDesc.len ≠ 256) :=
  ⟨⟨rfl, rfl⟩, ⟨rfl, rfl, rfl, wKey []⟩, ⟨rfl, rfl⟩, rfl, by decide⟩

theorem witness_LdstRule : wSeq.ports.issuer = .seq ∧
    ∀ i : Fin 256, wSeq.byteAt .din i.val = some identityBlock[i] := ⟨rfl, wSeq_byte_din⟩

/-- Both ends of the range of round-key indices. -/
theorem witness_AddkeyRule : wSeq.ports.issuer = .seq ∧
    ((0#16).toNat ≤ wSeq.ctx.rounds.toNat ∧
      ∀ i : Fin 256, wSeq.byteAt .rk (256 * (0#16).toNat + i.val) = some (wKeys 0)[i]) ∧
    (1#16).toNat ≤ wSeq.ctx.rounds.toNat ∧
      ∀ i : Fin 256, wSeq.byteAt .rk (256 * (1#16).toNat + i.val) = some (wKeys 1)[i] :=
  ⟨rfl, ⟨by decide, fun i => wRoundKeys 0 (by decide) i⟩, by decide,
    fun i => wRoundKeys 1 (by decide) i⟩

/-- The three cases of a rotation amount, at their ends. -/
theorem witness_RotlRule : wSeq.ports.issuer = .seq ∧ (2048#16).toNat % 2048 = 0 ∧
    (2040#16).toNat % 8 = 0 ∧ (65535#16).toNat % 8 ≠ 0 := ⟨rfl, by decide, by decide, by decide⟩

/-- The clauses for a `PERM` that is no bijection: every entry 0, so that index 255 is the last that points
to place 0 and none points to place 1. -/
theorem witness_PermuteRule_scatter :
    let s : State := { State.reset with ports := { State.reset.ports with issuer := .seq } }
    s.ports.issuer = .seq ∧
      (∀ j : Fin 256, (255 : Fin 256) < j → s.ctx.perm[j] ≠ s.ctx.perm[(255 : Fin 256)]) ∧
      ∀ i : Fin 256, (s.ctx.perm[i]).toNat ≠ (1 : Fin 256).val := by
  refine ⟨rfl, fun j hj => absurd hj (by omega), fun i => ?_⟩
  have h : (State.reset.ctx.perm)[i] = 0#8 := getElem_tab_fin _ i
  simp only [h]
  decide

theorem witness_PermuteRule : wSeq.ports.issuer = .seq ∧
    ∀ q : Fin 256, (wSeq.ctx.perm[q]).toNat =
      16 * (q.val / 16) + (q.val % 16 + 16 - q.val / 16) % 16 :=
  ⟨rfl, (wContext (s := wSeq) rfl).permTable rfl⟩

theorem witness_BlockencRule :
    (ContextInv wHost ∧ wHost.ctx.valid = true ∧ wHost.keys.valid = true ∧
      RoundKeysHeld wHost wKeys ∧ InputSupplied wHost identityBlock.toList) ∧
    State.reset.ctx.valid = false ∧
    (let s : State := { wHost with ops := { wHost.ops with
        dinDesc := { written := true, len := 255 } } };
      s.ctx.valid = true ∧ s.keys.valid = true ∧ s.ops.dinDesc.written = true ∧
        s.ops.dinDesc.len ≠ 256) :=
  ⟨⟨wContext rfl, rfl, rfl, wRoundKeys, wInput []⟩, rfl, rfl, rfl, rfl, by decide⟩

theorem witness_CtrinitRule : wSeq.ports.issuer = .seq ∧
    ∀ j : Fin 32, wSeq.byteAt .iv j.val = some wIv[j] := ⟨rfl, (wIvSupplied []).2⟩

theorem witness_EncctrRule : wSeq.ports.issuer = .seq ∧ ContextInv wSeq ∧
    wSeq.ctx.valid = true ∧ RoundKeysHeld wSeq wKeys := ⟨rfl, wContext rfl, rfl, wRoundKeys⟩

/-- The first position of the input, the position behind its last byte, and the register as reset left it. -/
theorem witness_KsxorRule :
    (wSeq.ports.issuer = .seq ∧
      wSeq.seq.p ≤ wSeq.ops.dinDesc.len ∧
      ∀ j, j < min 256 (wSeq.ops.dinDesc.len - wSeq.seq.p) →
        (wSeq.byteAt .din (wSeq.seq.p + j)).isSome = true) ∧
    (let s := wSeq.setP 256;
      s.seq.p ≤ s.ops.dinDesc.len ∧ min 256 (s.ops.dinDesc.len - s.seq.p) = 0) ∧
    (State.reset.seq.p ≤ State.reset.ops.dinDesc.len ∧
      min 256 (State.reset.ops.dinDesc.len - State.reset.seq.p) = 0) := by
  refine ⟨⟨rfl, by decide, fun j hj => ?_⟩, by decide, by decide⟩
  have hp : wSeq.seq.p = 0 := rfl
  have hl : wSeq.ops.dinDesc.len = 256 := rfl
  rw [hp, hl] at hj
  have := wSeq_byte_din ⟨j, by omega⟩
  rw [hp, Nat.zero_add]
  simp only at this
  rw [this]
  rfl

theorem witness_IncctrRule :
    (wSeq.setCnt (fill 0xFF#8)).ports.issuer = .seq ∧
      ∀ j : Fin 256, 32 ≤ j.val → (wSeq.setCnt (fill 0xFF#8)).ctr.cnt[j] = 0xFF#8 :=
  ⟨rfl, fun j _ => getElem_tab_fin _ j⟩

theorem witness_CallResult : ContextInv wHost ∧ wHost.ctx.valid = true ∧
    KeySupplied wHost identityBlock ∧ IvSupplied wHost wIv ∧
    InputSupplied wHost identityBlock.toList :=
  ⟨wContext rfl, rfl, wKey [], wIvSupplied [], wInput []⟩

/-- The shortest input. -/
theorem witness_CallResult_empty :
    InputSupplied { wHost with ops := { wHost.ops with
      dinDesc := { written := true, len := 0 } } } [] :=
  ⟨rfl, fun _ h => absurd h (Nat.not_lt_zero _)⟩

theorem witness_CallErrors :
    State.reset.ctx.valid = false ∧
    (let s (k i : Nat) : State := { wHost with ops := { wHost.ops with
        keyDesc := { written := true, present := true, len := k }
        ivDesc := { written := true, present := true, len := i } } };
      (∀ k i, (s k i).ctx.valid = true ∧ (s k i).ops.keyDesc.written = true ∧
        (s k i).ops.ivDesc.written = true ∧ (s k i).ops.dinDesc.written = true ∧
        (s k i).ops.keyDesc.present = true ∧ (s k i).ops.ivDesc.present = true) ∧
      ((s 255 32).ops.keyDesc.len ≠ 256 ∧ (s 255 32).ops.ivDesc.len = 32) ∧
      ((s 256 33).ops.keyDesc.len = 256 ∧ (s 256 33).ops.ivDesc.len ≠ 32) ∧
      ((s 32 256).ops.keyDesc.len ≠ 256 ∧ (s 32 256).ops.ivDesc.len ≠ 32)) :=
  ⟨rfl, fun _ _ => ⟨rfl, rfl, rfl, rfl, rfl, rfl⟩, by decide, by decide, by decide⟩

theorem witness_ReleaseRule :
    (State.reset.ports.issuer = .host ∧ State.reset.ctx.valid = false) ∧
    (wHost.ports.issuer = .host ∧ wHost.ctx.valid = true ∧
      exec .release wHost = .next wHost.discard.complete) ∧ wSeq.ports.issuer = .seq :=
  ⟨⟨rfl, rfl⟩, ⟨rfl, rfl, rfl⟩, rfl⟩

theorem witness_HostReads :
    (∀ l, (wActions l).ports.seqWords = [] ∧ (wActions l).ports.hostActions = l ∧
      BoundaryInv (wActions l) ∧ (wActions l).out.valid = true ∧
      0 + 256 ≤ (wActions l).out.len ∧ 256 + 0 ≤ (wActions l).out.len ∧
      (wActions l).out.len < 1 + 256) ∧ State.reset.out.valid = false :=
  ⟨fun l => ⟨rfl, rfl, wBoundary l, rfl, by simp [wActions, wHost], by simp [wActions, wHost],
    by simp [wActions, wHost]⟩, rfl⟩

theorem witness_HostWrites (l : List HostAction) :
    (wActions l).ports.seqWords = [] ∧ (wActions l).ports.hostActions = l ∧
      (1 ∉ [0, 2, 3, 4]) ∧ (5 ∉ [0, 2, 3, 4]) ∧ (7 ∉ [0, 2, 3, 4]) ∧
      (∀ w, RegData.length 0 ≠ .word w) ∧ (∀ p n, RegData.length 0 ≠ .desc p n) ∧
      (∀ n, RegData.desc true 0 ≠ .length n) ∧
      Space.din ∈ [Space.key, .iv, .din] ∧ Space.dout ∉ [Space.key, .iv, .din] :=
  ⟨rfl, rfl, by decide, by decide, by decide, nofun, nofun, nofun, by decide, by decide⟩

theorem witness_UnwrittenOperandsRefused :
    wHost.ports.issuer = .host ∧
    (let s : State := { wHost with ops := State.reset.ops };
      s.ctx.valid = true ∧ s.keys.valid = true ∧ s.ops.keyDesc.written = false ∧
        s.ops.ivDesc.written = false ∧ s.ops.dinDesc.written = false) ∧
    (let s : State := { wHost with ops := { wHost.ops with key := [], iv := [], din := [] } };
      s.ops.keyDesc = { written := true, present := true, len := 256 } ∧
        s.byteAt .key 255 = none ∧ s.ops.dinDesc = { written := true, len := 256 } ∧
        s.byteAt .din 255 = none ∧ s.byteAt .iv 31 = none ∧
        s.callDescriptorsWritten = true ∧ s.keyBad = false ∧ s.ivBad = false) :=
  ⟨rfl, ⟨rfl, rfl, rfl, rfl, rfl⟩, rfl, rfl, rfl, rfl, rfl, rfl, rfl, rfl⟩

theorem witness_CommandsKeepOperands : exec .subbytes wSeq = .next wSeq.subBytes := rfl

theorem witness_OutValidMeansResult : wHost.ports.issuer = .host ∧
    exec .release wHost = .next wHost.discard.complete := ⟨rfl, rfl⟩

theorem witness_IndexStops :
    wSeq.ports.issuer = .seq ∧ wSeq.ctx.rounds.toNat < (2#16).toNat ∧
    (let s := wSeq.setRk [];
      s.ports.issuer = .seq ∧ (1#16).toNat ≤ s.ctx.rounds.toNat ∧ 1 ≤ (1#16).toNat ∧
        s.byteAt .rk (256 * (1#16).toNat) = none ∧
        s.byteAt .rk (256 * ((1#16).toNat - 1)) = none) ∧
      (wSeq.setP 257).ops.dinDesc.len < (wSeq.setP 257).seq.p :=
  ⟨rfl, by decide, ⟨rfl, by decide, by decide, rfl, rfl⟩, by decide⟩

theorem witness_MemoryInvKept : MemoryInv wHost ∧ step wHost = .next wHost :=
  ⟨(wBoundary []).memory, rfl⟩

theorem witness_BoundaryInvKept : BoundaryInv wHost ∧ step wHost = .next wHost :=
  ⟨wBoundary [], rfl⟩

theorem witness_HostStepsNeverFault : wHost.ports.seqWords = [] := rfl

theorem witness_HostCommandsComplete :
    BoundaryInv (wActions [.writeReg 0 (.word 0x11000000#32)]) ∧
      OperandsWritten (wActions [.writeReg 0 (.word 0x11000000#32)]) ∧
      (wActions [.writeReg 0 (.word 0x11000000#32)]).ports.hostActions
        = [.writeReg 0 (.word 0x11000000#32)] := ⟨wBoundary _, wOperands _, rfl⟩

/-- Two states that differ in the state buffer. -/
theorem witness_ResidueIsUnobservable :
    let l : List HostAction := [.writeReg 0 (.word 0x11000000#32)]
    let t := (wActions l).setSt (fill 0x55#8)
    BoundaryInv (wActions l) ∧ BoundaryInv t ∧ hideResidue (wActions l) = hideResidue t := by
  intro l t
  have h := wBoundary l
  exact ⟨h, ⟨h.idle, wContext rfl, ⟨h.memory.key, h.memory.iv, h.memory.din, h.memory.dout,
    h.memory.rk⟩, h.keysNeedContext, h.roundKeys, h.resultBytes, h.resultOfSuccess⟩, rfl⟩

theorem witness_EncodeOfDecode : decode 0x220000A0#32 = .ok (.addkey 160#16) := by decide

theorem witness_Kssub4Rule : wSeq.ports.issuer = .seq := rfl

theorem witness_KsrconRule : wSeq.ports.issuer = .seq ∧ 1 ≤ (1#16).toNat ∧
    (1#16).toNat ≤ wSeq.ctx.rounds.toNat := ⟨rfl, by decide, by decide⟩

theorem witness_KsxorpRule : wSeq.ports.issuer = .seq ∧ 1 ≤ (1#16).toNat ∧
    (1#16).toNat ≤ wSeq.ctx.rounds.toNat ∧
    ∀ j : Fin 256, wSeq.byteAt .rk (256 * ((1#16).toNat - 1) + j.val) = some (wKeys 0)[j] :=
  witness_KsloadRule

theorem witness_KeyexpandIsItsProgram : wSeq.ports.issuer = .seq ∧
    ∀ j : Fin 256, wSeq.byteAt .key j.val = some identityBlock[j] := witness_KsinitRule

theorem witness_StstRule : wSeq.ports.issuer = .seq := rfl

theorem witness_SubbytesRule : wSeq.ports.issuer = .seq := rfl

theorem witness_MixcolRule : wSeq.ports.issuer = .seq := rfl

theorem witness_XormaskRule : wSeq.ports.issuer = .seq := rfl

theorem witness_RdtRule : wSeq.ports.issuer = .seq := rfl

theorem witness_RotationIsIntegerRotation : 1 ≤ 1 ∧ 1 ≤ 256 := by decide

theorem witness_EncctrIsItsProgram : wSeq.ports.issuer = .seq := rfl

theorem witness_CallIsItsProgram : ContextInv wHost ∧ wHost.ctx.valid = true ∧
    KeySupplied wHost identityBlock ∧ IvSupplied wHost wIv ∧
    InputSupplied wHost identityBlock.toList := witness_CallResult

/-- A call on 256 bytes, and a second state whose input is what the call left. -/
theorem witness_DecryptUndoesEncrypt :
    ∃ (t u : State) (cipher : List Byte), ContextInv wHost ∧ wHost.ctx.valid = true ∧
      KeySupplied wHost identityBlock ∧ IvSupplied wHost wIv ∧
      InputSupplied wHost identityBlock.toList ∧ exec .encrypt wHost = .next t ∧
      (∀ q, t.byteAt .dout q = cipher[q]?) ∧ u.ctx = wHost.ctx ∧
      KeySupplied u identityBlock ∧ IvSupplied u wIv ∧ InputSupplied u cipher := by
  have hlen : wHost.ops.dinDesc.len = 256 := rfl
  have hkey : Memory.readBytes wHost.ops.key 0 256 = some identityBlock.toList := by
    rw [Memory.readBytes_eq_some]
    refine ⟨by simp, fun j _ => ?_⟩
    rw [Nat.zero_add]
    exact byte?_held _ _
  have hiv : Memory.readBytes wHost.ops.iv 0 32 = some wIv.toList := by
    rw [Memory.readBytes_eq_some]
    refine ⟨by simp, fun j _ => ?_⟩
    rw [Nat.zero_add]
    exact byte?_held _ _
  have hdin : ∀ q, q < wHost.ops.dinDesc.len → (Memory.byte? wHost.ops.din q).isSome := by
    intro q hq
    have hb : Memory.byte? wHost.ops.din q = identityBlock.toList[q]? := byte?_held _ _
    rw [hb]
    simp
    omega
  obtain ⟨t, ht, hdone⟩ := ctrProcedure_eq hkey hiv rfl hdin
  let ks (q : Nat) : Byte := (Reference.encryptBlock wHost.ctx.sbox
    (Reference.roundKey wHost.ctx.sbox identityBlock) wHost.ctx.rounds.toNat
    (Reference.counterBlock wIv (q / 256)))[q % 256]'(Nat.mod_lt _ (by decide))
  let cipher : List Byte := (List.range 256).map fun q => identityBlock[q % 256] ^^^ ks q
  refine ⟨t.completeWithResult 256,
    { wHost with ops := { wHost.ops with din := held cipher } }, cipher, wContext rfl, rfl, wKey [],
    wIvSupplied [], wInput [], ?_, fun q => ?_, rfl, wKey [], wIvSupplied [], ?_, fun q _ => ?_⟩
  · show wHost.ctrCall = _
    have hv : wHost.validate = none := rfl
    rw [State.ctrCall, if_neg (by decide), if_neg (by decide), hv]
    simp only [ht, andThen_next]
    rfl
  · show Memory.byte? t.out.dout q = _
    rw [hdone q, hlen]
    by_cases hq : q < 256
    · have hb : Memory.byte? wHost.ops.din q = some identityBlock[q] := by
        have hb : Memory.byte? wHost.ops.din q = identityBlock.toList[q]? := byte?_held _ _
        rw [hb]
        simp [hq]
      rw [if_pos hq, hb]
      have hm : q % 256 = q := Nat.mod_eq_of_lt hq
      simp only [cipher, ks, Option.map_some, List.getElem?_map, List.getElem?_range hq, hm]
    · rw [if_neg hq, List.getElem?_eq_none (by simp [cipher]; omega)]
  · simp [cipher, wHost]
  · exact byte?_held _ _

/-- The last clause: a call that answers with both lengths right. -/
theorem witness_CallErrors_none : wHost.ctx.valid = true ∧ wHost.callDescriptorsWritten = true ∧
    wHost.keyBad = false ∧ wHost.ivBad = false ∧ ∃ t, exec .encrypt wHost = .next t :=
  let ⟨t, _, _, _, _, _, _, _, ht, _⟩ := witness_DecryptUndoesEncrypt
  ⟨rfl, rfl, rfl, rfl, t, ht⟩

end Sys2Proof.Tests
end

section
/-! SUPPORT. What an operation that answers has done, and what a step has done: one inversion lemma for
`exec` and one for `step`. The statements about what every operation and every step keeps are read off the
cases of these two lemmas, with no second walk through the branches of `exec` and `step`. -/

namespace Sys2Proof.Machine

open Sys2Proof.Safety

/-! ### What every operation but CONSTRUCT leaves: the context and what the host owns -/

/-- `t` has the context, the host's operands and the ports of `s`. -/
structure FrameHost (s t : State) : Prop where
  ctx : t.ctx = s.ctx
  ops : t.ops = s.ops
  ports : t.ports = s.ports

theorem FrameKeys.toHost {s t : State} (h : FrameKeys s t) : FrameHost s t :=
  ⟨h.ctx, h.ops, h.ports⟩

theorem FrameCtr.toHost {s t : State} (h : FrameCtr s t) : FrameHost s t :=
  ⟨h.ctx, h.ops, h.ports⟩

theorem FrameBlk.toHost {s t : State} (h : FrameBlk s t) : FrameHost s t :=
  h.toCtr.toHost

theorem ksInit_frame {s t : State} (h : s.ksInit = .next t) : FrameHost s t := by
  obtain ⟨_, _, h⟩ := withKey_eq_next.mp h
  cases h
  constructor <;> simp

theorem ksLoad_frame {s t : State} {w : Nat} (h : s.ksLoad w = .next t) : FrameHost s t := by
  obtain ⟨_, _, h⟩ := withIndex_eq_next.mp h
  obtain ⟨_, _, _, h⟩ := withWindow_eq_next.mp h
  cases h
  constructor <;> simp

theorem ksRcon_frame {s t : State} {w : Nat} (h : s.ksRcon w = .next t) : FrameHost s t := by
  obtain ⟨_, _, h⟩ := withIndex_eq_next.mp h
  cases h
  constructor <;> simp

theorem ksXorp_frame {s t : State} {w : Nat} (h : s.ksXorp w = .next t) : FrameHost s t := by
  obtain ⟨_, _, h⟩ := withIndex_eq_next.mp h
  obtain ⟨_, _, _, h⟩ := withWindow_eq_next.mp h
  cases h
  constructor <;> simp

theorem ksStore_frame {s t : State} {w : Nat} (h : s.ksStore w = .next t) : FrameHost s t := by
  obtain ⟨_, _, h⟩ := withIndex_eq_next.mp h
  cases h
  constructor <;> simp

theorem ctrInit_frame {s t : State} (h : s.ctrInit = .next t) : FrameHost s t := by
  obtain ⟨_, _, h⟩ := withIv_eq_next.mp h
  cases h
  constructor <;> simp

theorem loadSt_frame {s t : State} {sel : Nat} (h : s.loadSt sel = .next t) : FrameHost s t := by
  unfold State.loadSt at h
  split at h
  · obtain ⟨_, _, h⟩ := withDin_eq_next.mp h
    cases h
    exact (frameBlk_setSt s _).toHost
  · cases h
    exact (frameBlk_setSt s _).toHost

/-! ### What an operation that answers has done -/

/-- The ways in which an operation can answer a next state: one constructor for the report of an error, one
for each host command that succeeds, and one for everything the sequencer issues. -/
inductive Effect (s : State) : Instr → State → Prop where
  /-- An error is reported (rule R258); the model's next free choice may be used up. -/
  | raised (i : Instr) (k : ErrKind) (n : Nat) : Effect s i (State.raise { s with freeIndex := n } k)
  /-- CONSTRUCT builds the context (rule R121). -/
  | constructed {r : BitVec 16} (hnone : s.ctx.valid = false) (hr : r ≠ 0#16) :
      Effect s (.construct r) (State.complete { s with ctx := buildContext r })
  /-- A host's RELEASE discards the buffers of a call (rule R230). -/
  | released (hctx : s.ctx.valid = true) : Effect s .release s.discard.complete
  /-- A host's KEYEXPAND leaves the round keys (rule R140). -/
  | expanded {u : State} (hctx : s.ctx.valid = true) (hu : s.expandKey = .next u) :
      Effect s .keyexpand u.complete
  /-- BLOCKENC leaves one encrypted block (rule R160). -/
  | blockDone {u : State} (hctx : s.ctx.valid = true) (hkeys : s.keys.valid = true)
      (hu : FrameBlk s.allocateResult u) :
      Effect s .blockenc ((u.storeSt 0).endBlock.completeWithResult 256)
  /-- ENCRYPT or DECRYPT leaves the result of a call (rules R200 and R201). -/
  | callDone {i : Instr} {u : State} (hi : i = .encrypt ∨ i = .decrypt) (hctx : s.ctx.valid = true)
      (hu : s.ctrProcedure = .next u) : Effect s i (u.completeWithResult s.ops.dinDesc.len)
  /-- What the sequencer issues works on the core's own buffers (rule R94). -/
  | sequenced {i : Instr} {t : State} (hseq : s.ports.issuer = .seq) (h : FrameHost s t) :
      Effect s i t

/-- An error that uses up no free choice. -/
theorem Effect.raise (s : State) (i : Instr) (k : ErrKind) : Effect s i (s.raise k) :=
  .raised i k s.freeIndex

/-- A sequencer-only operation raises for the host, and for the sequencer does what its effect does. -/
theorem effect_of_seqOnly {s t : State} {i : Instr} {effect : Res} (h : s.seqOnly effect = .next t)
    (hframe : effect = .next t → FrameHost s t) : Effect s i t := by
  rcases seqOnly_eq_next.mp h with ⟨hseq, he⟩ | ⟨_, rfl⟩
  · exact .sequenced hseq (hframe he)
  · exact .raise s i _

/-- A sequencer-only operation whose effect is an update that always answers. -/
theorem effect_of_seqOnly_next {s t u : State} {i : Instr} (h : s.seqOnly (.next u) = .next t)
    (hframe : FrameHost s u) : Effect s i t :=
  effect_of_seqOnly h fun he => by cases he; exact hframe

theorem execConstruct_effect {r : BitVec 16} {s t : State} (h : execConstruct r s = .next t) :
    Effect s (.construct r) t := by
  unfold execConstruct at h
  split at h
  · cases h
    exact .raise s _ _
  · next hnone =>
    split at h
    · cases h
      exact .raise s _ _
    · next hr =>
      cases h
      exact .constructed (by simpa using hnone) hr

theorem execRelease_effect {s t : State} (h : execRelease s = .next t) : Effect s .release t := by
  unfold execRelease at h
  split at h
  · next hseq =>
    cases h
    exact .sequenced hseq (by constructor <;> simp)
  · split at h
    · cases h
      exact .raise s _ _
    · next hctx =>
      cases h
      exact .released (by simpa using hctx)

theorem execKeyexpand_effect {s t : State} (h : execKeyexpand s = .next t) :
    Effect s .keyexpand t := by
  unfold execKeyexpand at h
  split at h
  · next hseq => exact .sequenced hseq (expandKey_eq_next h).1.toHost
  split at h
  · cases h
    exact .raise s _ _
  next hctx =>
  split at h
  · cases h
  split at h
  · cases h
    exact .raise s _ _
  obtain ⟨u, hu, h⟩ := andThen_eq_next.mp h
  cases h
  exact .expanded (by simpa using hctx) hu

theorem execBlockenc_effect {s t : State} (h : execBlockenc s = .next t) :
    Effect s .blockenc t := by
  rcases blockenc_eq_next h with ⟨k, rfl⟩ | ⟨u, hctx, hkeys, hu, rfl⟩
  · exact .raise s _ k
  · exact .blockDone hctx hkeys hu

theorem ctrCall_effect {s t : State} {i : Instr} (hi : i = .encrypt ∨ i = .decrypt)
    (h : s.ctrCall = .next t) : Effect s i t := by
  rcases ctrCall_eq_next h with ⟨k, n, rfl⟩ | ⟨u, hu, hctx, _, _, rfl⟩
  · exact .raised i k n
  · exact .callDone hi hctx hu

/-- What an operation that answers has done. -/
theorem exec_effect {i : Instr} {s t : State} (h : exec i s = .next t) : Effect s i t := by
  cases i with
  | construct r => exact execConstruct_effect h
  | encrypt => exact ctrCall_effect (.inl rfl) h
  | decrypt => exact ctrCall_effect (.inr rfl) h
  | release => exact execRelease_effect h
  | keyexpand => exact execKeyexpand_effect h
  | blockenc => exact execBlockenc_effect h
  | ctrinit => exact effect_of_seqOnly h ctrInit_frame
  | encctr => exact effect_of_seqOnly h fun he => (encCtr_frame he).1.toHost
  | ksxor => exact effect_of_seqOnly h fun he => (ksXor_frame he).1.toHost
  | incctr => exact effect_of_seqOnly_next h (frameCtr_incCtr s).toHost
  | ldst sel => exact effect_of_seqOnly h loadSt_frame
  | stst sel => exact effect_of_seqOnly_next h (frameCtr_storeSt s _).toHost
  | addkey r => exact effect_of_seqOnly h fun he => (addKey_frame he).toHost
  | subbytes => exact effect_of_seqOnly_next h (by constructor <;> simp)
  | permute => exact effect_of_seqOnly_next h (by constructor <;> simp)
  | mixcol => exact effect_of_seqOnly_next h (by constructor <;> simp)
  | rotl k => exact effect_of_seqOnly_next h (by constructor <;> simp)
  | xormask round => exact effect_of_seqOnly_next h (by constructor <;> simp)
  | rdt round => exact effect_of_seqOnly_next h (by constructor <;> simp)
  | ksinit => exact effect_of_seqOnly h ksInit_frame
  | ksload w => exact effect_of_seqOnly h ksLoad_frame
  | ksrot3 => exact effect_of_seqOnly_next h (by constructor <;> simp)
  | kssub4 => exact effect_of_seqOnly_next h (by constructor <;> simp)
  | ksrcon w => exact effect_of_seqOnly h ksRcon_frame
  | ksxorp w => exact effect_of_seqOnly h ksXorp_frame
  | ksstore w => exact effect_of_seqOnly h ksStore_frame

/-- No operation changes the host's operands or the ports. -/
theorem Effect.ops_ports {s t : State} {i : Instr} (h : Effect s i t) :
    t.ops = s.ops ∧ t.ports = s.ports := by
  cases h with
  | raised k n => exact ⟨rfl, rfl⟩
  | constructed hnone hr => exact ⟨rfl, rfl⟩
  | released hctx => exact ⟨rfl, rfl⟩
  | expanded hctx hu =>
    have hframe := (expandKey_eq_next hu).1
    exact ⟨hframe.ops, hframe.ports⟩
  | blockDone hctx hkeys hu => exact ⟨by simp [hu.ops], by simp [hu.ports]⟩
  | callDone hi hctx hu =>
    obtain ⟨_, hops, _, hports, _⟩ := ctrProcedure_frame hu
    exact ⟨hops, hports⟩
  | sequenced hseq hframe => exact ⟨hframe.ops, hframe.ports⟩

/-- An operation leaves the context as it was, or is the CONSTRUCT that builds it. -/
theorem Effect.ctx {s t : State} {i : Instr} (h : Effect s i t) :
    t.ctx = s.ctx ∨ (s.ctx.valid = false ∧ ∃ r, r ≠ 0#16 ∧ t.ctx = buildContext r) := by
  cases h with
  | raised k n => exact .inl rfl
  | @constructed r hnone hr => exact .inr ⟨hnone, r, hr, rfl⟩
  | released hctx => exact .inl rfl
  | expanded hctx hu => exact .inl (expandKey_eq_next hu).1.ctx
  | blockDone hctx hkeys hu => exact .inl (by simp [hu.ctx])
  | callDone hi hctx hu => exact .inl (ctrProcedure_frame hu).1
  | sequenced hseq hframe => exact .inl hframe.ctx

/-- After a host-issued operation a result is valid exactly where the operation is one that leaves a result
and no error is reported. -/
theorem Effect.out_valid {s t : State} {i : Instr} (h : Effect s i t) (hhost : s.ports.issuer = .host) :
    t.out.valid = true ↔ (i = .encrypt ∨ i = .decrypt ∨ i = .blockenc) ∧ t.err = none := by
  cases h with
  | raised k n => simp
  | constructed hnone hr => simp
  | released hctx => simp
  | expanded hctx hu => simp
  | blockDone hctx hkeys hu => simp
  | callDone hi hctx hu =>
    rcases hi with rfl | rfl
    · simp
    · simp
  | sequenced hseq hframe =>
    rw [hhost] at hseq
    cases hseq

end Sys2Proof.Machine
end

section
/-! SUPPORT. What a step that answers has done, in terms of `Effect`, and the rules that say how a step at an
idle sequencer reaches the host's next action. -/

namespace Sys2Proof.Machine

open Sys2Proof.Safety

/-- The three operand memories are in canonical form. -/
structure OperandsWf (o : Operands) : Prop where
  key : Memory.wf o.key
  iv : Memory.wf o.iv
  din : Memory.wf o.din

/-- `s` with the host's next action taken and `rest` still to come. -/
def State.awaiting (s : State) (rest : List HostAction) : State :=
  { s with ports.hostActions := rest }

/-- With the sequencer idle a step is the host's next action. -/
theorem step_hostAct {s : State} {a : HostAction} {rest : List HostAction}
    (hidle : s.ports.seqWords = []) (ha : s.ports.hostActions = a :: rest) :
    step s = (s.awaiting rest).hostAct a := by
  unfold step State.advance
  split
  · next hw =>
    rw [hidle] at hw
    cases hw
  · split
    · next ha' =>
      rw [ha] at ha'
      cases ha'
      rfl
    · next ha' =>
      rw [ha] at ha'
      cases ha'

/-- With the sequencer idle and nothing to come a step keeps the state (rule R272). -/
theorem step_idle {s : State} (hidle : s.ports.seqWords = []) (ha : s.ports.hostActions = []) :
    step s = .next s := by
  unfold step State.advance
  simp only [hidle, ha]

/-- With a word at the sequencer's port a step is that word. -/
theorem step_seqCommand {s : State} {w : Word32} {rest : List Word32}
    (hw : s.ports.seqWords = w :: rest) :
    step s = State.seqCommand { s with ports.seqWords := rest } w := by
  unfold step State.advance
  simp only [hw]

theorem hostCommand_ok {s : State} {w : Word32} {i : Instr} (h : decode w = .ok i) :
    s.hostCommand w = exec i (s.issuedBy .host) := by
  simp [State.hostCommand, h]

theorem hostCommand_error {s : State} {w : Word32} {e : Reject} (h : decode w = .error e) :
    s.hostCommand w = .next ((s.issuedBy .host).raise .illegalCommand) := by
  simp [State.hostCommand, h]

/-- A word of the sequencer's that answers is one the sequencer may issue. -/
theorem seqCommand_eq_next {s t : State} {w : Word32} (h : s.seqCommand w = .next t) :
    ∃ i, decode w = .ok i ∧ exec i (s.issuedBy .seq) = .next t := by
  unfold State.seqCommand at h
  split at h
  · next i hi =>
    split at h
    · cases h
    · exact ⟨i, hi, h⟩
  · cases h

theorem deliver_eq_next {s t : State} {v : Option HostRead} :
    s.deliver v = .next t ↔
      ∃ r, v = some r ∧ t = { s with ports.hostReads := r :: s.ports.hostReads } := by
  cases v <;> simp [State.deliver, eq_comm]

/-- A host write of a register changes the operands only, and of them no byte. -/
theorem writeRegister_eq_next {s t : State} {reg : Nat} {d : RegData}
    (h : s.writeRegister reg d = .next t) :
    ∃ o, t = { s with ops := o } ∧ (OperandsWf s.ops → OperandsWf o) := by
  unfold State.writeRegister at h
  split at h
  all_goals cases h
  all_goals exact ⟨_, rfl, fun hwf => ⟨hwf.key, hwf.iv, hwf.din⟩⟩

/-- A host write of bytes changes the operands only, and keeps their canonical form. -/
theorem writeSpace_eq_next {s t : State} {sp : Space} {addr : Nat} {bytes : List Byte}
    (h : s.writeSpace sp addr bytes = .next t) :
    ∃ o, t = { s with ops := o } ∧ (OperandsWf s.ops → OperandsWf o) := by
  unfold State.writeSpace at h
  split at h
  · cases h
    exact ⟨_, rfl, fun hwf => ⟨Memory.wf_writeBytes hwf.key addr bytes, hwf.iv, hwf.din⟩⟩
  · cases h
    exact ⟨_, rfl, fun hwf => ⟨hwf.key, Memory.wf_writeBytes hwf.iv addr bytes, hwf.din⟩⟩
  · cases h
    exact ⟨_, rfl, fun hwf => ⟨hwf.key, hwf.iv, Memory.wf_writeBytes hwf.din addr bytes⟩⟩
  · cases h

/-- The ways in which a step can answer a next state. -/
inductive StepEffect (s : State) : State → Prop where
  /-- The sequencer's next word is executed. -/
  | sequencerWord {w : Word32} {rest : List Word32} {p : Ports} {i : Instr} {t : State}
      (hw : s.ports.seqWords = w :: rest) (he : Effect { s with ports := p } i t) : StepEffect s t
  /-- A word the host writes to `CMD` is executed, or raises where it is not well formed. -/
  | hostCommand {p : Ports} {i : Instr} {t : State} (hidle : p.seqWords = [])
      (hhost : p.issuer = .host) (he : Effect { s with ports := p } i t) : StepEffect s t
  /-- The host reads, writes operands, or has nothing to do. -/
  | hostAccess {o : Operands} {p : Ports} (hidle : p.seqWords = [])
      (hwf : OperandsWf s.ops → OperandsWf o) : StepEffect s { s with ops := o, ports := p }
  /-- The reset event (rule R290). -/
  | resetEvent {rest : List HostAction} (hidle : s.ports.seqWords = [])
      (ha : s.ports.hostActions = .reset :: rest) : StepEffect s (s.awaiting rest).resetEvent

/-- What an action of the host or the platform that answers has done. -/
theorem hostAct_effect {s t : State} {a : HostAction} {rest : List HostAction}
    (hidle : s.ports.seqWords = []) (ha : s.ports.hostActions = a :: rest)
    (h : (s.awaiting rest).hostAct a = .next t) : StepEffect s t := by
  unfold State.hostAct at h
  split at h
  · next w =>
    cases hd : decode w with
    | ok i =>
      rw [hostCommand_ok hd] at h
      exact .hostCommand (p := ((s.awaiting rest).issuedBy .host).ports) hidle rfl (exec_effect h)
    | error e =>
      -- The effect is the same whatever operation the ill-formed word is counted as.
      rw [hostCommand_error hd] at h
      cases h
      exact .hostCommand (p := ((s.awaiting rest).issuedBy .host).ports) hidle rfl
        (.raise ((s.awaiting rest).issuedBy .host) .release _)
  · obtain ⟨o, rfl, hwf⟩ := writeRegister_eq_next h
    exact .hostAccess hidle hwf
  · obtain ⟨r, _, rfl⟩ := deliver_eq_next.mp h
    exact .hostAccess hidle id
  · obtain ⟨o, rfl, hwf⟩ := writeSpace_eq_next h
    exact .hostAccess hidle hwf
  · obtain ⟨r, _, rfl⟩ := deliver_eq_next.mp h
    exact .hostAccess hidle id
  · cases h
    exact .resetEvent hidle ha

/-- What a step that answers has done. -/
theorem step_effect {s t : State} (h : step s = .next t) : StepEffect s t := by
  cases hw : s.ports.seqWords with
  | cons w rest =>
    rw [step_seqCommand hw] at h
    obtain ⟨i, _, he⟩ := seqCommand_eq_next h
    exact .sequencerWord hw (exec_effect he)
  | nil =>
    cases ha : s.ports.hostActions with
    | nil =>
      rw [step_idle hw ha] at h
      cases h
      exact .hostAccess hw id
    | cons a rest =>
      rw [step_hostAct hw ha] at h
      exact hostAct_effect hw ha h

/-- What a step does to the context: nothing, or CONSTRUCT builds one where there is none, or the reset event
ends it. -/
theorem StepEffect.ctx {s t : State} (h : StepEffect s t) :
    t.ctx = s.ctx ∨ (s.ctx.valid = false ∧ ∃ r, r ≠ 0#16 ∧ t.ctx = buildContext r) ∨
      (t.ctx.valid = false ∧ s.ports.seqWords = [] ∧
        ∃ rest, s.ports.hostActions = .reset :: rest) := by
  cases h with
  | sequencerWord hw he => exact he.ctx.imp_right .inl
  | hostCommand hidle hhost he => exact he.ctx.imp_right .inl
  | hostAccess hidle hwf => exact .inl rfl
  | @resetEvent rest hidle ha => exact .inr (.inr ⟨rfl, hidle, rest, ha⟩)

end Sys2Proof.Machine
end

section
/-! SUPPORT. The invariants of 10_state.md: the context that CONSTRUCT builds has them (rules R28 and R127), and
which parts of the state each of them reads. -/

namespace Sys2Proof.Machine

open Sys2Proof.Safety

/-! ### The tables of CONSTRUCT -/

/-- A table of 256 different bytes is a permutation of the bytes. -/
theorem block_bijective {b : Block} (h : ∀ i j : Fin 256, b[i] = b[j] → i = j) :
    Function.Bijective fun v : Byte => b[v.toNat]'v.isLt := by
  rw [← Finite.injective_iff_bijective]
  intro v w hvw
  exact BitVec.eq_of_toNat_eq (congrArg Fin.val (h ⟨v.toNat, v.isLt⟩ ⟨w.toNat, w.isLt⟩ hvw))

/-- The S-box of CONSTRUCT holds 256 different bytes (rule R125). -/
theorem buildSBox_injective (i j : Fin 256) (h : buildSBox[i] = buildSBox[j]) : i = j := by
  simp only [Fin.getElem_fin, getElem_buildSBox, EmbeddingLike.apply_eq_iff_eq] at h
  have := congrArg BitVec.toNat h
  simp only [BitVec.toNat_ofNat] at this
  omega

/-- `INVSBOX` inverts an S-box of different bytes (rule R126). -/
theorem buildInvSBox_apply {b : Block} (h : ∀ i j : Fin 256, b[i] = b[j] → i = j) (v : Byte) :
    (buildInvSBox b)[(b[v.toNat]'v.isLt).toNat]'(BitVec.isLt _) = v := by
  have hscatter := getElem_scatter b identityBlock zeroBlock h ⟨v.toNat, v.isLt⟩
  simp only [Fin.getElem_fin, getElem_identityBlock] at hscatter
  rw [buildInvSBox, hscatter]
  exact BitVec.eq_of_toNat_eq (by simp)

/-! ### What the invariants read -/

/-- Without a context there is nothing to hold. -/
theorem contextInv_of_invalid {s : State} (h : s.ctx.valid = false) : ContextInv s where
  sbox hv := by simp [h] at hv
  invsbox hv := by simp [h] at hv
  perm hv := by simp [h] at hv
  permTable hv := by simp [h] at hv
  rounds hv := by simp [h] at hv

/-- The context invariants read the context only. -/
theorem contextInv_of_ctx_eq {s t : State} (h : ContextInv s) (hctx : t.ctx = s.ctx) :
    ContextInv t where
  sbox := by simpa only [hctx] using h.sbox
  invsbox := by simpa only [hctx] using h.invsbox
  perm := by simpa only [hctx] using h.perm
  permTable := by simpa only [hctx] using h.permTable
  rounds := by simpa only [hctx] using h.rounds

/-- The context that CONSTRUCT builds has the invariants of rule R28. -/
theorem contextInv_of_built {s : State} {r : BitVec 16} (hr : r ≠ 0#16)
    (hctx : s.ctx = buildContext r) : ContextInv s where
  sbox _ := by simpa only [hctx, buildContext] using block_bijective buildSBox_injective
  invsbox _ := by simpa only [hctx, buildContext] using buildInvSBox_apply buildSBox_injective
  perm _ := by simpa only [hctx, buildContext] using block_bijective buildPerm_injective
  permTable _ q := by
    simp only [hctx, buildContext, Fin.getElem_fin, getElem_buildPerm, BitVec.toNat_ofNat]
    omega
  rounds _ := by
    have hpos : r.toNat ≠ 0 := fun h => hr (BitVec.eq_of_toNat_eq h)
    have hlt := r.isLt
    simp only [hctx, buildContext]
    omega

/-- The context invariants fix the permutation table (rule R127). -/
theorem perm_eq_buildPerm {s : State} (h : ContextInv s) (hctx : s.ctx.valid = true) :
    s.ctx.perm = buildPerm := by
  apply vector_ext
  intro q hq
  apply BitVec.eq_of_toNat_eq
  have htable := h.permTable hctx ⟨q, hq⟩
  simp only [Fin.getElem_fin] at htable
  rw [htable, getElem_buildPerm, BitVec.toNat_ofNat]
  omega

/-- What a step does keeps the context invariants. -/
theorem StepEffect.contextInv {s t : State} (h : StepEffect s t) (hs : ContextInv s) :
    ContextInv t := by
  rcases h.ctx with hsame | ⟨_, r, hr, hbuilt⟩ | ⟨hnone, _⟩
  · exact contextInv_of_ctx_eq hs hsame
  · exact contextInv_of_built hr hbuilt
  · exact contextInv_of_invalid hnone

end Sys2Proof.Machine
end

section
/-! SUPPORT. The statements of 10_state.md that are read off the inversion lemmas: what every operation and every
step keeps, and the fixed facts of `STATUS`, of `CMD` and of reset. -/

namespace Sys2Proof.Machine

open Sys2Proof.Safety

/-- Settles O17: a step leaves the context, builds it by CONSTRUCT, or ends it by the reset event. -/
theorem contextInvKept : Obligations.ContextInvKept :=
  fun _ _ hs h => (step_effect h).contextInv hs

/-- Settles O18, by the same three cases: where a context exists CONSTRUCT is refused. -/
theorem contextIsImmutable : Obligations.ContextIsImmutable := by
  refine ⟨fun s t hctx h => ?_, fun r s hctx => ?_⟩
  · rcases (step_effect h).ctx with hsame | ⟨hnone, _⟩ | ⟨_, hreset⟩
    · exact .inl hsame
    · rw [hctx] at hnone
      cases hnone
    · exact .inr hreset
  · refine ⟨s.raise .illegalCommand, ?_, rfl, rfl⟩
    show execConstruct r s = _
    rw [execConstruct, if_pos hctx]

/-- Settles O52, from what an operation that answers has done. -/
theorem commandsKeepOperands : Obligations.CommandsKeepOperands :=
  fun _ _ _ h => (exec_effect h).ops_ports

/-- Settles O53, from what an operation that answers has done. -/
theorem outValidMeansResult : Obligations.OutValidMeansResult :=
  fun _ _ _ hhost h => (exec_effect h).out_valid hhost

/-- Settles O5: the host's next action is a write of `CMD`. -/
theorem stepRunsHostCommand : Obligations.StepRunsHostCommand := by
  intro s w rest i hidle ha hd
  rw [step_hostAct hidle ha]
  exact hostCommand_ok hd

/-- Where each bit of `STATUS` comes from (rule R42). -/
theorem getLsbD_status (s : State) (j : Nat) :
    s.status.getLsbD j =
      if j = 0 then s.ctx.valid else if j = 1 then s.keys.valid else if j = 2 then s.out.valid
      else if j = 3 then false else if j < 8 then s.errCode.getLsbD (j - 4) else false := by
  simp only [State.status, BitVec.getLsbD_cast, BitVec.getLsbD_append, BitVec.getLsbD_ofBool,
    BitVec.getLsbD_zero]
  match j with
  | 0 => simp
  | 1 => simp
  | 2 => simp
  | 3 => simp
  | j + 4 =>
    have hlt : j + 1 + 1 + 1 + 1 < 8 ↔ j < 4 := by omega
    simp [hlt]

/-- Settles O9: a read of register 1 delivers `STATUS`, whose bits are those of rule R42. -/
theorem statusLayout : Obligations.StatusLayout := by
  intro s rest hidle ha
  refine ⟨s.status, ?_, ?_, ?_, ?_, ?_, ?_, ?_⟩
  · rw [step_hostAct hidle ha]
    rfl
  · rw [getLsbD_status]; rfl
  · rw [getLsbD_status]; rfl
  · rw [getLsbD_status]; rfl
  · rw [getLsbD_status]; rfl
  · apply BitVec.eq_of_getLsbD_eq
    intro j hj
    rw [BitVec.getLsbD_extractLsb', getLsbD_status, if_neg (by omega), if_neg (by omega),
      if_neg (by omega), if_neg (by omega), if_pos (by omega), Nat.add_sub_cancel_left]
    simp [hj]
  · apply BitVec.eq_of_getLsbD_eq
    intro j hj
    rw [BitVec.getLsbD_extractLsb', getLsbD_status, if_neg (by omega), if_neg (by omega),
      if_neg (by omega), if_neg (by omega), if_neg (by omega)]
    simp

/-- Settles O12: after reset every storage is empty and no flag is set. -/
theorem resetState : Obligations.ResetState := by
  refine ⟨by decide, rfl, rfl, rfl, ?_, ?_, ?_⟩
  · intro sp hsp a
    simp only [List.mem_cons, List.not_mem_nil, or_false] at hsp
    rcases hsp with rfl | rfl | rfl | rfl | rfl
    all_goals rfl
  · intro reg hreg
    simp [State.registerValue, State.reset, hreg]
  · intro sp addr n
    simp [State.spaceBytes, State.reset]

end Sys2Proof.Machine
end

section
/-! SUPPORT. The invariant of command boundaries in four parts, by the units of the state they read: the context,
the operands, the round keys (rules R29 and R30) and the result (rules R38 and R42). Each part is kept by what an
operation issued by the host does. -/

namespace Sys2Proof.Machine

open Sys2Proof.Safety

/-- `RK` holds the round keys `0 .. R` exactly while `RK_VALID = 1`, which needs a context. -/
structure KeysInv (s : State) : Prop where
  wf : Store.wf s.keys.rk
  needContext : s.keys.valid = true → s.ctx.valid = true
  held : ∀ r, (Store.read s.keys.rk r).isSome = true ↔
    s.keys.valid = true ∧ r ≤ s.ctx.rounds.toNat

/-- `DOUT` holds `DOUT_LEN` bytes of a command without error while `OUT_VALID = 1`. -/
structure ResultInv (s : State) : Prop where
  wf : Memory.wf s.out.dout
  bytes : s.out.valid = true → ∀ q, (Memory.byte? s.out.dout q).isSome = true ↔ q < s.out.len
  success : s.out.valid = true → s.err = none

/-- The invariant of command boundaries is its parts. -/
theorem boundaryInv_iff {s : State} :
    BoundaryInv s ↔ s.ports.seqWords = [] ∧ ContextInv s ∧ OperandsWf s.ops ∧ KeysInv s ∧
      ResultInv s := by
  constructor
  · intro h
    exact ⟨h.idle, h.context, ⟨h.memory.key, h.memory.iv, h.memory.din⟩,
      ⟨h.memory.rk, h.keysNeedContext, h.roundKeys⟩,
      ⟨h.memory.dout, h.resultBytes, h.resultOfSuccess⟩⟩
  · rintro ⟨hidle, hctx, hops, hkeys, hout⟩
    exact ⟨hidle, hctx, ⟨hops.key, hops.iv, hops.din, hout.wf, hkeys.wf⟩, hkeys.needContext,
      hkeys.held, hout.bytes, hout.success⟩

/-! ### What the parts read -/

/-- The round keys' part reads the context and the key-schedule unit only. -/
theorem keysInv_of_eq {s t : State} (h : KeysInv s) (hctx : t.ctx = s.ctx) (hkeys : t.keys = s.keys) :
    KeysInv t where
  wf := by rw [hkeys]; exact h.wf
  needContext := by rw [hkeys, hctx]; exact h.needContext
  held := by rw [hkeys, hctx]; exact h.held

/-- Released round keys hold no value. -/
theorem keysInv_of_empty {s : State} (hrk : s.keys.rk = []) (hvalid : s.keys.valid = false) :
    KeysInv s where
  wf := by rw [hrk]; exact Store.wf_nil
  needContext hv := by simp [hvalid] at hv
  held r := by simp [hrk, hvalid, Store.read_nil]

/-- The result's part reads the result and `STATUS.ERR` only. -/
theorem resultInv_of_eq {s t : State} (h : ResultInv s) (hout : t.out = s.out) (herr : t.err = s.err) :
    ResultInv t where
  wf := by rw [hout]; exact h.wf
  bytes := by rw [hout]; exact h.bytes
  success := by rw [hout, herr]; exact h.success

/-- Without a valid result `DOUT` need only be in canonical form. -/
theorem resultInv_of_invalid {s : State} (hwf : Memory.wf s.out.dout) (hvalid : s.out.valid = false) :
    ResultInv s where
  wf := hwf
  bytes hv := by simp [hvalid] at hv
  success hv := by simp [hvalid] at hv

/-- The invariant of command boundaries reads of the ports only that the sequencer is idle. -/
theorem boundaryInv_of_ports {s : State} (h : BoundaryInv s) {p : Ports} (hidle : p.seqWords = []) :
    BoundaryInv { s with ports := p } := by
  obtain ⟨_, hctx, hops, hkeys, hout⟩ := boundaryInv_iff.mp h
  exact boundaryInv_iff.mpr ⟨hidle, contextInv_of_ctx_eq hctx rfl, hops, keysInv_of_eq hkeys rfl rfl,
    resultInv_of_eq hout rfl rfl⟩

/-! ### What the host's operations keep -/

/-- An operation issued by the host keeps the round keys' part of the invariant. -/
theorem Effect.keysInv {s t : State} {i : Instr} (h : Effect s i t) (hhost : s.ports.issuer = .host)
    (hs : KeysInv s) : KeysInv t := by
  cases h with
  | raised k n => exact keysInv_of_eq hs rfl rfl
  | @constructed r hnone hr =>
    -- Without a context there are no round keys, so the new round count bounds none.
    have hvalid : s.keys.valid = false := by
      by_contra hv
      rw [hs.needContext (by simpa using hv)] at hnone
      cases hnone
    refine ⟨hs.wf, fun _ => rfl, fun w => ?_⟩
    have hheld := hs.held w
    simp only [hvalid, Bool.false_eq_true, false_and, iff_false] at hheld
    simpa [hvalid] using hheld
  | released hctx => exact keysInv_of_empty rfl rfl
  | expanded hctx hu =>
    obtain ⟨hframe, hvalid, hwf, hread⟩ := expandKey_eq_next hu
    refine ⟨hwf, fun _ => ?_, fun w => ?_⟩
    · rw [State.complete_ctx, hframe.ctx]
      exact hctx
    · simp [hread, hvalid, hframe.ctx]
  | blockDone hctx hkeys hu => exact keysInv_of_eq hs (by simp [hu.ctx]) (by simp [hu.keys])
  | callDone hi hctx hu =>
    obtain ⟨_, _, _, _, _, hrk, hvalid, _⟩ := ctrProcedure_frame hu
    exact keysInv_of_empty hrk hvalid
  | sequenced hseq hframe =>
    rw [hhost] at hseq
    cases hseq

/-- An operation issued by the host keeps the result's part of the invariant. -/
theorem Effect.resultInv {s t : State} {i : Instr} (h : Effect s i t)
    (hhost : s.ports.issuer = .host) (hs : ResultInv s) : ResultInv t := by
  cases h with
  | raised k n => exact resultInv_of_invalid hs.wf rfl
  | constructed hnone hr => exact resultInv_of_invalid hs.wf rfl
  | released hctx => exact resultInv_of_invalid hs.wf rfl
  | expanded hctx hu =>
    refine resultInv_of_invalid ?_ rfl
    rw [State.complete_out, (expandKey_eq_next hu).1.out]
    exact hs.wf
  | @blockDone u hctx hkeys hu =>
    refine ⟨?_, fun _ q => ?_, fun _ => rfl⟩
    · simpa [hu.out] using Memory.wf_writeBytes Store.wf_nil 0 u.blk.st.toList
    · have hbyte : Memory.byte? ((u.storeSt 0).endBlock.completeWithResult 256).out.dout q
          = if q < 256 then u.blk.st[q]? else none := by
        simp [hu.out, Memory.byte?_writeBytes, Memory.byte?_nil]
      rw [hbyte]
      by_cases hq : q < 256
      · simp [hq]
      · simp [hq]
  | callDone hi hctx hu =>
    obtain ⟨_, _, _, _, _, _, _, hwf, hbytes⟩ := ctrProcedure_frame hu
    exact ⟨hwf, fun _ => hbytes, fun _ => rfl⟩
  | sequenced hseq hframe =>
    rw [hhost] at hseq
    cases hseq

/-- An operation issued by the host keeps the canonical form of the operands. -/
theorem Effect.operandsWf {s t : State} {i : Instr} (h : Effect s i t) (hs : OperandsWf s.ops) :
    OperandsWf t.ops := by
  rw [h.ops_ports.1]
  exact hs

/-- A step from a command boundary ends at one: the sequencer's queue is empty, so only the host or the
platform acts. -/
theorem StepEffect.boundaryInv {s t : State} (h : StepEffect s t) (hs : BoundaryInv s) :
    BoundaryInv t := by
  have hctx := h.contextInv hs.context
  obtain ⟨hsidle, _, hops, hkeys, hout⟩ := boundaryInv_iff.mp hs
  rw [boundaryInv_iff]
  cases h with
  | sequencerWord hw he =>
    rw [hsidle] at hw
    cases hw
  | hostCommand hidle hhost he =>
    exact ⟨by rw [he.ops_ports.2]; exact hidle, hctx, he.operandsWf hops,
      he.keysInv hhost (keysInv_of_eq hkeys rfl rfl), he.resultInv hhost (resultInv_of_eq hout rfl rfl)⟩
  | hostAccess hidle hwf =>
    exact ⟨hidle, hctx, hwf hops, keysInv_of_eq hkeys rfl rfl, resultInv_of_eq hout rfl rfl⟩
  | resetEvent hidle ha =>
    exact ⟨hidle, hctx, ⟨Store.wf_nil, Store.wf_nil, Store.wf_nil⟩, keysInv_of_empty rfl rfl,
      resultInv_of_invalid Store.wf_nil rfl⟩

/-- Settles O57: what a step has done keeps each part of the invariant. -/
theorem boundaryInvKept : Obligations.BoundaryInvKept :=
  fun _ _ hs h => (step_effect h).boundaryInv hs

/-- Settles O56: after reset every storage is empty and no flag is set. -/
theorem boundaryInvAtReset : Obligations.BoundaryInvAtReset :=
  boundaryInv_iff.mpr ⟨rfl, contextInv_of_invalid rfl, ⟨Store.wf_nil, Store.wf_nil, Store.wf_nil⟩,
    keysInv_of_empty rfl rfl, resultInv_of_invalid Store.wf_nil rfl⟩

end Sys2Proof.Machine
end

section
/-! SUPPORT. Commands that stop because a byte they read was never written (rule R46): reading fails where one byte
holds no value, and a command that reaches such a read refuses with that reason and no other. -/

namespace Sys2Proof.Machine

open Sys2Proof.Safety

/-! ### Reads of operands -/

/-- `MemRead` has no answer where one byte of its range holds no value. -/
theorem readBytes_eq_none {m : Memory} {n : Nat}
    (h : ¬ ∀ j, j < n → (Memory.byte? m j).isSome = true) : Memory.readBytes m 0 n = none := by
  rw [← Option.not_isSome_iff_eq_none, Memory.readBytes_isSome]
  simpa only [Nat.zero_add] using h

/-- `MemRead` answers with a vector of bytes where every byte of its range holds a value. -/
theorem exists_readBytes {m : Memory} {n : Nat} (h : ∀ j, j < n → (Memory.byte? m j).isSome = true) :
    ∃ v : Vector Byte n, Memory.readBytes m 0 n = some v.toList := by
  have hsome : (Memory.readBytes m 0 n).isSome := by
    rw [Memory.readBytes_isSome]
    intro j hj
    rw [Nat.zero_add]
    exact h j hj
  obtain ⟨l, hl⟩ := Option.isSome_iff_exists.mp hsome
  have hlen := ((Memory.readBytes_eq_some _ _ _ _).mp hl).1
  exact ⟨⟨l.toArray, by simpa using hlen⟩, by simpa using hl⟩

theorem expandKey_refused {s : State} (h : Memory.readBytes s.ops.key 0 256 = none) :
    s.expandKey = .refused .operandByteNeverWritten := by
  simp [State.expandKey, State.ksInit, State.withKey, h]

theorem ctrInit_refused {s : State} (h : Memory.readBytes s.ops.iv 0 32 = none) :
    s.ctrInit = .refused .operandByteNeverWritten := by
  simp [State.ctrInit, State.withIv, h]

/-- LDST 0, where the block is there. -/
theorem loadSt_zero_eq {s : State} {block : Block}
    (h : Memory.readBytes s.ops.din 0 256 = some block.toList) :
    s.loadSt 0 = .next (s.setSt block) := by
  simp [State.loadSt, State.withDin, h, blockOfList_toList]

theorem loadSt_zero_refused {s : State} (h : Memory.readBytes s.ops.din 0 256 = none) :
    s.loadSt 0 = .refused .operandByteNeverWritten := by
  simp [State.loadSt, State.withDin, h]

/-- A KSXOR inside the input moves the stream position on, or refuses because a byte of its chunk was never
written. -/
theorem ksXor_cases {s : State} (hp : s.seq.p ≤ s.ops.dinDesc.len) :
    s.ksXor = .refused .operandByteNeverWritten ∨
      ∃ t, s.ksXor = .next t ∧ FrameCtr s t ∧
        t.seq.p = s.seq.p + min 256 (s.ops.dinDesc.len - s.seq.p) ∧
        ∀ q, s.seq.p ≤ q → q < t.seq.p → (Memory.byte? s.ops.din q).isSome = true := by
  cases hl : Memory.readBytes s.ops.din s.seq.p (min 256 (s.ops.dinDesc.len - s.seq.p)) with
  | none => exact .inl (by simp [State.ksXor, State.withDin, hl, Nat.not_lt.mpr hp])
  | some l =>
    obtain ⟨t, ht⟩ : ∃ t, s.ksXor = .next t :=
      ⟨_, by simp only [State.ksXor, State.withDin, hl, if_neg (Nat.not_lt.mpr hp)]; rfl⟩
    have htp : t.seq.p = s.seq.p + min 256 (s.ops.dinDesc.len - s.seq.p) := by
      obtain ⟨_, _, _, rfl⟩ := ksXor_eq_next ht
      simp
    refine .inr ⟨t, ht, (ksXor_frame ht).1, htp, fun q hq hqt => ?_⟩
    have hbytes := (Memory.readBytes_isSome _ _ _).mp (Option.isSome_iff_exists.mpr ⟨l, hl⟩)
      (q - s.seq.p) (by omega)
    rwa [Nat.add_sub_cancel' hq] at hbytes

/-! ### The block encryption completes under any table, where every round key holds a value -/

/-- Every round key `0 .. R` holds a value. -/
def State.HoldsRoundKeys (s : State) : Prop :=
  ∀ w, w ≤ s.ctx.rounds.toNat → (Store.read s.keys.rk w).isSome = true

theorem addKey_completes {s : State} {r : Nat} (hrk : s.HoldsRoundKeys)
    (hr : r ≤ s.ctx.rounds.toNat) : ∃ t, s.addKey r = .next t := by
  obtain ⟨key, hkey⟩ := Option.isSome_iff_exists.mp (hrk r hr)
  exact ⟨_, addKey_eq hr hkey⟩

/-- The round keys' presence reads the context and the round keys only. -/
theorem FrameCtr.holdsRoundKeys {s t : State} (h : FrameCtr s t) (hs : s.HoldsRoundKeys) :
    t.HoldsRoundKeys := by
  rw [State.HoldsRoundKeys, h.ctx, h.keys]
  exact hs

theorem FrameBlk.holdsRoundKeys {s t : State} (h : FrameBlk s t) (hs : s.HoldsRoundKeys) :
    t.HoldsRoundKeys := h.toCtr.holdsRoundKeys hs

theorem mainRound_completes {s : State} {r : Nat} (hrk : s.HoldsRoundKeys)
    (hr : r ≤ s.ctx.rounds.toNat) : ∃ t, mainRound r s = .next t :=
  addKey_completes (s := (s.setRnd r).subBytes.permute.mixCol.rdt r)
    (by simpa [State.HoldsRoundKeys] using hrk) (by simpa using hr)

theorem finalRound_completes {s : State} {r : Nat} (hrk : s.HoldsRoundKeys)
    (hr : r ≤ s.ctx.rounds.toNat) : ∃ t, finalRound r s = .next t :=
  addKey_completes (s := (s.setRnd r).subBytes.permute.rdt r)
    (by simpa [State.HoldsRoundKeys] using hrk) (by simpa using hr)

theorem encryptState_completes {s : State} (hrk : s.HoldsRoundKeys) :
    ∃ t, s.encryptState = .next t := by
  obtain ⟨u, hu⟩ := addKey_completes hrk (Nat.zero_le _)
  obtain ⟨v, hv, hsv⟩ := forLoop_completes (fun _ v => FrameBlk s v) (body := mainRound)
    (count := u.ctx.rounds.toNat - 1) (first := 1) (addKey_frame hu) (by
      intro r v _ hr hsv
      obtain ⟨t, ht⟩ := mainRound_completes (s := v) (r := r) (hsv.holdsRoundKeys hrk) (by
        rw [hsv.ctx]
        rw [(addKey_frame hu).ctx] at hr
        omega)
      exact ⟨t, ht, hsv.trans (mainRound_frame ht)⟩)
  obtain ⟨t, ht⟩ := finalRound_completes (hsv.holdsRoundKeys hrk) (Nat.le_refl _)
  exact ⟨t, by rw [State.encryptState, hu, andThen_next, hv, andThen_next, ht]⟩

/-- ENCCTR completes and moves neither the stream position nor the result. -/
theorem encCtr_completes {s : State} (hrk : s.HoldsRoundKeys) :
    ∃ t, s.encCtr = .next t ∧ FrameCtr s t ∧ t.seq.p = s.seq.p := by
  have hload := frameBlk_setSt s s.ctr.cnt
  obtain ⟨u, hu⟩ := encryptState_completes (hload.holdsRoundKeys hrk)
  have hall := hload.trans (encryptState_frame hu)
  refine ⟨u.storeSt 1, ?_, hall.toCtr.trans (frameCtr_storeSt u 1), by simp [hall.p]⟩
  rw [State.encCtr, loadSt_one, andThen_next, hu, andThen_next]

/-! ### A call with a missing byte is refused -/

/-- The loop of a call refuses at the first chunk with a byte that was never written. -/
theorem ctrLoop_refused {fuel : Nat} {s : State} {q : Nat} (hrk : s.HoldsRoundKeys)
    (hfuel : s.ops.dinDesc.len ≤ s.seq.p + 256 * fuel) (hp : s.seq.p ≤ q)
    (hq : q < s.ops.dinDesc.len) (hnone : Memory.byte? s.ops.din q = none) :
    ctrLoop fuel s = .refused .operandByteNeverWritten := by
  induction fuel generalizing s with
  | zero => omega
  | succ fuel ih =>
    obtain ⟨u, hu, hframe, hup⟩ := encCtr_completes hrk
    rw [ctrLoop, if_pos (by omega), ctrBlock, hu, andThen_next]
    rcases ksXor_cases (s := u) (by rw [hup, hframe.ops]; omega) with hx | ⟨v, hv, hvf, hvp, hbytes⟩
    · rw [hx, andThen_refused, andThen_refused]
    · have hall := (hframe.trans hvf).trans (frameCtr_incCtr v)
      have hpast : v.seq.p ≤ q := by
        by_contra hlt
        have hsome := hbytes q (by omega) (by omega)
        simp [hframe.ops, hnone] at hsome
      rw [hup, hframe.ops] at hvp
      rw [hv, andThen_next, andThen_next]
      apply ih (hall.holdsRoundKeys hrk)
      · rw [hall.ops, State.incCtr_seq]
        show _ ≤ v.seq.p + _
        omega
      · exact hpast
      · rw [hall.ops]
        exact hq
      · rw [hall.ops]
        exact hnone

/-- The bytes a call reads have all been written. -/
structure CallBytesWritten (o : Operands) : Prop where
  key : ∀ j, j < 256 → (Memory.byte? o.key j).isSome = true
  iv : ∀ j, j < 32 → (Memory.byte? o.iv j).isSome = true
  din : ∀ q, q < o.dinDesc.len → (Memory.byte? o.din q).isSome = true

/-- A call's procedure refuses where a byte it reads was never written: its key in KEYEXPAND, its IV in CTRINIT,
its input in the loop. -/
theorem ctrProcedure_refused {s : State} (h : ¬ CallBytesWritten s.ops) :
    s.ctrProcedure = .refused .operandByteNeverWritten := by
  unfold State.ctrProcedure
  by_cases hkey : ∀ j, j < 256 → (Memory.byte? s.ops.key j).isSome = true
  case neg => rw [expandKey_refused (readBytes_eq_none hkey), andThen_refused]
  obtain ⟨key, hkeyRead⟩ := exists_readBytes hkey
  obtain ⟨u, hu, huf, _, _, hrk⟩ := expandKey_eq hkeyRead
  rw [hu, andThen_next]
  by_cases hiv : ∀ j, j < 32 → (Memory.byte? s.ops.iv j).isSome = true
  case neg =>
    rw [ctrInit_refused (by simpa [huf.ops] using readBytes_eq_none hiv), andThen_refused]
  obtain ⟨iv, hivRead⟩ := exists_readBytes hiv
  obtain ⟨q, hq, hnone⟩ : ∃ q, q < s.ops.dinDesc.len ∧ Memory.byte? s.ops.din q = none := by
    by_contra hall
    push Not at hall
    exact h ⟨hkey, hiv, fun q hq => Option.isSome_iff_ne_none.mpr (hall q hq)⟩
  rw [ctrInit_eq (iv := iv) (by simpa [huf.ops] using hivRead), andThen_next,
    ctrLoop_refused (q := q), andThen_refused]
  · intro w hw
    have hw' : w ≤ s.ctx.rounds.toNat := by simpa [huf.ctx] using hw
    simp [hrk, hw']
  · simp [State.ctrIterations, huf.ops]
    omega
  · simp
  · simpa [huf.ops] using hq
  · simpa [huf.ops] using hnone

/-! ### The four commands -/

/-- `Validate` reports no error where both lengths are right (rule R202). -/
theorem validate_eq_none {s : State} (hkey : s.keyBad = false) (hiv : s.ivBad = false) :
    s.validate = none := by
  simp [State.validate, hkey, hiv]

/-- A host's KEYEXPAND in a context, with its descriptor written and its length right, is the expansion. -/
theorem execKeyexpand_eq {s : State} (hhost : s.ports.issuer = .host) (hctx : s.ctx.valid = true)
    (hdesc : s.ops.keyDesc.written = true) (hkey : s.keyBad = false) :
    execKeyexpand s = andThen s.expandKey fun s => .next s.complete := by
  simp [execKeyexpand, hhost, hctx, hdesc, hkey]

/-- A BLOCKENC admitted by the state, with its descriptor written and its length right, is the encryption. -/
theorem execBlockenc_eq {s : State} (hctx : s.ctx.valid = true) (hkeys : s.keys.valid = true)
    (hdesc : s.ops.dinDesc.written = true) (hlen : s.ops.dinDesc.len = 256) :
    execBlockenc s = andThen (s.allocateResult.loadSt 0) fun s =>
      andThen s.encryptState fun s => .next ((s.storeSt 0).endBlock.completeWithResult 256) := by
  simp [execBlockenc, hctx, hkeys, hdesc, hlen]

/-- A call in a context, with its descriptors written and its lengths right, is its procedure. -/
theorem ctrCall_eq {s : State} (hctx : s.ctx.valid = true)
    (hdesc : s.callDescriptorsWritten = true) (hvalid : s.validate = none) :
    s.ctrCall = andThen s.ctrProcedure fun t => .next (t.completeWithResult s.ops.dinDesc.len) := by
  simp [State.ctrCall, hctx, hdesc, hvalid]

/-- A call in a context is refused where a descriptor was never written. -/
theorem ctrCall_refused {s : State} (hctx : s.ctx.valid = true)
    (hdesc : s.callDescriptorsWritten = false) :
    s.ctrCall = .refused .descriptorNeverWritten := by
  simp [State.ctrCall, hctx, hdesc]

/-- Settles O51: before its checks a command refuses an unwritten descriptor, after them it reaches the read of
the byte that was never written. -/
theorem unwrittenOperandsRefused : Obligations.UnwrittenOperandsRefused := by
  intro s hhost hctx
  refine ⟨fun hdesc => ?_, fun hkeys hdesc => ?_, fun hdesc => ?_, ?_, ?_, ?_⟩
  · show execKeyexpand s = _
    simp [execKeyexpand, hhost, hctx, hdesc]
  · show execBlockenc s = _
    simp [execBlockenc, hctx, hkeys, hdesc]
  · have hcall : s.callDescriptorsWritten = false := by
      rcases hdesc with h | h | h
      all_goals simp [State.callDescriptorsWritten, h]
    exact ⟨ctrCall_refused hctx hcall, ctrCall_refused hctx hcall⟩
  · rintro hdesc ⟨j, hj, hnone⟩
    have hread : Memory.readBytes s.ops.key 0 256 = none :=
      readBytes_eq_none fun hall => Option.isSome_iff_ne_none.mp (hall j hj) hnone
    show execKeyexpand s = _
    rw [execKeyexpand_eq hhost hctx (by rw [hdesc]) (by simp [State.keyBad, hdesc]),
      expandKey_refused hread, andThen_refused]
  · rintro hkeys hdesc ⟨j, hj, hnone⟩
    have hread : Memory.readBytes s.ops.din 0 256 = none :=
      readBytes_eq_none fun hall => Option.isSome_iff_ne_none.mp (hall j hj) hnone
    show execBlockenc s = _
    rw [execBlockenc_eq hctx hkeys (by rw [hdesc]) (by rw [hdesc]),
      loadSt_zero_refused (by simpa using hread), andThen_refused]
  · intro hdesc hkeyBad hivBad hmissing
    have hbytes : ¬ CallBytesWritten s.ops := by
      intro hall
      rcases hmissing with ⟨j, hj, hnone⟩ | ⟨j, hj, hnone⟩ | ⟨q, hq, hnone⟩
      · exact Option.isSome_iff_ne_none.mp (hall.key j hj) hnone
      · exact Option.isSome_iff_ne_none.mp (hall.iv j hj) hnone
      · exact Option.isSome_iff_ne_none.mp (hall.din q hq) hnone
    have hcall : s.ctrCall = .refused .operandByteNeverWritten := by
      rw [ctrCall_eq hctx hdesc (validate_eq_none hkeyBad hivBad), ctrProcedure_refused hbytes,
        andThen_refused]
    exact ⟨hcall, hcall⟩

end Sys2Proof.Machine
end

section
/-! SUPPORT. What holds no value influences nothing that does (rules R46, R47 and R231): the relation that hiding
the residue stands for, part by part, and that each host command and each host access keeps it. The commands'
closed forms name all that their results depend on, and none of it is residue. -/

namespace Sys2Proof.Machine

open Sys2Proof.Safety

/-! ### States that differ in residue only -/

/-- The two states hold the same values wherever they hold a value. -/
structure SameVisible (s t : State) : Prop where
  ctxValid : s.ctx.valid = t.ctx.valid
  ctx : s.ctx.valid = true → s.ctx = t.ctx
  keysValid : s.keys.valid = t.keys.valid
  rk : s.keys.valid = true → s.keys.rk = t.keys.rk
  ops : s.ops = t.ops
  outValid : s.out.valid = t.out.valid
  out : s.out.valid = true → s.out = t.out
  err : s.err = t.err
  ports : s.ports = t.ports
  freeIndex : s.freeIndex = t.freeIndex

/-- Two values with a validity flag, each replaced by one invalid value where its flag is off, are equal exactly
where the flags are equal and, if the flags are on, the values. -/
theorem ite_valid_eq_iff {α : Type} {valid : α → Bool} {hidden : α} (hhidden : valid hidden = false)
    (a b : α) :
    ((if valid a then a else hidden) = if valid b then b else hidden) ↔
      valid a = valid b ∧ (valid a = true → a = b) := by
  cases ha : valid a with
  | false =>
    cases hb : valid b with
    | false => simp
    | true =>
      have hne : hidden ≠ b := fun h => by simp [← h, hhidden] at hb
      simpa using hne
  | true =>
    cases hb : valid b with
    | false =>
      have hne : a ≠ hidden := fun h => by simp [h, hhidden] at ha
      simpa using hne
    | true => simp

/-- Hiding the residue is comparing what holds a value. -/
theorem hideResidue_eq_iff {s t : State} : hideResidue s = hideResidue t ↔ SameVisible s t := by
  have hctxIff := ite_valid_eq_iff (valid := Context.valid) (hidden := State.reset.ctx) rfl s.ctx t.ctx
  have houtIff := ite_valid_eq_iff (valid := Result.valid) (hidden := State.reset.out) rfl s.out t.out
  constructor
  · intro h
    simp only [hideResidue, State.mk.injEq, KeyUnit.mk.injEq, true_and, and_true] at h
    obtain ⟨hctx, ⟨hrk, hkeysValid⟩, hops, hout, herr, hports, hfree⟩ := h
    obtain ⟨hctxValid, hctx⟩ := hctxIff.mp hctx
    obtain ⟨houtValid, hout⟩ := houtIff.mp hout
    refine ⟨hctxValid, hctx, hkeysValid, fun hv => ?_, hops, houtValid, hout, herr, hports, hfree⟩
    rwa [← hkeysValid, if_pos hv, if_pos hv] at hrk
  · intro h
    have hrk : (if t.keys.valid = true then s.keys.rk else [])
        = if t.keys.valid = true then t.keys.rk else [] := by
      split
      · next hv => exact h.rk (h.keysValid.trans hv)
      · rfl
    simp only [hideResidue, hctxIff.mpr ⟨h.ctxValid, h.ctx⟩, houtIff.mpr ⟨h.outValid, h.out⟩, hrk,
      h.keysValid, h.ops, h.err, h.ports, h.freeIndex]

/-- Next states that differ in residue only are outcomes that the host cannot tell apart. -/
theorem SameVisible.sameOutcome {s t : State} (h : SameVisible s t) :
    SameOutcome (.next s) (.next t) := hideResidue_eq_iff.mpr h

/-- The same stop is the same outcome. -/
theorem sameOutcome_refused (e : Refusal) : SameOutcome (.refused e) (.refused e) := rfl

/-! ### Updates that keep the relation -/

/-- Reporting an error keeps the relation. -/
theorem SameVisible.raise {s t : State} (h : SameVisible s t) (k : ErrKind) :
    SameVisible (s.raise k) (t.raise k) :=
  { h with outValid := rfl, out := nofun, err := rfl }

/-- Equal operands and ports keep the relation. -/
theorem SameVisible.withHost {s t : State} (h : SameVisible s t) {o o' : Operands} {p p' : Ports}
    (hops : o = o') (hports : p = p') :
    SameVisible { s with ops := o, ports := p } { t with ops := o', ports := p' } :=
  { h with ops := hops, ports := hports }

/-- The state in which an error of `Validate` is raised keeps the relation. -/
theorem SameVisible.validated {s t : State} (h : SameVisible s t) :
    SameVisible s.validated t.validated := by
  have hbad : (t.keyBad && t.ivBad) = (s.keyBad && s.ivBad) := by
    simp only [State.keyBad, State.ivBad, h.ops]
  unfold State.validated
  rw [hbad]
  split
  · exact { h with freeIndex := congrArg (· + 1) h.freeIndex }
  · exact h

/-- `Validate` reads the descriptors and the free choice only. -/
theorem SameVisible.validate_eq {s t : State} (h : SameVisible s t) : t.validate = s.validate := by
  simp only [State.validate, State.keyBad, State.ivBad, h.ops, h.freeIndex]

/-- A context that is valid is the same in both states. -/
theorem SameVisible.ctx_eq {s t : State} (h : SameVisible s t) (hctx : s.ctx.valid = true) :
    t.ctx = s.ctx := (h.ctx hctx).symm

/-! ### The host's commands -/

theorem sameOutcome_raise {s t : State} (h : SameVisible s t) (k : ErrKind) :
    SameOutcome (.next (s.raise k)) (.next (t.raise k)) := (h.raise k).sameOutcome

/-- A sequencer-only operation raises in both states. -/
theorem sameOutcome_seqOnly {s t : State} (h : SameVisible s t) (hhost : s.ports.issuer = .host)
    (a b : Res) : SameOutcome (s.seqOnly a) (t.seqOnly b) := by
  rw [seqOnly_host a hhost, seqOnly_host b (h.ports ▸ hhost)]
  exact sameOutcome_raise h _

theorem sameOutcome_execConstruct {s t : State} (h : SameVisible s t) (r : BitVec 16) :
    SameOutcome (execConstruct r s) (execConstruct r t) := by
  unfold execConstruct
  rw [← h.ctxValid]
  split
  · exact sameOutcome_raise h _
  split
  · exact sameOutcome_raise h _
  · exact SameVisible.sameOutcome { h with
      ctxValid := rfl, ctx := fun _ => rfl, outValid := rfl, out := nofun, err := rfl }

theorem sameOutcome_execRelease {s t : State} (h : SameVisible s t)
    (hhost : s.ports.issuer = .host) : SameOutcome (execRelease s) (execRelease t) := by
  unfold execRelease
  simp only [hhost, ← h.ports, ← h.ctxValid]
  split
  · exact sameOutcome_raise h _
  · exact SameVisible.sameOutcome { h with
      keysValid := rfl, rk := nofun, outValid := rfl, out := nofun, err := rfl }

/-- KEYEXPAND computes its round keys from the context and the key (rule R148). -/
theorem sameOutcome_execKeyexpand {s t : State} (h : SameVisible s t)
    (hhost : s.ports.issuer = .host) : SameOutcome (execKeyexpand s) (execKeyexpand t) := by
  unfold execKeyexpand
  have hbad : t.keyBad = s.keyBad := by simp only [State.keyBad, h.ops]
  simp only [hhost, ← h.ports, ← h.ctxValid, ← h.ops, hbad]
  split
  · exact sameOutcome_raise h _
  next hvalid =>
  have hctx := h.ctx_eq (by simpa using hvalid)
  split
  · exact sameOutcome_refused _
  split
  · exact sameOutcome_raise h _
  by_cases hkey : ∀ j, j < 256 → (Memory.byte? s.ops.key j).isSome = true
  case neg =>
    rw [expandKey_refused (readBytes_eq_none hkey),
      expandKey_refused (readBytes_eq_none (h.ops ▸ hkey))]
    exact sameOutcome_refused _
  obtain ⟨key, hread⟩ := exists_readBytes hkey
  obtain ⟨u, hu, huf, huv, huw, hurk⟩ := expandKey_eq hread
  obtain ⟨v, hv, hvf, hvv, hvw, hvrk⟩ := expandKey_eq (h.ops ▸ hread)
  have hrk : u.keys.rk = v.keys.rk :=
    Store.ext_of_wf huw hvw fun w => by rw [hurk, hvrk, hctx]
  rw [hu, hv, andThen_next, andThen_next]
  refine SameVisible.sameOutcome ⟨?_, fun _ => ?_, huv.trans hvv.symm, fun _ => hrk, ?_, rfl, nofun,
    rfl, ?_, ?_⟩
  · simp [huf.ctx, hvf.ctx, hctx]
  · simp [huf.ctx, hvf.ctx, hctx]
  · simp [huf.ops, hvf.ops, h.ops]
  · simp [huf.ports, hvf.ports, h.ports]
  · simp [huf.freeIndex, hvf.freeIndex, h.freeIndex]

/-- At a command boundary with expanded keys every round key holds a value. -/
theorem exists_roundKeys {s : State} (h : BoundaryInv s) (hkeys : s.keys.valid = true) :
    ∃ rk : Nat → Block, ∀ w, w ≤ s.ctx.rounds.toNat → Store.read s.keys.rk w = some (rk w) := by
  refine ⟨fun w => (Store.read s.keys.rk w).getD zeroBlock, fun w hw => ?_⟩
  obtain ⟨key, hkey⟩ := Option.isSome_iff_exists.mp ((h.roundKeys w).mpr ⟨hkeys, hw⟩)
  simp [hkey]

/-- BLOCKENC computes its result from the context, the round keys and the input block (rule R161). -/
theorem sameOutcome_execBlockenc {s t : State} (hs : BoundaryInv s) (h : SameVisible s t) :
    SameOutcome (execBlockenc s) (execBlockenc t) := by
  unfold execBlockenc
  rw [← h.ctxValid, ← h.keysValid, ← h.ops]
  split
  · exact sameOutcome_raise h _
  next hadmitted =>
  obtain ⟨hvalid, hkeys⟩ : s.ctx.valid = true ∧ s.keys.valid = true := by simpa using hadmitted
  have hctx := h.ctx_eq hvalid
  split
  · exact sameOutcome_refused _
  split
  · exact sameOutcome_raise h _
  by_cases hdin : ∀ j, j < 256 → (Memory.byte? s.ops.din j).isSome = true
  case neg =>
    have hread := readBytes_eq_none hdin
    rw [loadSt_zero_refused (s := s.allocateResult) hread,
      loadSt_zero_refused (s := t.allocateResult) (h.ops ▸ hread)]
    exact sameOutcome_refused _
  obtain ⟨block, hread⟩ := exists_readBytes hdin
  obtain ⟨rk, hrk⟩ := exists_roundKeys hs hkeys
  have hperm := perm_eq_buildPerm hs.context hvalid
  obtain ⟨u, hu, huf, hust⟩ := encryptState_eq (s := s.allocateResult.setSt block) rk hperm hrk
  obtain ⟨v, hv, hvf, hvst⟩ := encryptState_eq (s := t.allocateResult.setSt block) rk
    (hctx ▸ hperm) (by simpa [hctx, ← h.rk hkeys] using hrk)
  have hst : u.blk.st = v.blk.st := by rw [hust, hvst]; simp [hctx]
  rw [loadSt_zero_eq (s := s.allocateResult) hread,
    loadSt_zero_eq (s := t.allocateResult) (h.ops ▸ hread), andThen_next, andThen_next, hu, hv,
    andThen_next, andThen_next]
  refine SameVisible.sameOutcome ⟨?_, fun _ => ?_, ?_, fun _ => ?_, ?_, rfl, fun _ => ?_, rfl, ?_, ?_⟩
  · simp [huf.ctx, hvf.ctx, hctx]
  · simp [huf.ctx, hvf.ctx, hctx]
  · simp [huf.keys, hvf.keys, h.keysValid]
  · simp [huf.keys, hvf.keys, h.rk hkeys]
  · simp [huf.ops, hvf.ops, h.ops]
  · simp [huf.out, hvf.out, hst]
  · simp [huf.ports, hvf.ports, h.ports]
  · simp [huf.freeIndex, hvf.freeIndex, h.freeIndex]

/-- A call computes its result from the context and the operands (rule R214). -/
theorem sameOutcome_ctrCall {s t : State} (hs : BoundaryInv s) (h : SameVisible s t) :
    SameOutcome s.ctrCall t.ctrCall := by
  unfold State.ctrCall
  have hdesc : t.callDescriptorsWritten = s.callDescriptorsWritten := by
    simp only [State.callDescriptorsWritten, h.ops]
  rw [← h.ctxValid, hdesc, h.validate_eq, ← h.ops]
  split
  · exact sameOutcome_raise h _
  next hvalid =>
  have hvalid : s.ctx.valid = true := by simpa using hvalid
  have hctx := h.ctx_eq hvalid
  split
  · exact sameOutcome_refused _
  split
  · exact sameOutcome_raise h.validated _
  by_cases hbytes : CallBytesWritten s.ops
  case neg =>
    rw [ctrProcedure_refused hbytes, ctrProcedure_refused (h.ops ▸ hbytes)]
    exact sameOutcome_refused _
  obtain ⟨key, hkey⟩ := exists_readBytes hbytes.key
  obtain ⟨iv, hiv⟩ := exists_readBytes hbytes.iv
  have hperm := perm_eq_buildPerm hs.context hvalid
  obtain ⟨u, hu, hudone⟩ := ctrProcedure_eq hkey hiv hperm hbytes.din
  obtain ⟨v, hv, hvdone⟩ := ctrProcedure_eq (s := t) (h.ops ▸ hkey) (h.ops ▸ hiv) (hctx ▸ hperm)
    (h.ops ▸ hbytes.din)
  obtain ⟨huctx, huops, _, huports, hufree, _, huvalid, huwf, _⟩ := ctrProcedure_frame hu
  obtain ⟨hvctx, hvops, _, hvports, hvfree, _, hvvalid, hvwf, _⟩ := ctrProcedure_frame hv
  have hdout : u.out.dout = v.out.dout :=
    Store.ext_of_wf huwf hvwf fun q => by
      have hq := hudone q
      have hq' := hvdone q
      rw [hctx, ← h.ops] at hq'
      exact hq.trans hq'.symm
  rw [hu, hv, andThen_next, andThen_next]
  refine SameVisible.sameOutcome ⟨?_, fun _ => ?_, ?_, ?_, ?_, rfl, fun _ => ?_, rfl, ?_, ?_⟩
  · simp [huctx, hvctx, hctx]
  · simp [huctx, hvctx, hctx]
  · simp [huvalid, hvvalid]
  · simp [huvalid]
  · simp [huops, hvops, h.ops]
  · simp [hdout]
  · simp [huports, hvports, h.ports]
  · simp [hufree, hvfree, h.freeIndex]

/-- An operation issued by the host at a command boundary keeps the relation, or stops in both states alike. -/
theorem sameOutcome_exec {s t : State} (hs : BoundaryInv s) (h : SameVisible s t)
    (hhost : s.ports.issuer = .host) (i : Instr) : SameOutcome (exec i s) (exec i t) := by
  cases i with
  | construct r => exact sameOutcome_execConstruct h r
  | encrypt => exact sameOutcome_ctrCall hs h
  | decrypt => exact sameOutcome_ctrCall hs h
  | release => exact sameOutcome_execRelease h hhost
  | keyexpand => exact sameOutcome_execKeyexpand h hhost
  | blockenc => exact sameOutcome_execBlockenc hs h
  | _ => exact sameOutcome_seqOnly h hhost _ _

/-! ### The host's accesses -/

/-- What a host read returns holds a value (rule R46). -/
theorem SameVisible.registerValue_eq {s t : State} (h : SameVisible s t) (reg : Nat) :
    t.registerValue reg = s.registerValue reg := by
  have hstatus : t.status = s.status := by
    simp only [State.status, State.errCode, h.err, h.outValid, h.keysValid, h.ctxValid]
  have hlen : (if t.out.valid = true then some (HostRead.doutLen t.out.len) else none)
      = if s.out.valid = true then some (.doutLen s.out.len) else none := by
    rw [← h.outValid]
    split
    · next hv => rw [h.out hv]
    · rfl
  have hcfg : (if t.ctx.valid = true then some (HostRead.cfgR t.ctx.rounds) else none)
      = if s.ctx.valid = true then some (.cfgR s.ctx.rounds) else none := by
    rw [← h.ctxValid]
    split
    · next hv => rw [h.ctx hv]
    · rfl
  rw [State.registerValue, State.registerValue, hstatus, hlen, hcfg]

theorem SameVisible.spaceBytes_eq {s t : State} (h : SameVisible s t) (sp : Space) (addr n : Nat) :
    t.spaceBytes sp addr n = s.spaceBytes sp addr n := by
  unfold State.spaceBytes
  cases hout : s.out.valid with
  | false => simp [← h.outValid, hout]
  | true => rw [← h.out hout, hout]

theorem sameOutcome_deliver {s t : State} (h : SameVisible s t) (v : Option HostRead) :
    SameOutcome (s.deliver v) (t.deliver v) := by
  cases v with
  | none => exact sameOutcome_refused _
  | some r =>
    exact (h.withHost h.ops (by rw [h.ports])).sameOutcome

theorem sameOutcome_writeRegister {s t : State} (h : SameVisible s t) (reg : Nat) (d : RegData) :
    SameOutcome (s.writeRegister reg d) (t.writeRegister reg d) := by
  unfold State.writeRegister
  split
  · exact (h.withHost (by rw [h.ops]) h.ports).sameOutcome
  · exact (h.withHost (by rw [h.ops]) h.ports).sameOutcome
  · exact (h.withHost (by rw [h.ops]) h.ports).sameOutcome
  · exact sameOutcome_refused _

theorem sameOutcome_writeSpace {s t : State} (h : SameVisible s t) (sp : Space) (addr : Nat)
    (bytes : List Byte) : SameOutcome (s.writeSpace sp addr bytes) (t.writeSpace sp addr bytes) := by
  unfold State.writeSpace
  split
  · exact (h.withHost (by rw [h.ops]) h.ports).sameOutcome
  · exact (h.withHost (by rw [h.ops]) h.ports).sameOutcome
  · exact (h.withHost (by rw [h.ops]) h.ports).sameOutcome
  · exact sameOutcome_refused _

/-- The reset event leaves nothing of the state but what is the model's own. -/
theorem sameOutcome_resetEvent {s t : State} (h : SameVisible s t) :
    SameOutcome (.next s.resetEvent) (.next t.resetEvent) :=
  SameVisible.sameOutcome ⟨rfl, fun _ => rfl, rfl, fun _ => rfl, rfl, rfl, fun _ => rfl, rfl, h.ports,
    h.freeIndex⟩

theorem sameOutcome_hostCommand {s t : State} (hs : BoundaryInv s) (h : SameVisible s t)
    (w : Word32) : SameOutcome (s.hostCommand w) (t.hostCommand w) := by
  have hissued : SameVisible (s.issuedBy .host) (t.issuedBy .host) :=
    h.withHost h.ops (by rw [h.ports])
  have hboundary : BoundaryInv (s.issuedBy .host) := boundaryInv_of_ports hs hs.idle
  cases hd : decode w with
  | ok i =>
    rw [hostCommand_ok hd, hostCommand_ok hd]
    exact sameOutcome_exec hboundary hissued rfl i
  | error e =>
    rw [hostCommand_error hd, hostCommand_error hd]
    exact sameOutcome_raise hissued _

theorem sameOutcome_hostAct {s t : State} (hs : BoundaryInv s) (h : SameVisible s t)
    (a : HostAction) : SameOutcome (s.hostAct a) (t.hostAct a) := by
  unfold State.hostAct
  split
  · exact sameOutcome_hostCommand hs h _
  · exact sameOutcome_writeRegister h _ _
  · rw [h.registerValue_eq]
    exact sameOutcome_deliver h _
  · exact sameOutcome_writeSpace h _ _ _
  · rw [h.spaceBytes_eq]
    exact sameOutcome_deliver h _
  · exact sameOutcome_resetEvent h

/-- Settles O60: at a command boundary the host acts next, and each of its actions keeps the relation. -/
theorem residueIsUnobservable : Obligations.ResidueIsUnobservable := by
  intro s t hs ht hhide
  have h := hideResidue_eq_iff.mp hhide
  cases ha : s.ports.hostActions with
  | nil =>
    rw [step_idle hs.idle ha, step_idle ht.idle (h.ports ▸ ha)]
    exact h.sameOutcome
  | cons a rest =>
    have hawaiting : SameVisible (s.awaiting rest) (t.awaiting rest) :=
      h.withHost h.ops (by rw [h.ports])
    have hboundary : BoundaryInv (s.awaiting rest) := boundaryInv_of_ports hs hs.idle
    rw [step_hostAct hs.idle ha, step_hostAct ht.idle (h.ports ▸ ha)]
    exact sameOutcome_hostAct hboundary hawaiting a

end Sys2Proof.Machine
end

section
/-! SUPPORT. Nothing that the host does ends in a fault (rules R73 and R261): every index of a round key that a host
command forms lies in `0 .. R`, and the stream position of a call never passes the end of the input. The shared
accesses come first, then the steps of a call, then one lemma per host command. -/

namespace Sys2Proof.Machine

/-! ### Reads of operands fault only in what uses them -/

theorem withIv_eq_fault {s : State} {use : List Byte → Res} {e : Fault}
    (h : s.withIv use = .fault e) : ∃ l, use l = .fault e := by
  unfold State.withIv at h
  split at h
  · cases h
  · next l _ => exact ⟨l, h⟩

theorem withDin_eq_fault {s : State} {addr n : Nat} {use : List Byte → Res} {e : Fault}
    (h : s.withDin addr n use = .fault e) : ∃ l, use l = .fault e := by
  unfold State.withDin at h
  split at h
  · cases h
  · next l _ => exact ⟨l, h⟩

/-- A sequencer-only operation raises for the host, whatever its effect would do. -/
theorem seqOnly_no_fault {s : State} (hhost : s.ports.issuer = .host) (effect : Res) (e : Fault) :
    s.seqOnly effect ≠ .fault e := by
  rw [seqOnly_host effect hhost]
  exact nofun

/-! ### The steps of a call -/

theorem ctrInit_no_fault (s : State) (e : Fault) : s.ctrInit ≠ .fault e := by
  intro h
  obtain ⟨_, h⟩ := withIv_eq_fault h
  cases h

theorem loadSt_no_fault (s : State) (sel : Nat) (e : Fault) : s.loadSt sel ≠ .fault e := by
  intro h
  unfold State.loadSt at h
  split at h
  · obtain ⟨_, h⟩ := withDin_eq_fault h
    cases h
  · cases h

theorem encCtr_no_fault (s : State) (e : Fault) : s.encCtr ≠ .fault e := by
  intro h
  rcases andThen_eq_fault.mp h with h | ⟨u, _, h⟩
  · exact loadSt_no_fault s 1 e h
  rcases andThen_eq_fault.mp h with h | ⟨v, _, h⟩
  · exact encryptState_no_fault u e h
  · cases h

/-- ENCCTR does not move the stream position. -/
theorem encCtr_streamPosition {s t : State} (h : s.encCtr = .next t) : t.seq.p = s.seq.p := by
  rw [State.encCtr, loadSt_one, andThen_next] at h
  obtain ⟨u, hu, h⟩ := andThen_eq_next.mp h
  cases h
  have hall := (frameBlk_setSt s s.ctr.cnt).trans (encryptState_frame hu)
  rw [State.storeSt_seq, hall.p]

/-- The range rule R36 gives the stream position: "`P` never exceeds `len(DIN)`". -/
def State.StreamInRange (s : State) : Prop := s.seq.p ≤ s.ops.dinDesc.len

theorem encCtr_streamInRange {s t : State} (h : s.encCtr = .next t) (hs : s.StreamInRange) :
    t.StreamInRange := by
  rw [State.StreamInRange, encCtr_streamPosition h, (encCtr_frame h).1.ops]
  exact hs

/-- A KSXOR inside the input does not fault. -/
theorem ksXor_no_fault {s : State} (hs : s.StreamInRange) (e : Fault) : s.ksXor ≠ .fault e := by
  rcases ksXor_cases hs with h | ⟨t, h, _⟩
  · rw [h]; exact nofun
  · rw [h]; exact nofun

/-- A KSXOR inside the input ends inside it: its chunk is cut at the input's length (rule R209). -/
theorem ksXor_streamInRange {s t : State} (h : s.ksXor = .next t) : t.StreamInRange := by
  obtain ⟨hp, _, _, rfl⟩ := ksXor_eq_next h
  simp only [State.StreamInRange, State.setP_seq, State.setP_ops, State.setN_ops, State.setDout_ops]
  omega

theorem ctrBlock_no_fault {s : State} (hs : s.StreamInRange) (e : Fault) :
    ctrBlock s ≠ .fault e := by
  intro h
  rcases andThen_eq_fault.mp h with h | ⟨u, hu, h⟩
  · exact encCtr_no_fault s e h
  rcases andThen_eq_fault.mp h with h | ⟨v, _, h⟩
  · exact ksXor_no_fault (encCtr_streamInRange hu hs) e h
  · cases h

theorem ctrBlock_streamInRange {s t : State} (h : ctrBlock s = .next t) : t.StreamInRange := by
  obtain ⟨_, _, h⟩ := andThen_eq_next.mp h
  obtain ⟨_, hv, h⟩ := andThen_eq_next.mp h
  cases h
  simpa [State.StreamInRange] using ksXor_streamInRange hv

/-- The loop of a call does not fault from a stream position inside the input. -/
theorem ctrLoop_no_fault {fuel : Nat} {s : State} (hs : s.StreamInRange) (e : Fault) :
    ctrLoop fuel s ≠ .fault e := by
  induction fuel generalizing s with
  | zero => exact nofun
  | succ fuel ih =>
    intro h
    unfold ctrLoop at h
    split at h
    · rcases andThen_eq_fault.mp h with h | ⟨u, hu, h⟩
      · exact ctrBlock_no_fault hs e h
      · exact ih (ctrBlock_streamInRange hu) h
    · cases h

theorem ctrProcedure_no_fault (s : State) (e : Fault) : s.ctrProcedure ≠ .fault e := by
  intro h
  rcases andThen_eq_fault.mp h with h | ⟨u, _, h⟩
  · exact expandKey_no_fault s e h
  rcases andThen_eq_fault.mp h with h | ⟨v, _, h⟩
  · exact ctrInit_no_fault _ e h
  rcases andThen_eq_fault.mp h with h | ⟨w, _, h⟩
  · exact ctrLoop_no_fault (s := v.setP 0) (Nat.zero_le _) e h
  · cases h

/-! ### The host's commands -/

theorem execConstruct_no_fault (r : BitVec 16) (s : State) (e : Fault) :
    execConstruct r s ≠ .fault e := by
  unfold execConstruct
  split
  · exact nofun
  split
  · exact nofun
  · exact nofun

theorem ctrCall_no_fault (s : State) (e : Fault) : s.ctrCall ≠ .fault e := by
  unfold State.ctrCall
  split
  · exact nofun
  split
  · exact nofun
  split
  · exact nofun
  intro h
  rcases andThen_eq_fault.mp h with h | ⟨_, _, h⟩
  · exact ctrProcedure_no_fault s e h
  · cases h

theorem execRelease_no_fault (s : State) (e : Fault) : execRelease s ≠ .fault e := by
  unfold execRelease
  split
  · exact nofun
  split
  · exact nofun
  · exact nofun

theorem execKeyexpand_no_fault (s : State) (e : Fault) : execKeyexpand s ≠ .fault e := by
  unfold execKeyexpand
  split
  · exact expandKey_no_fault s e
  split
  · exact nofun
  split
  · exact nofun
  split
  · exact nofun
  intro h
  rcases andThen_eq_fault.mp h with h | ⟨_, _, h⟩
  · exact expandKey_no_fault s e h
  · cases h

theorem execBlockenc_no_fault (s : State) (e : Fault) : execBlockenc s ≠ .fault e := by
  unfold execBlockenc
  split
  · exact nofun
  split
  · exact nofun
  split
  · exact nofun
  intro h
  rcases andThen_eq_fault.mp h with h | ⟨u, _, h⟩
  · exact loadSt_no_fault _ 0 e h
  rcases andThen_eq_fault.mp h with h | ⟨_, _, h⟩
  · exact encryptState_no_fault u e h
  · cases h

/-- No operation that the host issues faults: the six it may issue form indices in range only, and every other
one raises. -/
theorem exec_no_fault {s : State} (hhost : s.ports.issuer = .host) (i : Instr) (e : Fault) :
    exec i s ≠ .fault e := by
  cases i with
  | construct r => exact execConstruct_no_fault r s e
  | encrypt => exact ctrCall_no_fault s e
  | decrypt => exact ctrCall_no_fault s e
  | release => exact execRelease_no_fault s e
  | keyexpand => exact execKeyexpand_no_fault s e
  | blockenc => exact execBlockenc_no_fault s e
  | _ => exact seqOnly_no_fault hhost _ e

/-! ### The host's actions -/

theorem hostCommand_no_fault (s : State) (w : Word32) (e : Fault) : s.hostCommand w ≠ .fault e := by
  cases hd : decode w with
  | ok i =>
    rw [hostCommand_ok hd]
    exact exec_no_fault rfl i e
  | error r =>
    rw [hostCommand_error hd]
    exact nofun

theorem deliver_no_fault (s : State) (v : Option HostRead) (e : Fault) : s.deliver v ≠ .fault e := by
  cases v with
  | none => exact nofun
  | some r => exact nofun

theorem writeRegister_no_fault (s : State) (reg : Nat) (d : RegData) (e : Fault) :
    s.writeRegister reg d ≠ .fault e := by
  unfold State.writeRegister
  split
  all_goals exact nofun

theorem writeSpace_no_fault (s : State) (sp : Space) (addr : Nat) (bytes : List Byte) (e : Fault) :
    s.writeSpace sp addr bytes ≠ .fault e := by
  unfold State.writeSpace
  split
  all_goals exact nofun

theorem hostAct_no_fault (s : State) (a : HostAction) (e : Fault) : s.hostAct a ≠ .fault e := by
  unfold State.hostAct
  split
  · exact hostCommand_no_fault s _ e
  · exact writeRegister_no_fault s _ _ e
  · exact deliver_no_fault s _ e
  · exact writeSpace_no_fault s _ _ _ e
  · exact deliver_no_fault s _ e
  · exact nofun

/-- Settles O58: with the sequencer idle a step is an action of the host or the platform, or nothing. -/
theorem hostStepsNeverFault : Obligations.HostStepsNeverFault := by
  intro s e hidle
  cases ha : s.ports.hostActions with
  | nil =>
    rw [step_idle hidle ha]
    exact nofun
  | cons a rest =>
    rw [step_hostAct hidle ha]
    exact hostAct_no_fault _ a e

end Sys2Proof.Machine
end

section
/-! SUPPORT. The bit rotation of a buffer as the rotation of a bit string: the buffer's bits, byte 0 least significant
(rule R64), form one string of `8·n` bits, and `RotlBits` rotates that string left (rule R175). -/

namespace Sys2Proof.Machine

/-- Bit `p` of a little-endian number is bit `p mod 8` of its byte `p div 8`. -/
theorem testBit_sum_bytes {n : Nat} (f : Fin n → Byte) (p : Nat) :
    (∑ i : Fin n, (f i).toNat * 2 ^ (8 * i.val)).testBit p =
      if h : p / 8 < n then (f ⟨p / 8, h⟩).getLsbD (p % 8) else false := by
  induction n generalizing p with
  | zero => simp
  | succ n ih =>
    have hsplit : ∑ i : Fin (n + 1), (f i).toNat * 2 ^ (8 * i.val) =
        2 ^ 8 * (∑ i : Fin n, (f i.succ).toNat * 2 ^ (8 * i.val)) + (f 0).toNat := by
      rw [Fin.sum_univ_succ, Finset.mul_sum, Nat.add_comm]
      congr 1
      · refine Finset.sum_congr rfl fun i _ => ?_
        rw [Fin.val_succ, Nat.mul_succ, Nat.pow_add]
        ring
      · simp
    rw [hsplit, Nat.testBit_two_pow_mul_add _ (f 0).isLt]
    by_cases hp : p < 8
    · have hdiv : p / 8 = 0 := by omega
      simp [hp, hdiv, Nat.mod_eq_of_lt hp, BitVec.getLsbD]
    · obtain ⟨q, rfl⟩ : ∃ q, p = q + 8 := ⟨p - 8, by omega⟩
      simp [ih (fun i => f i.succ) q]

/-- The bits of a buffer as one string, byte 0 least significant (rule R64). -/
def bitString {n : Nat} (data : Vector Byte n) : BitVec (8 * n) :=
  BitVec.ofNat (8 * n) (Reference.littleEndianValue data)

/-- The bit string of a buffer stands for the buffer's little-endian value. -/
theorem toNat_bitString {n : Nat} (data : Vector Byte n) :
    (bitString data).toNat = Reference.littleEndianValue data := by
  rw [bitString, BitVec.toNat_ofNat]
  refine Nat.mod_eq_of_lt (Nat.lt_pow_two_of_testBit _ fun p hp => ?_)
  rw [Reference.littleEndianValue, testBit_sum_bytes (fun i => data[i]), dif_neg (by omega)]

/-- Bit `b` of byte `i` is bit `8·i + b` of the string. -/
theorem getLsbD_bitString {n i b : Nat} (data : Vector Byte n) (hi : i < n) (hb : b < 8) :
    (bitString data).getLsbD (8 * i + b) = data[i].getLsbD b := by
  have hdiv : (8 * i + b) / 8 = i := by omega
  have hmod : (8 * i + b) % 8 = b := by omega
  rw [BitVec.getLsbD, toNat_bitString, Reference.littleEndianValue,
    testBit_sum_bytes (fun i => data[i]), dif_pos (by omega)]
  simp only [hdiv, hmod, Fin.getElem_fin]

/-- Stepping `b` places down in a ring of `n`, with and without passing 0. -/
theorem ring_sub {n a b : Nat} (ha : a < n) (hb : b ≤ n) :
    (b ≤ a → (a + n - b) % n = a - b) ∧ (a < b → (a + n - b) % n = a + n - b) := by
  refine ⟨fun hle => ?_, fun hlt => Nat.mod_eq_of_lt (by omega)⟩
  have hsum : a + n - b = a - b + n := by omega
  rw [hsum, Nat.add_mod_right, Nat.mod_eq_of_lt (by omega)]

/-- Byte `i` of a rotated buffer, bit by bit (rule R174): its low bits are the high bits of the source byte's lower
neighbour, the others come from the source byte. -/
theorem getLsbD_getElem_rotlBits {n i b src prev : Nat} (data : Vector Byte n) (k : Nat) (hi : i < n)
    (hb : b < 8) (hsrc : (i + n - k % (8 * n) / 8) % n = src) (hprev : (src + n - 1) % n = prev)
    (hsrcLt : src < n) (hprevLt : prev < n) :
    (rotlBits data k)[i].getLsbD b =
      if b < k % (8 * n) % 8 then data[prev].getLsbD (b + 8 - k % (8 * n) % 8)
      else data[src].getLsbD (b - k % (8 * n) % 8) := by
  subst hsrc hprev
  unfold rotlBits
  split
  · next h0 => simp [h0, Nat.mod_eq_of_lt hi]
  rw [getElem_tab]
  have hshift : k % (8 * n) % 8 < 8 := Nat.mod_lt _ (by decide)
  generalize k % (8 * n) % 8 = shift at hshift ⊢
  dsimp only
  split
  · next h0 => simp [h0]
  rw [BitVec.getLsbD_or, BitVec.getLsbD_shiftLeft, BitVec.getLsbD_ushiftRight]
  by_cases hlow : b < shift
  · have hpos : 8 - shift + b = b + 8 - shift := by omega
    simp [hlow, hpos]
  · have hout : 8 ≤ 8 - shift + b := by omega
    simp [hlow, hb, BitVec.getLsbD_of_ge _ _ hout]

/-- `RotlBits` rotates the bit string left (rule R175). -/
theorem bitString_rotlBits {n : Nat} (data : Vector Byte n) (k : Nat) :
    bitString (rotlBits data k) = (bitString data).rotateLeft k := by
  apply BitVec.eq_of_getLsbD_eq
  intro p hp
  obtain ⟨i, b, hi, hb, rfl⟩ : ∃ i b, i < n ∧ b < 8 ∧ p = 8 * i + b :=
    ⟨p / 8, p % 8, by omega, by omega, by omega⟩
  have hK : k % (8 * n) < 8 * n := Nat.mod_lt _ (by omega)
  have hsrc := ring_sub hi (b := k % (8 * n) / 8) (by omega)
  have hsrcLt : (i + n - k % (8 * n) / 8) % n < n := Nat.mod_lt _ (by omega)
  have hprev := ring_sub hsrcLt (b := 1) (by omega)
  have hprevLt := Nat.mod_lt ((i + n - k % (8 * n) / 8) % n + n - 1) (y := n) (by omega)
  rw [getLsbD_bitString _ hi hb,
    getLsbD_getElem_rotlBits data k hi hb rfl rfl hsrcLt hprevLt, BitVec.getLsbD_rotateLeft]
  generalize (i + n - k % (8 * n) / 8) % n = src at *
  generalize (src + n - 1) % n = prev at *
  generalize k % (8 * n) = K at *
  simp only [cond_eq_ite, decide_eq_true_eq, decide_eq_true hp, Bool.true_and]
  -- Both sides are one bit of the string each; the positions agree, wherever the two rings pass 0.
  by_cases hlow : b < K % 8
  · rw [if_pos hlow, ← getLsbD_bitString data hprevLt (by omega)]
    split
    all_goals congr 1; omega
  · rw [if_neg hlow, ← getLsbD_bitString data hsrcLt (by omega)]
    split
    all_goals congr 1; omega

/-- The integer reading of a left rotation of `w` bits by `k`: the low part moves up, the high part comes in below. -/
theorem toNat_rotateLeft_eq_add {w : Nat} (x : BitVec w) (k : Nat) :
    (x.rotateLeft k).toNat = x.toNat * 2 ^ (k % w) % 2 ^ w + x.toNat / 2 ^ (w - k % w) := by
  rcases Nat.eq_zero_or_pos w with rfl | hw
  · simp [BitVec.of_length_zero]
  have hk : k % w < w := Nat.mod_lt _ hw
  have hpow : 2 ^ w = 2 ^ (w - k % w) * 2 ^ (k % w) := by
    rw [← Nat.pow_add, Nat.sub_add_cancel hk.le]
  have hhigh : x.toNat / 2 ^ (w - k % w) < 2 ^ (k % w) :=
    Nat.div_lt_of_lt_mul (hpow ▸ x.isLt)
  have hmod : x.toNat * 2 ^ (k % w) % 2 ^ w = 2 ^ (k % w) * (x.toNat % 2 ^ (w - k % w)) := by
    rw [hpow, Nat.mul_mod_mul_right, Nat.mul_comm]
  rw [BitVec.toNat_rotateLeft, Nat.shiftLeft_eq, Nat.shiftRight_eq_div_pow, hmod,
    Nat.two_pow_add_eq_or_of_lt hhigh]

/-- Settles O35: the integer reading is that of the bit string, and the byte loop reads `k` modulo `8·n` only
(rule R173). -/
theorem rotationIsIntegerRotation : Obligations.RotationIsIntegerRotation := by
  intro n data k _
  refine ⟨?_, ?_, ?_⟩
  · rw [← toNat_bitString, ← toNat_bitString, bitString_rotlBits, toNat_rotateLeft_eq_add]
  · simp only [rotlBits, Nat.add_mod_right]
  · simp only [rotlBits, Nat.mod_self, if_true]

end Sys2Proof.Machine
end

section
/-! SUPPORT. The command word and its operation (30_encoding.md): an operation and the row that `rowOf` selects for it
have the same opcode and immediate, a word is its three fields, and a word decodes exactly where it passes the checks of
rule R91. The statements of this file are read off these laws. -/

namespace Sys2Proof

/-! ### The rows of the opcode map (rule R93) -/

/-- The row of an operation's opcode is that operation. -/
theorem rowOf_opcode_imm16 (i : Instr) : rowOf i.opcode i.imm16 = some i := by
  cases i
  all_goals rfl

/-- An operation that takes no immediate has the immediate 0 (rule R92). -/
theorem imm16_of_takesImmediate_false {i : Instr} (h : i.takesImmediate = false) :
    i.imm16 = 0#16 := by
  cases i with
  | construct | ldst | stst | addkey | rotl | xormask | rdt | ksload | ksrcon | ksxorp | ksstore => cases h
  | _ => rfl

/-- A row has the opcode it was selected by, and takes the word's immediate or none. -/
theorem rowOf_eq_some {op : BitVec 8} {imm : BitVec 16} {i : Instr} (h : rowOf op imm = some i) :
    i.opcode = op ∧ i.imm16 = if i.takesImmediate then imm else 0#16 := by
  unfold rowOf at h
  split at h
  all_goals cases h
  all_goals exact ⟨rfl, rfl⟩

/-! ### The fields of a word (rule R90) -/

/-- The three fields of an operation's word. -/
theorem fields_encode (i : Instr) :
    opcodeField (encode i) = i.opcode ∧ zeroField (encode i) = 0#8 ∧
      imm16Field (encode i) = i.imm16 :=
  Laws.EncodeFields.fields_of_append _ _

/-- A word is its three fields: no bit of it lies outside them. -/
theorem word_eq_of_fields {v w : Word32} (hop : opcodeField v = opcodeField w)
    (hzero : zeroField v = zeroField w) (himm : imm16Field v = imm16Field w) : v = w := by
  have happend : ∀ x : Word32, x = opcodeField x ++ (zeroField x ++ imm16Field x) := fun x => by
    have hlow : zeroField x ++ imm16Field x = x.extractLsb' 0 24 :=
      BitVec.extractLsb'_append_extractLsb'_eq_extractLsb' rfl
    have hall : opcodeField x ++ x.extractLsb' 0 24 = x.extractLsb' 0 32 :=
      BitVec.extractLsb'_append_extractLsb'_eq_extractLsb' rfl
    rw [hlow, hall, BitVec.extractLsb'_eq_self]
  rw [happend v, happend w, hop, hzero, himm]

/-! ### Decoding (rule R91) -/

/-- A word decodes to an operation exactly where the operation is the word's row, the middle field is zero, the
immediate is zero if the row takes none, and the operation is well formed. -/
theorem decode_eq_ok_iff {w : Word32} {i : Instr} :
    decode w = .ok i ↔
      rowOf (opcodeField w) (imm16Field w) = some i ∧ zeroField w = 0#8 ∧
        (i.takesImmediate = false → imm16Field w = 0#16) ∧ i.wellFormed = true := by
  constructor
  · intro h
    unfold decode at h
    split at h
    · cases h
    next j hrow =>
    split at h
    · cases h
    next hzero =>
    split at h
    · cases h
    next himm =>
    split at h
    · cases h
    next hwf =>
    cases h
    exact ⟨hrow, not_not.mp hzero, by simpa using himm, by simpa using hwf⟩
  · rintro ⟨hrow, hzero, himm, hwf⟩
    unfold decode
    rw [hrow]
    simp only [hzero, hwf, ne_eq, not_true_eq_false, if_false, Bool.true_eq_false]
    rw [if_neg fun h => h.2 (himm h.1)]

/-- Settles O1: the fields of an operation's word are those of its row, and the row passes the checks of rule R91. -/
theorem decodeOfEncode : Obligations.DecodeOfEncode := by
  intro i hwf
  obtain ⟨hop, hzero, himm⟩ := fields_encode i
  rw [decode_eq_ok_iff, hop, himm]
  exact ⟨rowOf_opcode_imm16 i, hzero, imm16_of_takesImmediate_false, hwf⟩

/-- Settles O2: the word and the word of its operation have the same three fields. -/
theorem encodeOfDecode : Obligations.EncodeOfDecode := by
  intro w i hd
  obtain ⟨hrow, hzero, himm, hwf⟩ := decode_eq_ok_iff.mp hd
  obtain ⟨hop, himm16⟩ := rowOf_eq_some hrow
  obtain ⟨hop', hzero', himm'⟩ := fields_encode i
  have himmw : i.imm16 = imm16Field w := by
    cases ht : i.takesImmediate with
    | true => simpa [ht] using himm16
    | false => rw [imm16_of_takesImmediate_false ht, himm ht]
  exact ⟨word_eq_of_fields (hop'.trans hop) (hzero'.trans hzero.symm) (himm'.trans himmw), hwf⟩

/-- Settles O3: each word is that of its operation, which is well formed. -/
theorem specWordsDecode : Obligations.SpecWordsDecode :=
  ⟨decodeOfEncode (.construct 160#16) rfl, decodeOfEncode .encrypt rfl, decodeOfEncode .decrypt rfl,
    decodeOfEncode .release rfl, decodeOfEncode .keyexpand rfl, decodeOfEncode .blockenc rfl,
    decodeOfEncode .ksxor rfl, decodeOfEncode (.ldst 1#16) rfl, decodeOfEncode (.addkey 160#16) rfl,
    decodeOfEncode (.rotl 0xFFFF#16) rfl, decodeOfEncode (.ksload 160#16) rfl⟩

end Sys2Proof
end

section
/-! SUPPORT. Illegal words (30_encoding.md rule R95): the legal words are those of the six operations that the host may
issue, every other word raises, and a raise keeps everything but `STATUS.ERR` and `STATUS.OUT_VALID`. -/

namespace Sys2Proof.Machine

open Sys2Proof.Safety

/-! ### The legal words -/

/-- A word with the fields of a well-formed operation decodes to it. -/
theorem decode_of_fields {w : Word32} {i : Instr} (hop : opcodeField w = i.opcode)
    (hzero : zeroField w = 0#8) (himm : imm16Field w = i.imm16) (hwf : i.wellFormed = true) :
    decode w = .ok i := by
  obtain ⟨hop', hzero', himm'⟩ := fields_encode i
  rw [word_eq_of_fields (hop.trans hop'.symm) (hzero.trans hzero'.symm) (himm.trans himm'.symm)]
  exact decodeOfEncode i hwf

/-- A word that is not illegal is that of an operation the host may issue. -/
theorem exists_decode_of_not_illegalWord {w : Word32} (h : ¬ IllegalWord w) :
    ∃ i, decode w = .ok i ∧ i.seqOnly = false := by
  simp only [IllegalWord, not_or, not_and, not_not, ne_eq] at h
  obtain ⟨hop, hzero, hrounds, himm⟩ := h
  have hplain : ∀ i : Instr, (opcodeField w).toNat = i.opcode.toNat → i.opcode.toNat ≠ 0x01 →
      i.imm16 = 0#16 → i.wellFormed = true → decode w = .ok i := fun i ho hne hi hwf =>
    decode_of_fields (BitVec.eq_of_toNat_eq ho) hzero ((himm (ho ▸ hne)).trans hi.symm) hwf
  simp only [List.mem_cons, List.not_mem_nil, or_false] at hop
  rcases hop with hop | hop | hop | hop | hop | hop
  · exact ⟨.construct (imm16Field w), decode_of_fields (BitVec.eq_of_toNat_eq hop) hzero rfl
      (by simpa [Instr.wellFormed] using hrounds hop), rfl⟩
  · exact ⟨.encrypt, hplain _ hop (by decide) rfl rfl, rfl⟩
  · exact ⟨.decrypt, hplain _ hop (by decide) rfl rfl, rfl⟩
  · exact ⟨.release, hplain _ hop (by decide) rfl rfl, rfl⟩
  · exact ⟨.keyexpand, hplain _ hop (by decide) rfl rfl, rfl⟩
  · exact ⟨.blockenc, hplain _ hop (by decide) rfl rfl, rfl⟩

/-- The word of an operation the host may issue is not illegal. -/
theorem not_illegalWord_of_decode {w : Word32} {i : Instr} (hd : decode w = .ok i)
    (hhost : i.seqOnly = false) : ¬ IllegalWord w := by
  obtain ⟨rfl, hwf⟩ := encodeOfDecode w i hd
  obtain ⟨hop, hzero, himm⟩ := fields_encode i
  rw [IllegalWord, hop, hzero, himm]
  cases i with
  | construct r => simpa [Instr.opcode, Instr.imm16, Instr.wellFormed] using hwf
  | encrypt | decrypt | release | keyexpand | blockenc => decide
  | _ => cases hhost

/-! ### What an illegal word does -/

/-- A sequencer-only operation that the host issues raises `IllegalCommand` (rules R94 and R95 d). -/
theorem raisesFromHost {i : Instr} (h : i.seqOnly = true) : RaisesFromHost i := by
  intro s hhost
  cases i with
  | construct | encrypt | decrypt | release | keyexpand | blockenc => cases h
  | _ => exact seqOnly_host _ hhost

/-- An illegal word that the host writes to `CMD` raises `IllegalCommand`. -/
theorem hostCommand_illegalWord {s : State} {w : Word32} (h : IllegalWord w) :
    s.hostCommand w = .next ((s.issuedBy .host).raise .illegalCommand) := by
  cases hd : decode w with
  | error e => exact hostCommand_error hd
  | ok i =>
    cases hi : i.seqOnly with
    | true => rw [hostCommand_ok hd, raisesFromHost hi _ rfl]
    | false => exact absurd h (not_illegalWord_of_decode hd hi)

/-- Taking a host's action and raising an error changes the ports, `STATUS.ERR` and `STATUS.OUT_VALID` only
(rule R258). -/
theorem unchanged_raise_awaiting (s : State) (rest : List HostAction) (k : ErrKind) :
    Unchanged [] [.err, .outValid, .ports] s (((s.awaiting rest).issuedBy .host).raise k) := by
  refine ⟨fun sp _ a => ?_, fun r hr => ?_⟩
  · cases sp
    all_goals rfl
  · cases r with
    | err | outValid | ports => simp at hr
    | _ => exact rfl

/-- Settles O4: the host's next action raises, and a word that is not illegal has one of the six opcodes. -/
theorem illegalWordsRaise : Obligations.IllegalWordsRaise := by
  refine ⟨fun s w rest hidle ha h => ?_, fun w h => exists_decode_of_not_illegalWord h⟩
  refine ⟨((s.awaiting rest).issuedBy .host).raise .illegalCommand, ?_, rfl, rfl, rfl,
    unchanged_raise_awaiting s rest _⟩
  rw [step_hostAct hidle ha]
  exact hostCommand_illegalWord h

end Sys2Proof.Machine
end

section
/-! SUPPORT. A composed command and its micro-operations issued one by one (30_encoding.md rules R100 to R102). The
command's own run sets a loop variable that the single micro-operations do not, so the two runs are compared up to a
relation between states, carried from one operation to the next. -/

namespace Sys2Proof.Machine

open Sys2Proof.Safety

/-! ### Programs of micro-operations -/

theorem runOps_cons (i : Instr) (is : List Instr) (s : State) :
    runOps (i :: is) s = andThen (exec i s) (runOps is) := by
  rw [runOps]
  cases exec i s
  all_goals rfl

theorem runOps_append (p q : List Instr) (s : State) :
    runOps (p ++ q) s = andThen (runOps p s) (runOps q) := by
  induction p generalizing s with
  | nil => rfl
  | cons i is ih =>
    rw [List.cons_append, runOps_cons, runOps_cons]
    cases exec i s with
    | next t => exact ih t
    | fault e => rfl
    | refused e => rfl

/-- The end of a program. -/
theorem andThen_runOps_nil (r : Res) : andThen r (runOps []) = r := by
  cases r
  all_goals rfl

/-! ### The operations that the sequencer issues (rule R94) -/

theorem exec_keyexpand_seq {s : State} (h : s.ports.issuer = .seq) :
    exec .keyexpand s = s.expandKey := by
  show execKeyexpand s = _
  rw [execKeyexpand, h]

@[simp] theorem exec_encctr_seq {s : State} (h : s.ports.issuer = .seq) :
    exec .encctr s = s.encCtr := seqOnly_seq _ h

@[simp] theorem exec_ldst_seq {s : State} (h : s.ports.issuer = .seq) (sel : BitVec 16) :
    exec (.ldst sel) s = s.loadSt sel.toNat := seqOnly_seq _ h

@[simp] theorem exec_stst_seq {s : State} (h : s.ports.issuer = .seq) (sel : BitVec 16) :
    exec (.stst sel) s = .next (s.storeSt sel.toNat) := seqOnly_seq _ h

@[simp] theorem exec_addkey_seq {s : State} (h : s.ports.issuer = .seq) (r : BitVec 16) :
    exec (.addkey r) s = s.addKey r.toNat := seqOnly_seq _ h

@[simp] theorem exec_subbytes_seq {s : State} (h : s.ports.issuer = .seq) :
    exec .subbytes s = .next s.subBytes := seqOnly_seq _ h

@[simp] theorem exec_permute_seq {s : State} (h : s.ports.issuer = .seq) :
    exec .permute s = .next s.permute := seqOnly_seq _ h

@[simp] theorem exec_mixcol_seq {s : State} (h : s.ports.issuer = .seq) :
    exec .mixcol s = .next s.mixCol := seqOnly_seq _ h

@[simp] theorem exec_rdt_seq {s : State} (h : s.ports.issuer = .seq) (round : BitVec 16) :
    exec (.rdt round) s = .next (s.rdt round.toNat) := seqOnly_seq _ h

@[simp] theorem exec_ksinit_seq {s : State} (h : s.ports.issuer = .seq) :
    exec .ksinit s = s.ksInit := seqOnly_seq _ h

@[simp] theorem exec_ksload_seq {s : State} (h : s.ports.issuer = .seq) (w : BitVec 16) :
    exec (.ksload w) s = s.ksLoad w.toNat := seqOnly_seq _ h

@[simp] theorem exec_ksrot3_seq {s : State} (h : s.ports.issuer = .seq) :
    exec .ksrot3 s = .next s.ksRot3 := seqOnly_seq _ h

@[simp] theorem exec_kssub4_seq {s : State} (h : s.ports.issuer = .seq) :
    exec .kssub4 s = .next s.ksSub4 := seqOnly_seq _ h

@[simp] theorem exec_ksrcon_seq {s : State} (h : s.ports.issuer = .seq) (w : BitVec 16) :
    exec (.ksrcon w) s = s.ksRcon w.toNat := seqOnly_seq _ h

@[simp] theorem exec_ksxorp_seq {s : State} (h : s.ports.issuer = .seq) (w : BitVec 16) :
    exec (.ksxorp w) s = s.ksXorp w.toNat := seqOnly_seq _ h

@[simp] theorem exec_ksstore_seq {s : State} (h : s.ports.issuer = .seq) (w : BitVec 16) :
    exec (.ksstore w) s = s.ksStore w.toNat := seqOnly_seq _ h

/-! ### Outcomes that correspond -/

/-- Two next states in the relation `R`, or the same stop. -/
inductive Matching (R : State → State → Prop) : Res → Res → Prop where
  | next {s t : State} (h : R s t) : Matching R (.next s) (.next t)
  | fault (e : Fault) : Matching R (.fault e) (.fault e)
  | refused (e : Refusal) : Matching R (.refused e) (.refused e)

/-- The second outcome, where the first is a next state. -/
theorem Matching.exists_next {R : State → State → Prop} {s : State} {b : Res}
    (h : Matching R (.next s) b) : ∃ t, b = .next t ∧ R s t := by
  cases h with
  | next h => exact ⟨_, rfl, h⟩

/-- Sequences correspond where their parts do; the second parts may use that the first part answers. -/
theorem Matching.andThen {R R' : State → State → Prop} {a b : Res} {f g : State → Res}
    (h : Matching R a b) (hfg : ∀ s t, a = .next s → R s t → Matching R' (f s) (g t)) :
    Matching R' (andThen a f) (andThen b g) := by
  cases h with
  | next h => exact hfg _ _ rfl h
  | fault e => exact .fault e
  | refused e => exact .refused e

/-- A loop corresponds to the programs of its iterations, run one after the other. -/
theorem Matching.forLoop {R : State → State → Prop} {body : Nat → State → Res}
    {prog : Nat → List Instr} {count first : Nat} {s t : State}
    (hbody : ∀ v s t, v < first + count → R s t → Matching R (body v s) (runOps (prog v) t))
    (h : R s t) :
    Matching R (forLoop body first count s)
      (runOps ((List.range count).flatMap fun k => prog (k + first)) t) := by
  induction count generalizing first s t with
  | zero => exact .next h
  | succ n ih =>
    have hsplit : ((List.range (n + 1)).flatMap fun k => prog (k + first))
        = prog first ++ (List.range n).flatMap fun k => prog (k + (first + 1)) := by
      rw [List.range_succ_eq_map, List.flatMap_cons, List.flatMap_map, Nat.zero_add]
      simp only [Nat.succ_add_eq_add_succ]
    rw [forLoop_succ, hsplit, runOps_append]
    exact (hbody first s t (by omega) h).andThen fun u v _ huv =>
      ih (fun w x y hw hxy => hbody w x y (by omega) hxy) huv

/-- Accesses to the same round key correspond where their uses do. -/
theorem matching_withWindow {R : State → State → Prop} {s t : State} {r : Nat} {f g : Block → Res}
    (hctx : t.ctx = s.ctx) (hkeys : t.keys = s.keys) (h : ∀ key, Matching R (f key) (g key)) :
    Matching R (s.withWindow r f) (t.withWindow r g) := by
  unfold State.withWindow
  rw [hctx, hkeys]
  split
  · exact .fault _
  · split
    · exact .refused _
    · exact h _

/-- Operations on the same window correspond where their effects do. -/
theorem matching_withIndex {R : State → State → Prop} {s t : State} {w : Nat} {a b : Res}
    (hctx : t.ctx = s.ctx) (h : Matching R a b) :
    Matching R (s.withIndex w a) (t.withIndex w b) := by
  unfold State.withIndex
  rw [hctx]
  split
  · exact .fault _
  · exact h

/-! ### ENCCTR: the command sets `RND`, its micro-operations do not -/

/-- `t` is `s` but for the loop variables, and the sequencer issues. -/
def LoopsApart (s t : State) : Prop := s.ports.issuer = .seq ∧ ∃ q, t = { s with seq := q }

theorem LoopsApart.refl {s : State} (hseq : s.ports.issuer = .seq) : LoopsApart s s :=
  ⟨hseq, s.seq, rfl⟩

theorem LoopsApart.issuer {s t : State} (h : LoopsApart s t) : t.ports.issuer = .seq := by
  obtain ⟨hseq, q, rfl⟩ := h
  exact hseq

/-- Outcomes that correspond so are alike in the sense of the statements about whole commands. -/
theorem Matching.sameButLoops {a b : Res} (h : Matching LoopsApart a b) : SameButLoops a b := by
  cases h with
  | next h =>
    obtain ⟨_, q, rfl⟩ := h
    exact rfl
  | fault e => exact rfl
  | refused e => exact rfl

/-- The command sets `RND` and its program does not. -/
theorem LoopsApart.setRnd {s t : State} (h : LoopsApart s t) (r : Nat) :
    LoopsApart (s.setRnd r) t := by
  obtain ⟨hseq, q, rfl⟩ := h
  exact ⟨hseq, q, rfl⟩

theorem LoopsApart.subBytes {s t : State} (h : LoopsApart s t) :
    LoopsApart s.subBytes t.subBytes := by
  obtain ⟨hseq, q, rfl⟩ := h
  exact ⟨hseq, q, rfl⟩

theorem LoopsApart.permute {s t : State} (h : LoopsApart s t) :
    LoopsApart s.permute t.permute := by
  obtain ⟨hseq, q, rfl⟩ := h
  exact ⟨hseq, q, rfl⟩

/-- MIXCOL sets `GRP` in both runs alike. -/
theorem LoopsApart.mixCol {s t : State} (h : LoopsApart s t) : LoopsApart s.mixCol t.mixCol := by
  obtain ⟨hseq, q, rfl⟩ := h
  rw [mixCol_eq, mixCol_eq]
  exact ⟨hseq, { q with grp := 15 }, rfl⟩

theorem LoopsApart.rdt {s t : State} (h : LoopsApart s t) (r : Nat) :
    LoopsApart (s.rdt r) (t.rdt r) := by
  obtain ⟨hseq, q, rfl⟩ := h
  exact ⟨hseq, q, rfl⟩

theorem LoopsApart.addKey {s t : State} (h : LoopsApart s t) (r : Nat) :
    Matching LoopsApart (s.addKey r) (t.addKey r) := by
  obtain ⟨hseq, q, rfl⟩ := h
  exact matching_withWindow rfl rfl fun key => .next ⟨hseq, q, rfl⟩

/-- `ROUND r`, issued one operation at a time. -/
theorem runOps_roundProgram {r : Nat} (hr : r < 65536) {t : State} (hseq : t.ports.issuer = .seq) :
    runOps (roundProgram r) t = (t.subBytes.permute.mixCol.rdt r).addKey r := by
  simp [roundProgram, runOps_cons, andThen_runOps_nil, hseq, Nat.mod_eq_of_lt hr]

/-- `FINALROUND r`, issued one operation at a time. -/
theorem runOps_finalRoundProgram {r : Nat} (hr : r < 65536) {t : State}
    (hseq : t.ports.issuer = .seq) :
    runOps (finalRoundProgram r) t = (t.subBytes.permute.rdt r).addKey r := by
  simp [finalRoundProgram, runOps_cons, andThen_runOps_nil, hseq, Nat.mod_eq_of_lt hr]

theorem LoopsApart.mainRound {s t : State} (h : LoopsApart s t) {r : Nat} (hr : r < 65536) :
    Matching LoopsApart (mainRound r s) (runOps (roundProgram r) t) := by
  rw [runOps_roundProgram hr h.issuer]
  exact ((h.setRnd r).subBytes.permute.mixCol.rdt r).addKey r

theorem LoopsApart.finalRound {s t : State} (h : LoopsApart s t) {r : Nat} (hr : r < 65536) :
    Matching LoopsApart (finalRound r s) (runOps (finalRoundProgram r) t) := by
  rw [runOps_finalRoundProgram hr h.issuer]
  exact ((h.setRnd r).subBytes.permute.rdt r).addKey r

/-- `EncryptState` and its micro-operations: whitening, the main rounds, the final round (rule R161). -/
theorem LoopsApart.encryptState {s t : State} (h : LoopsApart s t) :
    Matching LoopsApart s.encryptState (runOps (encryptStateProgram s.ctx.rounds.toNat) t) := by
  have hR := s.ctx.rounds.isLt
  rw [State.encryptState, encryptStateProgram, List.cons_append, runOps_cons,
    exec_addkey_seq h.issuer]
  refine (h.addKey 0).andThen fun u v hu huv => ?_
  have hus := addKey_frame hu
  rw [runOps_append, hus.ctx]
  have hloop : Matching LoopsApart
      (Machine.forLoop Machine.mainRound 1 (s.ctx.rounds.toNat - 1) u)
      (runOps ((List.range (s.ctx.rounds.toNat - 1)).flatMap fun k => roundProgram (k + 1)) v) :=
    .forLoop (fun r _ _ hr hxy => hxy.mainRound (by omega)) huv
  refine hloop.andThen fun x y hx hxy => ?_
  have hxs : FrameBlk s x :=
    forLoop_keeps (FrameBlk s) (fun _ _ _ h hs => hs.trans (mainRound_frame h)) hx hus
  rw [hxs.ctx]
  exact hxy.finalRound hR

/-- Settles O39: LDST 1 and STST 1 are the same in both runs, and between them runs `EncryptState`. -/
theorem encctrIsItsProgram : Obligations.EncctrIsItsProgram := by
  intro s hseq
  apply Matching.sameButLoops
  rw [exec_encctr_seq hseq, State.encCtr, runOps_append, runOps_cons, exec_ldst_seq hseq,
    BitVec.toNat_one (by decide), loadSt_one, andThen_next, andThen_next]
  have hloaded : LoopsApart (s.setSt s.ctr.cnt) (s.setSt s.ctr.cnt) := .refl hseq
  refine hloaded.encryptState.andThen fun u v _ huv => ?_
  rw [runOps_cons, andThen_runOps_nil, exec_stst_seq huv.issuer]
  obtain ⟨hu, q, rfl⟩ := huv
  exact .next ⟨hu, q, rfl⟩

/-! ### KEYEXPAND: the command sets `W`, its micro-operations do not -/

/-- `s` is `t` but for the loop variable `W`, and the sequencer issues. -/
def WindowApart (s t : State) : Prop := t.ports.issuer = .seq ∧ ∃ n, s = t.setW n

theorem WindowApart.refl {s : State} (hseq : s.ports.issuer = .seq) : WindowApart s s :=
  ⟨hseq, s.seq.w, rfl⟩

theorem WindowApart.issuer {s t : State} (h : WindowApart s t) : t.ports.issuer = .seq := h.1

/-- The command sets `W` and its program does not. -/
theorem WindowApart.setW {s t : State} (h : WindowApart s t) (w : Nat) :
    WindowApart (s.setW w) t := by
  obtain ⟨hseq, n, rfl⟩ := h
  exact ⟨hseq, w, rfl⟩

theorem WindowApart.ksLoad {s t : State} (h : WindowApart s t) (w : Nat) :
    Matching WindowApart (s.ksLoad w) (t.ksLoad w) := by
  obtain ⟨hseq, n, rfl⟩ := h
  exact matching_withIndex rfl (matching_withWindow rfl rfl fun key => .next ⟨hseq, n, rfl⟩)

theorem WindowApart.ksRot3 {s t : State} (h : WindowApart s t) :
    WindowApart s.ksRot3 t.ksRot3 := by
  obtain ⟨hseq, n, rfl⟩ := h
  exact ⟨hseq, n, rfl⟩

theorem WindowApart.ksSub4 {s t : State} (h : WindowApart s t) :
    WindowApart s.ksSub4 t.ksSub4 := by
  obtain ⟨hseq, n, rfl⟩ := h
  exact ⟨hseq, n, rfl⟩

theorem WindowApart.ksRcon {s t : State} (h : WindowApart s t) (w : Nat) :
    Matching WindowApart (s.ksRcon w) (t.ksRcon w) := by
  obtain ⟨hseq, n, rfl⟩ := h
  exact matching_withIndex rfl (.next ⟨hseq, n, rfl⟩)

theorem WindowApart.ksXorp {s t : State} (h : WindowApart s t) (w : Nat) :
    Matching WindowApart (s.ksXorp w) (t.ksXorp w) := by
  obtain ⟨hseq, n, rfl⟩ := h
  exact matching_withIndex rfl (matching_withWindow rfl rfl fun key => .next ⟨hseq, n, rfl⟩)

theorem WindowApart.ksStore {s t : State} (h : WindowApart s t) (w : Nat) :
    Matching WindowApart (s.ksStore w) (t.ksStore w) := by
  obtain ⟨hseq, n, rfl⟩ := h
  exact matching_withIndex rfl (.next ⟨hseq, n, rfl⟩)

/-- One window: the program's operations are those of `KSWINDOW`, in its order (rule R100). -/
theorem WindowApart.ksWindow {s t : State} (h : WindowApart s t) {w : Nat} (hw : w < 65536) :
    Matching WindowApart (ksWindow w s) (runOps (windowProgram w) t) := by
  have hwn : (BitVec.ofNat 16 w).toNat = w := Nat.mod_eq_of_lt hw
  rw [Machine.ksWindow, windowProgram, runOps_cons, exec_ksload_seq h.issuer, hwn]
  refine ((h.setW w).ksLoad w).andThen fun s t _ h => ?_
  have hrot := h.ksRot3
  have hsub := hrot.ksSub4
  rw [runOps_cons, exec_ksrot3_seq h.issuer, andThen_next, runOps_cons, exec_kssub4_seq hrot.issuer,
    andThen_next, runOps_cons, exec_ksrcon_seq hsub.issuer, hwn]
  refine (hsub.ksRcon w).andThen fun s t _ h => ?_
  rw [runOps_cons, exec_ksxorp_seq h.issuer, hwn]
  refine (h.ksXorp w).andThen fun s t _ h => ?_
  rw [runOps_cons, exec_ksstore_seq h.issuer, hwn, andThen_runOps_nil]
  exact h.ksStore w

/-- An expansion that answers ends where its micro-operations end, but for `T`, `RK_VALID` and `W`. -/
theorem runOps_keyExpandProgram {s t : State} (hseq : s.ports.issuer = .seq)
    (h : s.expandKey = .next t) :
    ∃ u n, runOps (keyExpandProgram s.ctx.rounds.toNat) s = .next u ∧
      t = (u.setW n).endKeySchedule.setKeysValid true := by
  have hR := s.ctx.rounds.isLt
  obtain ⟨x, hx, h⟩ := andThen_eq_next.mp h
  obtain ⟨y, hy, h⟩ := andThen_eq_next.mp h
  cases h
  have hxs := ksInit_frame hx
  have hloop : Matching WindowApart (forLoop ksWindow 1 s.ctx.rounds.toNat x)
      (runOps ((List.range s.ctx.rounds.toNat).flatMap fun k => windowProgram (k + 1)) x) :=
    .forLoop (fun w _ _ hw hst => hst.ksWindow (by omega)) (.refl (hxs.ports ▸ hseq))
  rw [← hxs.ctx, hy] at hloop
  obtain ⟨u, hu, _, n, rfl⟩ := hloop.exists_next
  refine ⟨u, n, ?_, rfl⟩
  rw [keyExpandProgram, runOps_cons, exec_ksinit_seq hseq, hx, andThen_next, ← hxs.ctx, hu]

/-- The end of a key schedule changes `T` and `RK_VALID`, and a write of `W` no more than `W`. -/
theorem unchanged_endKeySchedule (s : State) (n : Nat) :
    Unchanged [.t] [.rkValid, .w] s ((s.setW n).endKeySchedule.setKeysValid true) := by
  refine ⟨fun sp hsp a => ?_, fun r hr => ?_⟩
  · cases sp with
    | t => simp at hsp
    | _ => rfl
  · cases r with
    | rkValid | w => simp at hr
    | _ => exact rfl

/-- The key's bytes, where each of them holds a value. -/
theorem readBytes_of_byteAt_key {s : State} {key : Block}
    (h : ∀ j : Fin 256, s.byteAt .key j.val = some key[j]) :
    Memory.readBytes s.ops.key 0 256 = some key.toList := by
  refine (Memory.readBytes_eq_some _ _ _ _).mpr ⟨by simp, fun j hj => ?_⟩
  rw [Nat.zero_add]
  exact (h ⟨j, hj⟩).trans (by simp [hj])

/-- Settles O27: the expansion completes where the key's bytes are there, and its program ends where it ends. -/
theorem keyexpandIsItsProgram : Obligations.KeyexpandIsItsProgram := by
  intro s key hseq hkey
  obtain ⟨t, ht, _⟩ := expandKey_eq (readBytes_of_byteAt_key hkey)
  obtain ⟨u, n, hu, rfl⟩ := runOps_keyExpandProgram hseq ht
  exact ⟨_, u, (exec_keyexpand_seq hseq).trans ht, hu, rfl, unchanged_endKeySchedule u n⟩

end Sys2Proof.Machine
end

section
/-! SUPPORT. The tables of 40_tables.md: the inverse table of a bijective S-box, the shuffle as a rearrangement of the
table it starts from, and what CONSTRUCT answers. -/

namespace Sys2Proof.Machine

open Sys2Proof.Safety

/-! ### The inverse table (rule R126) -/

/-- A table that is injective as a function of bytes holds 256 different bytes. -/
theorem block_distinct {b : Block} (h : Function.Injective fun v : Byte => b[v.toNat]'v.isLt)
    (i j : Fin 256) (hij : b[i] = b[j]) : i = j := by
  have hbytes : BitVec.ofFin (w := 8) i = BitVec.ofFin j := h hij
  exact congrArg BitVec.toFin hbytes

/-- Settles O15: the writes of distinct bytes give the left inverse, and a left inverse of a surjection is a right
inverse. -/
theorem inverseTable : Obligations.InverseTable := by
  intro sbox hbij
  have hleft := buildInvSBox_apply (block_distinct hbij.injective)
  refine ⟨hleft, fun v => ?_⟩
  obtain ⟨b, rfl⟩ := hbij.surjective v
  simp only [hleft b]

/-! ### The shuffle (rule R122) -/

/-- A swap of two entries reads the table through a transposition of the indices. -/
theorem getElem_swapBytes (s : Block) (i j : Nat) (q : Fin 256) :
    (swapBytes s i j)[q] = s[Equiv.swap (Fin.ofNat 256 i) (Fin.ofNat 256 j) q] := by
  rw [swapBytes, getElem_tab_fin]
  by_cases hi : q = Fin.ofNat 256 i
  · have hval : q.val = i % 256 := congrArg Fin.val hi
    rw [if_pos hval]
    simp only [hi, Equiv.swap_apply_left]
    rfl
  have hvi : ¬ q.val = i % 256 := fun h => hi (Fin.ext h)
  rw [if_neg hvi]
  by_cases hj : q = Fin.ofNat 256 j
  · have hval : q.val = j % 256 := congrArg Fin.val hj
    rw [if_pos hval]
    simp only [hj, Equiv.swap_apply_right]
    rfl
  · have hvj : ¬ q.val = j % 256 := fun h => hj (Fin.ext h)
    rw [if_neg hvj]
    simp only [Equiv.swap_apply_of_ne_of_ne hi hj]

/-- The loop reads the table it starts from through a permutation of the indices. -/
theorem exists_perm_shuffleFrom (d : Nat → Nat) (i : Nat) (s : Block) :
    ∃ σ : Equiv.Perm (Fin 256), ∀ q : Fin 256, (shuffleFrom d i s)[q] = s[σ q] := by
  induction i generalizing s with
  | zero => exact ⟨Equiv.refl _, fun _ => rfl⟩
  | succ i ih =>
    obtain ⟨σ, hσ⟩ := ih (swapBytes s (i + 1) (d (i + 1)))
    exact ⟨σ.trans (Equiv.swap (Fin.ofNat 256 (i + 1)) (Fin.ofNat 256 (d (i + 1)))),
      fun q => (hσ q).trans (getElem_swapBytes s _ _ _)⟩

/-- The identity table holds 256 different bytes. -/
theorem identityBlock_injective (i j : Fin 256) (h : identityBlock[i] = identityBlock[j]) :
    i = j := by
  have hval := congrArg BitVec.toNat h
  simp only [Fin.getElem_fin, getElem_identityBlock, BitVec.toNat_ofNat] at hval
  omega

/-- Settles O16: the shuffle rearranges the identity table, with no use of the bound on the draws, since `swapBytes`
takes every index modulo 256. -/
theorem shuffleIsPermutation : Obligations.ShuffleIsPermutation := by
  intro d _
  obtain ⟨σ, hσ⟩ := exists_perm_shuffleFrom d 255 identityBlock
  refine block_bijective fun i j hij => σ.injective (identityBlock_injective _ _ ?_)
  rwa [shuffledSBox, hσ, hσ] at hij

/-! ### CONSTRUCT (rule R121) -/

/-- The word of an operation as a number (rules R90 and R93). -/
theorem toNat_encode (i : Instr) :
    (encode i).toNat = i.opcode.toNat * 2 ^ 24 + i.imm16.toNat := by
  have himm : i.imm16.toNat < 2 ^ 16 := i.imm16.isLt
  rw [encode, BitVec.toNat_append, BitVec.toNat_append, ← Nat.shiftLeft_add_eq_or_of_lt himm]
  simp [Nat.shiftLeft_eq, mul_assoc]

/-- What `exec` runs for CONSTRUCT. -/
theorem exec_construct (r : BitVec 16) (s : State) :
    exec (.construct r) s = execConstruct r s := by rfl

/-- CONSTRUCT where a context exists, or of no rounds. -/
theorem execConstruct_refused {r : BitVec 16} {s : State} (h : s.ctx.valid = true ∨ r = 0#16) :
    execConstruct r s = .next (s.raise .illegalCommand) := by
  unfold execConstruct
  rcases h with hctx | hr
  · rw [if_pos hctx]
  · rw [if_pos hr, ite_self]

/-- CONSTRUCT where no context exists. -/
theorem execConstruct_built {r : BitVec 16} {s : State} (hctx : s.ctx.valid = false)
    (hr : r ≠ 0#16) :
    execConstruct r s = .next (State.complete { s with ctx := buildContext r }) := by
  rw [execConstruct, hctx, if_neg Bool.false_ne_true, if_neg hr]

/-- A completed command with another context changes the three tables, `CTX_VALID`, `R` and `STATUS` only. -/
theorem unchanged_complete_ctx (s : State) (c : Context) :
    Unchanged [.sbox, .invsbox, .perm] [.ctxValid, .rounds, .err, .outValid] s
      (State.complete { s with ctx := c }) := by
  refine ⟨fun sp hsp a => ?_, fun reg hreg => ?_⟩
  · cases sp with
    | sbox | invsbox | perm => simp at hsp
    | _ => rfl
  · cases reg with
    | ctxValid | rounds | err | outValid => simp at hreg
    | _ => exact rfl

/-- The S-box that CONSTRUCT builds is that of the configuration (rule R125). -/
theorem buildSBox_apply (b : Byte) : buildSBox[b.toNat]'b.isLt = Config.sbox b := by simp

/-- The inverse table that CONSTRUCT builds inverts the S-box of the configuration (rule R126). -/
theorem buildInvSBox_buildSBox (b : Byte) :
    (buildInvSBox buildSBox)[(Config.sbox b).toNat]'(BitVec.isLt _) = b := by
  have hinv := buildInvSBox_apply buildSBox_injective b
  simpa only [buildSBox_apply] using hinv

/-- The permutation table that CONSTRUCT builds, by row and column (rule R127). -/
theorem buildPerm_apply (row col : Fin 16) :
    buildPerm[16 * row.val + col.val] =
      BitVec.ofNat 8 (16 * row.val + (col.val + 16 - row.val) % 16) := by
  have hrow : (16 * row.val + col.val) / 16 = row.val := by omega
  have hcol : (16 * row.val + col.val) % 16 = col.val := by omega
  rw [getElem_buildPerm, hrow, hcol]

/-- Settles O14: the word from its fields, the two refusals, and the context built with its three tables. -/
theorem constructRule : Obligations.ConstructRule := by
  refine ⟨fun r => by simp [toNat_encode, Instr.opcode, Instr.imm16],
    fun r s h => (exec_construct r s).trans (execConstruct_refused h), fun r s hctx hr => ?_⟩
  exact ⟨_, (exec_construct r s).trans (execConstruct_built hctx hr), rfl, rfl, buildSBox_apply,
    buildInvSBox_buildSBox, buildPerm_apply, rfl, rfl, unchanged_complete_ctx s _⟩

end Sys2Proof.Machine
end

section
/-! SUPPORT. The key schedule of 41_key_schedule.md: the bytes of the expanded key by windows, the frames of its
operations, and the rules of the micro-operations and of KEYEXPAND. -/

namespace Sys2Proof.Machine

open Sys2Proof.Safety

/-! ### The bytes of the expanded key (rules R29 and R66) -/

/-- Byte `j` of window `r` is byte `j` of round key `r`, where the window holds a value. -/
theorem byteAt_rk_window (s : State) (r : Nat) (j : Fin 256) :
    s.byteAt .rk (256 * r + j.val) = (Store.read s.keys.rk r).map fun b => b[j] := by
  have hdiv : (256 * r + j.val) / 256 = r := by omega
  have hmod : (256 * r + j.val) % 256 = j.val := by omega
  simp only [State.byteAt, State.rkByte, hdiv, hmod]
  rfl

/-- A window whose bytes are those of a block holds that block. -/
theorem read_of_byteAt_rk {s : State} {r : Nat} {b : Block}
    (h : ∀ j : Fin 256, s.byteAt .rk (256 * r + j.val) = some b[j]) :
    Store.read s.keys.rk r = some b := by
  simp only [byteAt_rk_window, Option.map_eq_some_iff] at h
  obtain ⟨b', hread, _⟩ := h 0
  rw [hread, Option.some_inj]
  refine vector_ext fun j hj => ?_
  obtain ⟨c, hc, hcj⟩ := h ⟨j, hj⟩
  cases hread.symm.trans hc
  exact hcj

/-- No byte of a window holds a value where the window holds none. -/
theorem byteAt_rk_eq_none {s : State} {a : Nat} (h : Store.read s.keys.rk (a / 256) = none) :
    s.byteAt .rk a = none := by
  simp [State.byteAt, State.rkByte, h]

/-- The bytes of the expanded key after a write of window `w`. -/
theorem byteAt_rk_setRk_write (s : State) (w : Nat) (b : Block) (a : Nat) :
    (s.setRk (Store.write s.keys.rk w b)).byteAt .rk a =
      if a / 256 = w then some b[a % 256] else s.byteAt .rk a := by
  simp only [State.byteAt, State.rkByte, State.setRk_keys, Store.read_write]
  split
  all_goals rfl

/-- Round keys that stand in the windows `0 .. R` are held. -/
theorem roundKeysHeld_of_read {s : State} {rk : Nat → Block}
    (h : ∀ r, r ≤ s.ctx.rounds.toNat → Store.read s.keys.rk r = some (rk r)) :
    RoundKeysHeld s rk := by
  intro r hr j
  rw [byteAt_rk_window, h r hr, Option.map_some]

/-! ### Frames -/

/-- A frame may list more than changes. -/
theorem unchanged_mono {spaces spaces' : List Space} {regs regs' : List Register} {s t : State}
    (h : Unchanged spaces regs s t) (hspaces : spaces ⊆ spaces') (hregs : regs ⊆ regs') :
    Unchanged spaces' regs' s t :=
  ⟨fun sp hsp => h.1 sp fun hmem => hsp (hspaces hmem),
    fun r hr => h.2 r fun hmem => hr (hregs hmem)⟩

theorem unchanged_setT (s : State) (b : Block) : Unchanged [.t] [] s (s.setT b) := by
  refine ⟨fun sp hsp a => ?_, fun r _ => ?_⟩
  · cases sp with
    | t => simp at hsp
    | _ => rfl
  · cases r
    all_goals exact rfl

theorem unchanged_setRk (s : State) (rk : Store Block) : Unchanged [.rk] [] s (s.setRk rk) := by
  refine ⟨fun sp hsp a => ?_, fun r _ => ?_⟩
  · cases sp with
    | rk => simp at hsp
    | _ => rfl
  · cases r
    all_goals exact rfl

/-- The key-schedule unit holds `RK`, `T` and `RK_VALID`. -/
theorem FrameKeys.unchanged {s t : State} (h : FrameKeys s t) :
    Unchanged [.rk, .t] [.rkValid, .w] s t := by
  refine ⟨fun sp hsp a => ?_, fun r hr => ?_⟩
  · cases sp with
    | rk | t => simp at hsp
    | _ => simp only [State.byteAt, h.ctx, h.blk, h.ctr, h.ops, h.out]
  · cases r with
    | rkValid | w => simp at hr
    | _ => simp only [Register.same, h.ctx, h.ops, h.out, h.err, h.ports, h.freeIndex, h.rnd, h.grp,
        h.p, h.n, h.idx]

/-- The completion of a command adds the report in `STATUS` to what has changed (rule R259). -/
theorem unchanged_complete {spaces : List Space} {regs : List Register} {s t : State}
    (h : Unchanged spaces regs s t) : Unchanged spaces (.err :: .outValid :: regs) s t.complete := by
  obtain ⟨hbytes, hregs⟩ := h
  refine ⟨fun sp hsp a => ?_, fun r hr => ?_⟩
  · have hkept : t.complete.byteAt sp a = t.byteAt sp a := by
      cases sp
      all_goals rfl
    exact hkept.trans (hbytes sp hsp a)
  · simp only [List.mem_cons, not_or] at hr
    obtain ⟨herr, hout, hr⟩ := hr
    cases r with
    | err => exact absurd rfl herr
    | outValid => exact absurd rfl hout
    | _ => exact hregs _ hr

/-! ### The micro-operations (rules R141 to R147) -/

/-- KSINIT, where the key's bytes are there. -/
theorem ksInit_eq {s : State} {key : Block}
    (h : Memory.readBytes s.ops.key 0 256 = some key.toList) :
    s.ksInit = .next (s.setRk [(0, key)]) := by
  simp [State.ksInit, State.withKey, h, blockOfList_toList]

/-- A store of one window holds a value at no other index. -/
theorem read_singleton_zero (b : Block) (r : Nat) :
    Store.read [(0, b)] r = if r = 0 then some b else none := by
  cases r
  all_goals rfl

/-- Settles O19: window 0 is the key's block, and the fresh buffer lists no other window. -/
theorem ksinitRule : Obligations.KsinitRule := by
  refine ⟨by decide, raisesFromHost rfl, fun s key hseq hkey => ?_⟩
  refine ⟨_, (exec_ksinit_seq hseq).trans (ksInit_eq (readBytes_of_byteAt_key hkey)), fun j => ?_,
    fun a ha => byteAt_rk_eq_none ?_, unchanged_setRk s _⟩
  · simpa [read_singleton_zero] using byteAt_rk_window (s.setRk [(0, key)]) 0 j
  · have hwindow : a / 256 ≠ 0 := by omega
    rw [State.setRk_keys, read_singleton_zero, if_neg hwindow]

/-- Settles O20: the preceding window holds the block, and KSLOAD assigns it to `T`. -/
theorem ksloadRule : Obligations.KsloadRule := by
  refine ⟨fun w => by simp [toNat_encode, Instr.opcode, Instr.imm16], fun w => raisesFromHost rfl,
    fun w s prev hseq h1 hR hprev => ?_⟩
  exact ⟨_, (exec_ksload_seq hseq w).trans (ksLoad_eq h1 hR (read_of_byteAt_rk hprev)),
    fun _ => rfl, unchanged_setT s prev⟩

/-- Settles O21: `T` becomes its rotation, byte by byte. -/
theorem ksrot3Rule : Obligations.Ksrot3Rule := by
  refine ⟨by decide, raisesFromHost rfl, fun s hseq => ?_⟩
  exact ⟨_, exec_ksrot3_seq hseq, fun j => getElem_rotBytes3 _ _ j.isLt, unchanged_setT s _⟩

/-- Settles O22: the byte function substitutes at the indices divisible by 4 and keeps the others. -/
theorem kssub4Rule : Obligations.Kssub4Rule := by
  refine ⟨by decide, raisesFromHost rfl, fun s hseq => ?_⟩
  refine ⟨_, exec_kssub4_seq hseq, fun j hj => ?_, fun j hj => ?_, unchanged_setT s _⟩
  · exact (getElem_subEveryFourth _ _ _ j.isLt).trans (if_pos hj)
  · exact (getElem_subEveryFourth _ _ _ j.isLt).trans (if_neg hj)

/-- Settles O23: the byte function changes byte 0 alone, by the round constant `w mod 256`. -/
theorem ksrconRule : Obligations.KsrconRule := by
  refine ⟨fun w => by simp [toNat_encode, Instr.opcode, Instr.imm16], fun w => raisesFromHost rfl,
    fun w s hseq h1 hR => ?_⟩
  refine ⟨_, (exec_ksrcon_seq hseq w).trans (ksRcon_eq h1 hR), ?_, fun j hj => ?_,
    unchanged_setT s _⟩
  · exact (getElem_addRoundConstant _ _ 0 (by decide)).trans (if_pos rfl)
  · exact (getElem_addRoundConstant _ _ _ j.isLt).trans (if_neg hj)

/-- Settles O24: the block XORed in is the one that stands in the preceding window. -/
theorem ksxorpRule : Obligations.KsxorpRule := by
  refine ⟨fun w => by simp [toNat_encode, Instr.opcode, Instr.imm16], fun w => raisesFromHost rfl,
    fun w s prev hseq h1 hR hprev => ?_⟩
  exact ⟨_, (exec_ksxorp_seq hseq w).trans (ksXorp_eq h1 hR (read_of_byteAt_rk hprev)),
    fun j => getElem_xorBlock _ _ _ j.isLt, unchanged_setT s _⟩

/-- Settles O25: the addresses of window `w` are those whose quotient by 256 is `w`. -/
theorem ksstoreRule : Obligations.KsstoreRule := by
  refine ⟨fun w => by simp [toNat_encode, Instr.opcode, Instr.imm16], fun w => raisesFromHost rfl,
    fun w s hseq h1 hR => ?_⟩
  refine ⟨_, (exec_ksstore_seq hseq w).trans (ksStore_eq h1 hR), fun j => ?_, fun a ha => ?_,
    unchanged_setRk s _⟩
  · rw [byteAt_rk_window, State.setRk_keys, Store.read_write, if_pos rfl, Option.map_some]
  · have hwindow : a / 256 ≠ w.toNat := by omega
    rw [byteAt_rk_setRk_write, if_neg hwindow]

/-! ### KEYEXPAND (rules R140 and R148) -/

/-- What `exec` runs for KEYEXPAND. -/
theorem exec_keyexpand (s : State) : exec .keyexpand s = execKeyexpand s := by rfl

/-- The host's KEYEXPAND without a context. -/
theorem execKeyexpand_noContext {s : State} (hhost : s.ports.issuer = .host)
    (hctx : s.ctx.valid = false) : execKeyexpand s = .next (s.raise .illegalCommand) := by
  simp [execKeyexpand, hhost, hctx]

/-- The condition of `InvalidKeyLength` (rule R251). -/
theorem keyBad_iff (s : State) :
    s.keyBad = true ↔ s.ops.keyDesc.present = false ∨ s.ops.keyDesc.len ≠ 256 := by
  simp [State.keyBad]

/-- The host's KEYEXPAND with an absent key, or one of another length. -/
theorem execKeyexpand_keyBad {s : State} (hhost : s.ports.issuer = .host)
    (hctx : s.ctx.valid = true) (hdesc : s.ops.keyDesc.written = true) (hbad : s.keyBad = true) :
    execKeyexpand s = .next (s.raise .invalidKeyLength) := by
  simp [execKeyexpand, hhost, hctx, hdesc, hbad]

/-- The expansion leaves round key `r` of rule R148 in window `r`, for `r = 0 .. R`, and nothing beyond. -/
theorem expandKey_roundKeys {s : State} {key : Block}
    (hkey : ∀ j : Fin 256, s.byteAt .key j.val = some key[j]) :
    ∃ t, s.expandKey = .next t ∧ t.keys.valid = true ∧
      RoundKeysHeld t (Reference.roundKey s.ctx.sbox key) ∧
      (∀ a, 256 * (s.ctx.rounds.toNat + 1) ≤ a → t.byteAt .rk a = none) ∧ FrameKeys s t := by
  obtain ⟨t, ht, hframe, hvalid, _, hread⟩ := expandKey_eq (readBytes_of_byteAt_key hkey)
  refine ⟨t, ht, hvalid, roundKeysHeld_of_read fun r hr => ?_,
    fun a ha => byteAt_rk_eq_none ?_, hframe⟩
  · rw [hframe.ctx] at hr
    rw [hread, if_pos hr]
  · have hbeyond : ¬ a / 256 ≤ s.ctx.rounds.toNat := by omega
    rw [hread, if_neg hbeyond]

/-- Settles O26: the host's two errors, and the expansion with the host's report and without it. -/
theorem keyexpandRule : Obligations.KeyexpandRule := by
  refine ⟨by decide, fun s hhost hctx => execKeyexpand_noContext hhost hctx,
    fun s hhost hctx hdesc hkey => execKeyexpand_keyBad hhost hctx hdesc ((keyBad_iff s).mpr hkey),
    fun s key hhost hctx hkey => ?_, fun s key hseq hkey => ?_⟩
  · obtain ⟨hdesc, hbytes⟩ := hkey
    obtain ⟨t, ht, hvalid, hheld, hbeyond, hframe⟩ := expandKey_roundKeys hbytes
    refine ⟨t.complete, ?_, hvalid, rfl, rfl, hheld, hbeyond, ?_⟩
    · rw [exec_keyexpand, execKeyexpand_eq hhost hctx (by rw [hdesc])
        (by simp [State.keyBad, hdesc]), ht, andThen_next]
    · exact unchanged_mono (unchanged_complete hframe.unchanged) (List.Subset.refl _) (by decide)
  · obtain ⟨t, ht, hvalid, hheld, hbeyond, hframe⟩ := expandKey_roundKeys hkey
    exact ⟨t, (exec_keyexpand_seq hseq).trans ht, hvalid, hheld, hbeyond, hframe.unchanged⟩

end Sys2Proof.Machine
end

section
/-! SUPPORT. The micro-operations of 42_block_primitive.md: the frames of the updates of the state buffer, the rules
of loading and storing it, and the rules of the operations of a round. -/

namespace Sys2Proof.Machine

open Sys2Proof.Safety

/-! ### Frames -/

/-- Two updates change what one of them changes. -/
theorem unchanged_trans {spaces spaces' : List Space} {regs regs' : List Register} {s t u : State}
    (h : Unchanged spaces regs s t) (h' : Unchanged spaces' regs' t u) :
    Unchanged (spaces ++ spaces') (regs ++ regs') s u := by
  refine ⟨fun sp hsp a => ?_, fun r hr => ?_⟩
  · rw [List.mem_append, not_or] at hsp
    exact (h'.1 sp hsp.2 a).trans (h.1 sp hsp.1 a)
  · rw [List.mem_append, not_or] at hr
    have hst := h.2 r hr.1
    have htu := h'.2 r hr.2
    cases r
    all_goals exact Eq.trans htu hst

theorem unchanged_setSt (s : State) (b : Block) : Unchanged [.st] [] s (s.setSt b) := by
  refine ⟨fun sp hsp a => ?_, fun r _ => ?_⟩
  · cases sp with
    | st => simp at hsp
    | _ => rfl
  · cases r
    all_goals exact rfl

theorem unchanged_setTmp (s : State) (b : Block) : Unchanged [.tmp] [] s (s.setTmp b) := by
  refine ⟨fun sp hsp a => ?_, fun r _ => ?_⟩
  · cases sp with
    | tmp => simp at hsp
    | _ => rfl
  · cases r
    all_goals exact rfl

theorem unchanged_setKs (s : State) (b : Block) : Unchanged [.ks] [] s (s.setKs b) := by
  refine ⟨fun sp hsp a => ?_, fun r _ => ?_⟩
  · cases sp with
    | ks => simp at hsp
    | _ => rfl
  · cases r
    all_goals exact rfl

theorem unchanged_setDout (s : State) (m : Memory) : Unchanged [.dout] [] s (s.setDout m) := by
  refine ⟨fun sp hsp a => ?_, fun r _ => ?_⟩
  · cases sp with
    | dout => simp at hsp
    | _ => rfl
  · cases r
    all_goals exact rfl

/-- An operation that builds its result in `TMP` and copies it to `ST` changes these two buffers. -/
theorem unchanged_setTmp_setSt (s : State) (b : Block) :
    Unchanged [.st, .tmp] [] s ((s.setTmp b).setSt b) :=
  unchanged_mono (unchanged_trans (unchanged_setTmp s b) (unchanged_setSt _ b)) (by decide) (by decide)

/-- MIXCOL changes `ST`, its snapshot `G` and its loop variable (rule R167). -/
theorem unchanged_mixCol (s : State) : Unchanged [.st, .g] [.grp] s s.mixCol := by
  rw [mixCol_eq]
  refine ⟨fun sp hsp a => ?_, fun r hr => ?_⟩
  · cases sp with
    | st | g => simp at hsp
    | _ => rfl
  · cases r with
    | grp => simp at hr
    | _ => exact rfl

/-! ### Loading and storing the state buffer (rules R162 and R163) -/

/-- The bytes of a block in a memory, where each of them holds a value. -/
theorem readBytes_block {m : Memory} {block : Block}
    (h : ∀ i : Fin 256, Memory.byte? m i.val = some block[i]) :
    Memory.readBytes m 0 256 = some block.toList := by
  refine (Memory.readBytes_eq_some _ _ _ _).mpr ⟨by simp, fun j hj => ?_⟩
  rw [Nat.zero_add]
  exact (h ⟨j, hj⟩).trans (by simp [hj])

/-- What STST 0 leaves in `DOUT`: the state buffer, and beyond it what stood there. -/
theorem byteAt_dout_storeSt_zero (s : State) (a : Nat) :
    (s.storeSt 0).byteAt .dout a = if a < 256 then s.blk.st[a]? else s.byteAt .dout a := by
  simp [State.byteAt, Memory.byte?_writeBytes]

/-- Settles O28: the block read from `DIN` is the one whose bytes stand there, and both loads assign `ST`. -/
theorem ldstRule : Obligations.LdstRule := by
  refine ⟨fun sel => by simp [toNat_encode, Instr.opcode, Instr.imm16], fun sel => raisesFromHost rfl,
    fun s block hseq hdin => ?_, fun s hseq => ?_⟩
  · exact ⟨_, (exec_ldst_seq hseq 0#16).trans (loadSt_zero_eq (readBytes_block hdin)), fun _ => rfl,
      unchanged_setSt s block⟩
  · exact ⟨_, (exec_ldst_seq hseq 1#16).trans (loadSt_one s), fun _ => rfl, unchanged_setSt s _⟩

/-- Settles O29: a store to `DOUT` writes addresses 0 to 255 only, and a store to `KS` is one assignment. -/
theorem ststRule : Obligations.StstRule := by
  refine ⟨fun sel => by simp [toNat_encode, Instr.opcode, Instr.imm16], fun sel => raisesFromHost rfl,
    fun s hseq => ?_, fun s hseq => ?_⟩
  · refine ⟨_, exec_stst_seq hseq 0#16, fun i => ?_, fun a ha => ?_, unchanged_setDout s _⟩
    · exact (byteAt_dout_storeSt_zero s i).trans (by simp)
    · exact (byteAt_dout_storeSt_zero s a).trans (if_neg (Nat.not_lt.mpr ha))
  · exact ⟨_, exec_stst_seq hseq 1#16, fun _ => rfl, unchanged_setKs s _⟩

/-! ### The round key and the mask undo themselves (rules R164 and R171) -/

/-- Assigning to `ST` what stood there before the last assignment restores the state. -/
theorem setSt_setSt_eq_self {s : State} {b b' : Block} (h : b' = s.blk.st) :
    (s.setSt b).setSt b' = s := by
  subst h
  rfl

theorem addBlock_addBlock_cancel (st key : Block) :
    Reference.addBlock (Reference.addBlock st key) key = st := by
  refine vector_ext fun i hi => ?_
  simp only [addBlock_eq, getElem_xorBlock, BitVec.xor_assoc, BitVec.xor_self, BitVec.xor_zero]

theorem maskBlock_maskBlock_cancel (round : Nat) (st : Block) :
    maskBlock round (maskBlock round st) = st := by
  refine vector_ext fun i hi => ?_
  simp only [getElem_maskBlock, BitVec.xor_assoc, BitVec.xor_self, BitVec.xor_zero]

@[simp] theorem exec_xormask_seq {s : State} (h : s.ports.issuer = .seq) (round : BitVec 16) :
    exec (.xormask round) s = .next (s.xorMask round.toNat) := seqOnly_seq _ h

/-- Settles O30: window `r` holds the block, and XORing it in twice gives the old bytes back. -/
theorem addkeyRule : Obligations.AddkeyRule := by
  refine ⟨fun r => by simp [toNat_encode, Instr.opcode, Instr.imm16], fun r => raisesFromHost rfl,
    fun r s key hseq hR hkey => ?_⟩
  have hread := read_of_byteAt_rk hkey
  refine ⟨_, (exec_addkey_seq hseq r).trans (addKey_eq hR hread), fun i => ?_, unchanged_setSt s _, ?_⟩
  · exact getElem_xorBlock _ _ _ i.isLt
  · rw [exec_addkey_seq (s := s.setSt (Reference.addBlock s.blk.st key)) hseq,
      addKey_eq (key := key) (by simpa using hR) (by simpa using hread)]
    exact congrArg _ (setSt_setSt_eq_self (addBlock_addBlock_cancel s.blk.st key))

/-- Settles O36: the mask of rule R171 byte by byte, and XORing it in twice gives the old bytes back. -/
theorem xormaskRule : Obligations.XormaskRule := by
  refine ⟨fun round => by simp [toNat_encode, Instr.opcode, Instr.imm16],
    fun round => raisesFromHost rfl, fun round s hseq => ?_⟩
  refine ⟨_, exec_xormask_seq hseq round, fun i => ?_, unchanged_setSt s _, ?_⟩
  · exact getElem_maskBlock _ _ _ i.isLt
  · rw [exec_xormask_seq (s := s.xorMask _) hseq]
    exact congrArg _ (setSt_setSt_eq_self (maskBlock_maskBlock_cancel round.toNat s.blk.st))

/-! ### Substitution, permutation and mixing (rules R165 to R167) -/

/-- Settles O31: `ST` becomes its substitution, byte by byte. -/
theorem subbytesRule : Obligations.SubbytesRule := by
  refine ⟨by decide, raisesFromHost rfl, fun s hseq => ?_⟩
  exact ⟨_, exec_subbytes_seq hseq, fun i => getElem_subBlock _ _ _ i.isLt, unchanged_setSt s _⟩

/-- The last of the writes `out[dest[i]] <- src[i]` to a cell stands (rule R166). -/
theorem getElem_scatter_last (dest src old : Block) (i : Fin 256)
    (hlast : ∀ j : Fin 256, i < j → dest[j] ≠ dest[i]) :
    (scatter dest src old)[dest[i].toNat]'dest[i].isLt = src[i] := by
  obtain ⟨before, after, hsplit⟩ := List.append_of_mem (List.mem_finRange i)
  have hafter : ∀ j ∈ after, i < j := by
    have hsorted := List.pairwise_lt_finRange 256
    rw [hsplit, List.pairwise_append, List.pairwise_cons] at hsorted
    obtain ⟨_, ⟨hafter, _⟩, _⟩ := hsorted
    exact hafter
  rw [scatter, getElem_tab, hsplit, List.foldl_append, List.foldl_cons, if_pos rfl]
  exact foldl_overwrite_none after (fun j => dest[j].toNat = dest[i].toNat) (fun j => src[j]) _
    fun j hj heq => hlast j (hafter j hj) (BitVec.eq_of_toNat_eq heq)

/-- A cell to which no entry of the table points keeps what it held. -/
theorem getElem_scatter_unreached (dest src old : Block) (q : Fin 256)
    (hnone : ∀ i : Fin 256, dest[i].toNat ≠ q.val) : (scatter dest src old)[q] = old[q] := by
  rw [scatter, getElem_tab_fin]
  exact foldl_overwrite_none _ (fun i => dest[i].toNat = q.val) (fun i => src[i]) _ fun i _ => hnone i

/-- The entries of rule R127 fix the permutation table. -/
theorem eq_buildPerm_of_entries {perm : Block} (h : ∀ q : Fin 256, (perm[q]).toNat =
      16 * (q.val / 16) + (q.val % 16 + 16 - q.val / 16) % 16) : perm = buildPerm := by
  refine vector_ext fun q hq => BitVec.eq_of_toNat_eq ?_
  have hentry := h ⟨q, hq⟩
  simp only [Fin.getElem_fin] at hentry
  rw [hentry, getElem_buildPerm, BitVec.toNat_ofNat]
  omega

/-- Row `r` of the permuted state is row `r` of the old one, rotated left by `r` columns (rule R166). -/
theorem getElem_rotateRows (st : Block) (r c : Fin 16) :
    (Reference.rotateRows st)[16 * r.val + c.val] = st[16 * r.val + (c.val + r.val) % 16] := by
  have hrow : (16 * r.val + c.val) / 16 = r.val := by omega
  have hcol : (16 * r.val + c.val) % 16 = c.val := by omega
  simp only [Reference.rotateRows, getElem_tab, hrow, hcol]

/-- Settles O32: the scatter's writes for any table, and the row rotation for the table of rule R127. -/
theorem permuteRule : Obligations.PermuteRule := by
  refine ⟨by decide, raisesFromHost rfl, fun s hseq => ?_⟩
  refine ⟨_, exec_permute_seq hseq, fun i hlast => ?_, fun q hnone => ?_, rfl, fun hperm r c => ?_,
    unchanged_setTmp_setSt s _⟩
  · exact getElem_scatter_last _ _ _ i hlast
  · exact getElem_scatter_unreached _ _ _ q hnone
  · have hst : s.permute.blk.st = Reference.rotateRows s.blk.st := by
      rw [State.permute_blk, eq_buildPerm_of_entries hperm, scatter_buildPerm]
    simp only [hst, getElem_rotateRows]

/-- Settles O33: MIXCOL's bytes are those of the closed form, whose indices are taken within the group. -/
theorem mixcolRule : Obligations.MixcolRule := by
  refine ⟨by decide, raisesFromHost rfl, fun s hseq => ?_⟩
  refine ⟨_, exec_mixcol_seq hseq, fun grp i => ?_, unchanged_mixCol s⟩
  have hgrp : (16 * grp.val + i.val) / 16 = grp.val := by omega
  have hbyte : (16 * grp.val + i.val) % 16 = i.val := by omega
  simp only [State.mixCol_blk, getElem_mixGroups, hgrp, hbyte, rotl8]

/-! ### The rotation (rules R169 to R174) -/

/-- A rotation by a multiple of the 2048 bits is the identity (rule R173). -/
theorem rotlBits_of_mod_eq_zero (st : Block) {k : Nat} (h : k % 2048 = 0) : rotlBits st k = st :=
  if_pos h

/-- Byte `i` of the rotated state, with the byte shift and the bit shift of rule R174. -/
theorem getElem_rotlBits_block (st : Block) (k : Nat) (i : Fin 256) :
    (rotlBits st k)[i] =
      if k % 8 = 0 then st[(i.val + 256 - k % 2048 / 8) % 256]
      else (st[(i.val + 256 - k % 2048 / 8) % 256] <<< (k % 8))
        ||| (st[(i.val + 255 - k % 2048 / 8) % 256] >>> (8 - k % 8)) := by
  unfold rotlBits
  split
  · next h0 =>
    have hbit : k % 8 = 0 := by omega
    have hsrc : (i.val + 256 - k % 2048 / 8) % 256 = i.val := by omega
    simp only [hbit, if_true, hsrc, Fin.getElem_fin]
  · have hbit : k % (8 * 256) % 8 = k % 8 := by omega
    have hprev : ((i.val + 256 - k % 2048 / 8) % 256 + 256 - 1) % 256
        = (i.val + 255 - k % 2048 / 8) % 256 := by omega
    simp only [getElem_tab_fin, hbit, Nat.reduceMul, hprev]

@[simp] theorem exec_rotl_seq {s : State} (h : s.ports.issuer = .seq) (k : BitVec 16) :
    exec (.rotl k) s = .next (s.rotl k.toNat) := seqOnly_seq _ h

/-- Settles O34: the byte formula of rule R174, whose two branches are the last two cases. -/
theorem rotlRule : Obligations.RotlRule := by
  refine ⟨fun k => by simp [toNat_encode, Instr.opcode, Instr.imm16], fun k => raisesFromHost rfl,
    fun k s hseq => ?_⟩
  refine ⟨_, exec_rotl_seq hseq k, rotlBits_of_mod_eq_zero s.blk.st, fun hbit i => ?_, fun hbit i => ?_,
    unchanged_setTmp_setSt s _⟩
  · exact (getElem_rotlBits_block s.blk.st k.toNat i).trans (if_pos hbit)
  · exact (getElem_rotlBits_block s.blk.st k.toNat i).trans (if_neg hbit)

/-- Settles O37: the immediate of ROTL is the rotation of rule R103, and RDT is defined as the two updates. -/
theorem rdtRule : Obligations.RdtRule := by
  refine ⟨fun round => by simp [toNat_encode, Instr.opcode, Instr.imm16],
    fun round => raisesFromHost rfl, fun round s hseq => ?_⟩
  have himm : (BitVec.ofNat 16 (round.toNat % 8 + 1)).toNat = rotAmount round.toNat :=
    Nat.mod_eq_of_lt (by omega)
  refine ⟨s.rotl (rotAmount round.toNat), s.rdt round.toNat, ?_, ?_, ?_, ?_⟩
  · rw [exec_rotl_seq hseq, himm]
  · exact exec_xormask_seq (s := s.rotl _) hseq round
  · exact exec_rdt_seq hseq round
  · exact unchanged_mono (unchanged_trans (unchanged_setTmp_setSt s _) (unchanged_setSt _ _))
      (by decide) (by decide)

end Sys2Proof.Machine
end

section
/-! SUPPORT. BLOCKENC (42_block_primitive.md rules R160 and R161): the frames of its parts, its two errors, and the
block it leaves in `DOUT`. -/

namespace Sys2Proof.Machine

open Sys2Proof.Safety

/-! ### Frames -/

/-- The block-primitive unit holds `ST`, `TMP` and `G`. -/
theorem FrameBlk.unchanged {s t : State} (h : FrameBlk s t) :
    Unchanged [.st, .tmp, .g] [.rnd, .grp] s t := by
  refine ⟨fun sp hsp a => ?_, fun r hr => ?_⟩
  · cases sp with
    | st | tmp | g => simp at hsp
    | _ => simp only [State.byteAt, State.rkByte, h.ctx, h.keys, h.ctr, h.ops, h.out]
  · cases r with
    | rnd | grp => simp at hr
    | _ => simp only [Register.same, h.ctx, h.keys, h.ops, h.out, h.err, h.ports, h.freeIndex, h.w,
        h.p, h.n, h.idx]

theorem frameBlk_endBlock (s : State) : FrameBlk s s.endBlock := by constructor <;> simp

/-- The report of a result adds `DOUT_LEN`, `OUT_VALID` and `ERR` to what has changed (rule R160). -/
theorem unchanged_completeWithResult (s : State) (len : Nat) :
    Unchanged [] [.doutLen, .outValid, .err] s (s.completeWithResult len) := by
  refine ⟨fun sp _ a => ?_, fun r hr => ?_⟩
  · cases sp
    all_goals rfl
  · cases r with
    | doutLen | outValid | err => simp at hr
    | _ => exact rfl

/-! ### The command -/

/-- What `exec` runs for BLOCKENC. -/
theorem exec_blockenc (s : State) : exec .blockenc s = execBlockenc s := by rfl

/-- BLOCKENC without a context or without round keys. -/
theorem execBlockenc_notAdmitted {s : State} (h : s.ctx.valid = false ∨ s.keys.valid = false) :
    execBlockenc s = .next (s.raise .illegalCommand) := by
  rw [execBlockenc, if_pos h]

/-- BLOCKENC of an input that is not one block long. -/
theorem execBlockenc_badLength {s : State} (hctx : s.ctx.valid = true) (hkeys : s.keys.valid = true)
    (hdesc : s.ops.dinDesc.written = true) (hlen : s.ops.dinDesc.len ≠ 256) :
    execBlockenc s = .next (s.raise .invalidBlockLength) := by
  simp [execBlockenc, hctx, hkeys, hdesc, hlen]

/-- Held round keys are the windows `0 .. R`. -/
theorem read_of_roundKeysHeld {s : State} {rk : Nat → Block} (h : RoundKeysHeld s rk) {w : Nat}
    (hw : w ≤ s.ctx.rounds.toNat) : Store.read s.keys.rk w = some (rk w) :=
  read_of_byteAt_rk (h w hw)

/-- BLOCKENC of a supplied block: it ends in the encrypted state, stored to a fresh `DOUT` (rule R160). -/
theorem execBlockenc_supplied {s : State} {rk : Nat → Block} {block : Block} (hinv : ContextInv s)
    (hctx : s.ctx.valid = true) (hkeys : s.keys.valid = true) (hrk : RoundKeysHeld s rk)
    (hin : InputSupplied s block.toList) :
    ∃ u, execBlockenc s = .next ((u.storeSt 0).endBlock.completeWithResult 256) ∧
      FrameBlk s.allocateResult u ∧
      u.blk.st = Reference.encryptBlock s.ctx.sbox rk s.ctx.rounds.toNat block := by
  obtain ⟨hdesc, hbytes⟩ := hin
  have hread : Memory.readBytes s.ops.din 0 256 = some block.toList :=
    readBytes_block fun i => (hbytes i (by simp)).trans (by simp)
  obtain ⟨u, hu, hframe, hst⟩ := encryptState_eq (s := s.allocateResult.setSt block) rk
    (perm_eq_buildPerm (s := s) hinv hctx) fun w hw => read_of_roundKeysHeld hrk hw
  refine ⟨u, ?_, (frameBlk_setSt _ _).trans hframe, by simpa using hst⟩
  rw [execBlockenc_eq hctx hkeys (by rw [hdesc]) (by simp [hdesc]),
    loadSt_zero_eq (s := s.allocateResult) hread, andThen_next, hu, andThen_next]

/-- What BLOCKENC changes, from the fresh result to the report. -/
theorem unchanged_blockDone {s u : State} (h : FrameBlk s.allocateResult u) :
    Unchanged [.dout, .st, .tmp, .g] [.doutLen, .outValid, .err, .rnd, .grp] s
      ((u.storeSt 0).endBlock.completeWithResult 256) := by
  have hencrypted := unchanged_trans (unchanged_setDout s []) h.unchanged
  have hstored : Unchanged _ _ s (u.storeSt 0) := unchanged_trans hencrypted (unchanged_setDout u _)
  have hended := unchanged_trans hstored (frameBlk_endBlock (u.storeSt 0)).unchanged
  exact unchanged_mono (unchanged_trans hended (unchanged_completeWithResult _ 256)) (by decide)
    (by decide)

/-- Settles O38: the two errors in their order, and the block that the last store leaves in the fresh `DOUT`. -/
theorem blockencRule : Obligations.BlockencRule := by
  refine ⟨by decide, fun s h => execBlockenc_notAdmitted h,
    fun s hctx hkeys hdesc hlen => execBlockenc_badLength hctx hkeys hdesc hlen,
    fun s rk block hinv hctx hkeys hrk hin => ?_⟩
  obtain ⟨u, hu, hframe, hst⟩ := execBlockenc_supplied hinv hctx hkeys hrk hin
  refine ⟨_, (exec_blockenc s).trans hu, rfl, rfl, rfl, fun q => ?_, fun a ha => ?_,
    unchanged_blockDone hframe⟩
  · exact (byteAt_dout_storeSt_zero u q).trans (by simp [hst])
  · refine (byteAt_dout_storeSt_zero u a).trans ((if_neg (Nat.not_lt.mpr ha)).trans ?_)
    rw [State.byteAt, hframe.out]
    rfl

end Sys2Proof.Machine
end

section
/-! SUPPORT. The micro-operations of 43_ctr_driver.md (rules R204, R205, R209 and R212): the bytes each of them leaves,
and the frames of their updates. -/

namespace Sys2Proof.Machine

open Sys2Proof.Safety

/-! ### What the sequencer runs for them (rule R94) -/

@[simp] theorem exec_ctrinit_seq {s : State} (h : s.ports.issuer = .seq) :
    exec .ctrinit s = s.ctrInit := seqOnly_seq _ h

@[simp] theorem exec_ksxor_seq {s : State} (h : s.ports.issuer = .seq) :
    exec .ksxor s = s.ksXor := seqOnly_seq _ h

@[simp] theorem exec_incctr_seq {s : State} (h : s.ports.issuer = .seq) :
    exec .incctr s = .next s.incCtr := seqOnly_seq _ h

/-! ### Frames -/

theorem unchanged_setCnt (s : State) (b : Block) : Unchanged [.cnt] [] s (s.setCnt b) := by
  refine ⟨fun sp hsp a => ?_, fun r _ => ?_⟩
  · cases sp with
    | cnt => simp at hsp
    | _ => rfl
  · cases r
    all_goals exact rfl

/-- A write of a loop variable of the CTR driver changes no byte. -/
theorem unchanged_setN_setP (s : State) (n p : Nat) : Unchanged [] [.p, .n] s ((s.setN n).setP p) := by
  refine ⟨fun sp _ a => ?_, fun r hr => ?_⟩
  · cases sp
    all_goals rfl
  · cases r with
    | p | n => simp at hr
    | _ => exact rfl

theorem unchanged_setIdx (s : State) (n : Nat) : Unchanged [] [.idx] s (s.setIdx n) := by
  refine ⟨fun sp _ a => ?_, fun r hr => ?_⟩
  · cases sp
    all_goals rfl
  · cases r with
    | idx => simp at hr
    | _ => exact rfl

/-! ### CTRINIT (rule R204) -/

/-- The bytes of a vector in a memory, where each of them holds a value. -/
theorem readBytes_vector {n : Nat} {m : Memory} {v : Vector Byte n}
    (h : ∀ j : Fin n, Memory.byte? m j.val = some v[j]) :
    Memory.readBytes m 0 n = some v.toList := by
  refine (Memory.readBytes_eq_some _ _ _ _).mpr ⟨by simp, fun j hj => ?_⟩
  rw [Nat.zero_add]
  exact (h ⟨j, hj⟩).trans (by simp [hj])

/-- The counter field of block number 0 is zero (rule R204: "the first counter value is zero, not one"). -/
theorem getElem_counterBlock_zero (iv : Vector Byte 32) (j : Nat) (hj : j < 256) (h : 32 ≤ j) :
    (Reference.counterBlock iv 0)[j] = 0#8 := by
  rw [Reference.counterBlock, getElem_tab, dif_neg (Nat.not_lt.mpr h), Nat.zero_mod, Nat.zero_div,
    Nat.zero_mod]

/-- Settles O40: CTRINIT assigns the counter block of block number 0. -/
theorem ctrinitRule : Obligations.CtrinitRule := by
  refine ⟨by decide, raisesFromHost rfl, fun s iv hseq hiv => ?_⟩
  exact ⟨_, (exec_ctrinit_seq hseq).trans (ctrInit_eq (readBytes_vector hiv)),
    fun j => getElem_counterBlock_iv iv 0 j j.isLt,
    fun j hj => getElem_counterBlock_zero iv j j.isLt hj, unchanged_setCnt s _⟩

/-! ### ENCCTR (rule R205) -/

/-- An ENCCTR that answers changes the block-primitive unit and `KS`. -/
theorem unchanged_encCtr {s t : State} (h : s.encCtr = .next t) :
    Unchanged [.st, .tmp, .g, .ks] [.rnd, .grp] s t := by
  rw [State.encCtr, loadSt_one, andThen_next] at h
  obtain ⟨u, hu, h⟩ := andThen_eq_next.mp h
  cases h
  have hencrypted := ((frameBlk_setSt s s.ctr.cnt).trans (encryptState_frame hu)).unchanged
  exact unchanged_trans hencrypted (unchanged_setKs u _)

/-- Settles O41: under held round keys ENCCTR encrypts the counter block, and it stores to `KS` alone. -/
theorem encctrRule : Obligations.EncctrRule := by
  refine ⟨by decide, raisesFromHost rfl, fun s rk hseq hinv hctx hrk => ?_⟩
  obtain ⟨t, ht, _, _, _, _, hks⟩ := encCtr_eq rk (perm_eq_buildPerm hinv hctx)
    fun w hw => read_of_roundKeysHeld hrk hw
  exact ⟨t, (exec_encctr_seq hseq).trans ht, hks, unchanged_encCtr ht⟩

/-! ### KSXOR (rule R209) -/

/-- A KSXOR inside the input, whose chunk holds values, completes. -/
theorem ksXor_completes {s : State} (hp : s.seq.p ≤ s.ops.dinDesc.len)
    (hdin : ∀ j, j < min 256 (s.ops.dinDesc.len - s.seq.p) →
      (Memory.byte? s.ops.din (s.seq.p + j)).isSome = true) : ∃ t, s.ksXor = .next t := by
  obtain ⟨l, hl⟩ := Option.isSome_iff_exists.mp ((Memory.readBytes_isSome _ _ _).mpr hdin)
  exact ⟨_, by simp only [State.ksXor, State.withDin, hl, if_neg (Nat.not_lt.mpr hp)]; rfl⟩

/-- The loop variables after a KSXOR. -/
theorem ksXor_seq {s t : State} (h : s.ksXor = .next t) :
    t.seq.n = min 256 (s.ops.dinDesc.len - s.seq.p) ∧ t.seq.p = s.seq.p + t.seq.n := by
  obtain ⟨_, _, _, rfl⟩ := ksXor_eq_next h
  exact ⟨rfl, rfl⟩

/-- What a KSXOR leaves in `DOUT`: in its chunk the input XOR the keystream block, elsewhere what stood there. -/
theorem ksXor_dout {s t : State} (h : s.ksXor = .next t) (a : Nat) :
    t.byteAt .dout a =
      if s.seq.p ≤ a ∧ a < s.seq.p + t.seq.n then
        (s.byteAt .din a).map fun d => d ^^^ s.ctr.ks[(a - s.seq.p) % 256]
      else s.byteAt .dout a := by
  obtain ⟨_, l, hl, rfl⟩ := ksXor_eq_next h
  obtain ⟨hlen, hbytes⟩ := (Memory.readBytes_eq_some _ _ _ _).mp hl
  simp only [State.byteAt, State.setP_out, State.setN_out, State.setDout_out, State.setP_seq,
    State.setN_seq, Memory.byte?_writeBytes, List.length_zipWith, hlen, Vector.length_toList]
  rw [Nat.min_eq_left (Nat.min_le_left _ _)]
  split
  · next ha =>
    have hbyte := hbytes (a - s.seq.p) (by omega)
    have hmod : (a - s.seq.p) % 256 = a - s.seq.p := by omega
    have hks : a - s.seq.p < 256 := by omega
    have hal : a - s.seq.p < l.length := by omega
    rw [Nat.add_sub_cancel' ha.1] at hbyte
    rw [hbyte, List.getElem?_zipWith, List.getElem?_eq_getElem hal]
    simp [hmod, hks]
  · rfl

/-- A KSXOR that answers changes `DOUT`, `P` and `N`. -/
theorem unchanged_ksXor {s t : State} (h : s.ksXor = .next t) :
    Unchanged [.dout] [.p, .n] s t := by
  obtain ⟨_, _, _, rfl⟩ := ksXor_eq_next h
  exact unchanged_trans (unchanged_setDout s _) (unchanged_setN_setP _ _ _)

/-- Settles O42: the chunk's bytes are written and no other, and `P` moves to its end. -/
theorem ksxorRule : Obligations.KsxorRule := by
  refine ⟨by decide, raisesFromHost rfl, fun s hseq hp hdin => ?_⟩
  obtain ⟨t, ht⟩ := ksXor_completes hp hdin
  obtain ⟨hn, hpos⟩ := ksXor_seq ht
  refine ⟨t, (exec_ksxor_seq hseq).trans ht, hn, hpos, fun j hj => ?_, fun a ha => ?_,
    unchanged_ksXor ht⟩
  · rw [ksXor_dout ht, if_pos ⟨Nat.le_add_right _ _, by omega⟩]
    simp only [Nat.add_sub_cancel_left, Nat.mod_eq_of_lt j.isLt, Fin.getElem_fin]
  · rw [ksXor_dout ht, if_neg ha]

/-! ### INCCTR (rules R212 and R213) -/

/-- Where every byte of the field's end is `FF`, the carry passes them all and leaves `00`. -/
theorem incFrom_wrap (count : Nat) (h : count ≤ 224) (cnt : Block)
    (hfull : ∀ (j : Nat) (hj : j < 256), 32 ≤ j → j < 32 + count → cnt[j] = 0xFF#8) (j : Nat)
    (hj : j < 256) (hlow : 32 ≤ j) (hhigh : j < 32 + count) : (incFrom count h cnt).1[j] = 0#8 := by
  induction count generalizing cnt with
  | zero => omega
  | succ c ih =>
    have hcarry : cnt[32 + c] + 1#8 = 0#8 := by
      rw [hfull (32 + c) (by omega) (by omega) (by omega)]
      decide
    simp only [incFrom, hcarry, ne_eq, not_true_eq_false, if_false]
    by_cases hjc : j = 32 + c
    · subst hjc
      rw [incFrom_outside _ _ _ _ hj (.inr (Nat.le_refl _)), Vector.getElem_set_self]
    · refine ih (by omega) _ (fun i hi h32 hic => ?_) (by omega)
      rw [Vector.getElem_set_ne _ _ (by omega)]
      exact hfull i hi h32 (by omega)

/-- Settles O43: the loop adds one to the field modulo its size and leaves the IV bytes. -/
theorem incctrRule : Obligations.IncctrRule := by
  refine ⟨by decide, raisesFromHost rfl, fun s hseq => ?_⟩
  refine ⟨_, exec_incctr_seq hseq, ?_, fun j => ?_, fun hfull j hj => ?_,
    unchanged_trans (unchanged_setCnt s _) (unchanged_setIdx _ _)⟩
  · rw [State.incCtr_ctr, counterField_eq, incFrom_field, ← counterField_eq, two_pow_field]
  · exact incFrom_outside _ _ _ j (by omega) (.inl j.isLt)
  · exact incFrom_wrap _ _ _ (fun i hi h32 _ => hfull ⟨i, hi⟩ h32) j j.isLt hj (by omega)

end Sys2Proof.Machine
end

section
/-! SUPPORT. ENCRYPT and DECRYPT (43_ctr_driver.md rules R200 to R203, R214 and R216): the errors of a call, the bytes
and the frame of its result, that two calls undo each other, and that a call is its program of single operations. -/

namespace Sys2Proof.Machine

open Sys2Proof.Safety

/-- What `exec` runs for a call: DECRYPT is ENCRYPT (rule R201). -/
theorem exec_call {i : Instr} (hi : i = .encrypt ∨ i = .decrypt) (s : State) :
    exec i s = s.ctrCall := by
  rcases hi with rfl | rfl
  · rfl
  · rfl

/-! ### The errors of a call (rule R202) -/

theorem ctrCall_noContext {s : State} (hctx : s.ctx.valid = false) :
    s.ctrCall = .next (s.raise .illegalCommand) := by
  rw [State.ctrCall, if_pos hctx]

/-- A call in a context, with its descriptors written, reports the error of `Validate`. -/
theorem ctrCall_invalid {s : State} {k : ErrKind} (hctx : s.ctx.valid = true)
    (hdesc : s.callDescriptorsWritten = true) (hk : s.validate = some k) :
    s.ctrCall = .next (s.validated.raise k) := by
  simp [State.ctrCall, hctx, hdesc, hk]

/-- The condition of `InvalidIvLength` (rule R252). -/
theorem ivBad_iff (s : State) :
    s.ivBad = true ↔ s.ops.ivDesc.present = false ∨ s.ops.ivDesc.len ≠ 32 := by
  simp [State.ivBad]

theorem keyBad_eq_false {s : State} (hpresent : s.ops.keyDesc.present = true)
    (hlen : s.ops.keyDesc.len = 256) : s.keyBad = false := by
  simp [State.keyBad, hpresent, hlen]

theorem ivBad_eq_false {s : State} (hpresent : s.ops.ivDesc.present = true)
    (hlen : s.ops.ivDesc.len = 32) : s.ivBad = false := by
  simp [State.ivBad, hpresent, hlen]

/-- `Validate` where the key alone is bad uses up no free choice. -/
theorem validate_keyBad {s : State} (hkey : s.keyBad = true) (hiv : s.ivBad = false) :
    s.validate = some .invalidKeyLength ∧ s.validated = s := by
  simp [State.validate, State.validated, hkey, hiv]

/-- `Validate` where the IV alone is bad uses up no free choice. -/
theorem validate_ivBad {s : State} (hkey : s.keyBad = false) (hiv : s.ivBad = true) :
    s.validate = some .invalidIvLength ∧ s.validated = s := by
  simp [State.validate, State.validated, hkey, hiv]

/-- `Validate` where both are bad reports one of the two (rule R256). -/
theorem validate_bothBad {s : State} (hkey : s.keyBad = true) (hiv : s.ivBad = true) :
    s.validate = some .invalidKeyLength ∨ s.validate = some .invalidIvLength := by
  simp only [State.validate, hkey, hiv]
  split
  · exact .inl rfl
  · exact .inr rfl

/-- An error of a call changes the report in `STATUS` and the model's count of free choices (rule R258). -/
theorem unchanged_validated_raise (s : State) (k : ErrKind) :
    Unchanged [] [.err, .outValid, .freeIndex] s (s.validated.raise k) := by
  obtain ⟨n, hn⟩ : ∃ n, s.validated = { s with freeIndex := n } := by
    unfold State.validated
    split
    · exact ⟨_, rfl⟩
    · exact ⟨s.freeIndex, rfl⟩
  rw [hn]
  refine ⟨fun sp _ a => ?_, fun r hr => ?_⟩
  · cases sp
    all_goals rfl
  · cases r with
    | err | outValid | freeIndex => simp at hr
    | _ => exact rfl

/-- A call with its lengths right that answers reports no error. -/
theorem ctrCall_err_none {s t : State} (hctx : s.ctx.valid = true)
    (hdesc : s.callDescriptorsWritten = true) (hvalid : s.validate = none)
    (h : s.ctrCall = .next t) : t.err = none := by
  rw [ctrCall_eq hctx hdesc hvalid] at h
  obtain ⟨u, _, h⟩ := andThen_eq_next.mp h
  cases h
  rfl

/-- Settles O45: the check of the context first, then the four cases of `Validate`. -/
theorem callErrors : Obligations.CallErrors := by
  intro i s hi
  rw [exec_call hi]
  refine ⟨ctrCall_noContext, fun hctx hkeyWritten hivWritten hdinWritten => ?_⟩
  have hdesc : s.callDescriptorsWritten = true := by
    simp [State.callDescriptorsWritten, hkeyWritten, hivWritten, hdinWritten]
  refine ⟨fun hkey hpresent hlen => ?_, fun hiv hpresent hlen => ?_, fun hkey hiv => ?_,
    fun hkeyPresent hkeyLen hivPresent hivLen t => ?_⟩
  · obtain ⟨hk, hsame⟩ := validate_keyBad ((keyBad_iff s).mpr hkey) (ivBad_eq_false hpresent hlen)
    rw [ctrCall_invalid hctx hdesc hk, hsame]
  · obtain ⟨hk, hsame⟩ := validate_ivBad (keyBad_eq_false hpresent hlen) ((ivBad_iff s).mpr hiv)
    rw [ctrCall_invalid hctx hdesc hk, hsame]
  · rcases validate_bothBad ((keyBad_iff s).mpr hkey) ((ivBad_iff s).mpr hiv) with hk | hk
    · exact ⟨_, ctrCall_invalid hctx hdesc hk, .inl rfl, rfl, unchanged_validated_raise s _⟩
    · exact ⟨_, ctrCall_invalid hctx hdesc hk, .inr rfl, rfl, unchanged_validated_raise s _⟩
  · exact ctrCall_err_none hctx hdesc
      (validate_eq_none (keyBad_eq_false hkeyPresent hkeyLen) (ivBad_eq_false hivPresent hivLen))

/-! ### The result of a call (rules R203 and R214) -/

/-- The context exists and the host has supplied a key, an IV and an input: what a call needs to succeed. -/
structure CallReady (s : State) (key : Block) (iv : Vector Byte 32) (data : List Byte) : Prop where
  inv : ContextInv s
  ctx : s.ctx.valid = true
  key : KeySupplied s key
  iv : IvSupplied s iv
  input : InputSupplied s data

/-- What a call needs is read from the context and the operands. -/
theorem CallReady.of_eq {s t : State} {key : Block} {iv : Vector Byte 32} {data : List Byte}
    (h : CallReady s key iv data) (hctx : t.ctx = s.ctx) (hops : t.ops = s.ops) :
    CallReady t key iv data where
  inv := contextInv_of_ctx_eq h.inv hctx
  ctx := by rw [hctx]; exact h.ctx
  key := by rw [KeySupplied, hops]; exact h.key
  iv := by rw [IvSupplied, hops]; exact h.iv
  input := by rw [InputSupplied, hops]; exact h.input

/-- Byte `q` of a result: the input byte XOR the keystream byte of rule R214. -/
def resultByte (c : Context) (key : Block) (iv : Vector Byte 32) (data : List Byte) (q : Nat) :
    Option Byte :=
  data[q]?.map fun d => d ^^^ Reference.keystreamByte c.sbox key c.rounds.toNat iv q

/-- The procedure of a call on supplied operands completes with the bytes of rule R214. -/
theorem CallReady.ctrProcedure {s : State} {key : Block} {iv : Vector Byte 32} {data : List Byte}
    (h : CallReady s key iv data) :
    ∃ t, s.ctrProcedure = .next t ∧
      ∀ q, Memory.byte? t.out.dout q = resultByte s.ctx key iv data q := by
  obtain ⟨_, hkey⟩ := h.key
  obtain ⟨_, hiv⟩ := h.iv
  obtain ⟨hdesc, hdin⟩ := h.input
  have hlen : s.ops.dinDesc.len = data.length := by rw [hdesc]
  obtain ⟨t, ht, hdone⟩ := ctrProcedure_eq (readBytes_vector hkey) (readBytes_vector hiv)
    (perm_eq_buildPerm h.inv h.ctx) fun q hq => by
      rw [hlen] at hq
      simp [hdin q hq, hq]
  refine ⟨t, ht, fun q => ?_⟩
  rw [hdone q, hlen, resultByte]
  split
  · next hq =>
    rw [hdin q hq]
    rfl
  · next hq =>
    rw [List.getElem?_eq_none (Nat.not_lt.mp hq)]
    rfl

/-- A call on supplied operands is its procedure, and the report of a result of the input's length. -/
theorem CallReady.ctrCall {s t : State} {key : Block} {iv : Vector Byte 32} {data : List Byte}
    (h : CallReady s key iv data) (ht : s.ctrProcedure = .next t) :
    s.ctrCall = .next (t.completeWithResult data.length) := by
  obtain ⟨hkey, _⟩ := h.key
  obtain ⟨hiv, _⟩ := h.iv
  obtain ⟨hdin, _⟩ := h.input
  have hdesc : s.callDescriptorsWritten = true := by
    simp [State.callDescriptorsWritten, hkey, hiv, hdin]
  have hvalid : s.validate = none :=
    validate_eq_none (keyBad_eq_false (by rw [hkey]) (by rw [hkey]))
      (ivBad_eq_false (by rw [hiv]) (by rw [hiv]))
  rw [ctrCall_eq h.ctx hdesc hvalid, ht, andThen_next, hdin]

/-- What the procedure of a call changes: the buffers of the call, the result and the loop variables. -/
theorem unchanged_ctrProcedure {s t : State} (h : s.ctrProcedure = .next t) :
    Unchanged [.dout, .rk, .t, .st, .tmp, .g, .cnt, .ks]
      [.rkValid, .doutLen, .outValid, .w, .rnd, .grp, .p, .n, .idx] s t := by
  obtain ⟨hctx, hops, herr, hports, hfree, _⟩ := ctrProcedure_frame h
  refine ⟨fun sp hsp a => ?_, fun r hr => ?_⟩
  · cases sp with
    | dout | rk | t | st | tmp | g | cnt | ks => simp at hsp
    | _ => simp only [State.byteAt, hctx, hops]
  · cases r with
    | rkValid | doutLen | outValid | w | rnd | grp | p | n | idx => simp at hr
    | _ => simp only [Register.same, hctx, hops, herr, hports, hfree]

/-- Settles O44: the call is its procedure, whose bytes and frame are known, and the report. -/
theorem callResult : Obligations.CallResult := by
  refine ⟨by decide, by decide, fun i s key iv data hi hinv hctx hkey hiv hin => ?_⟩
  have hready : CallReady s key iv data := ⟨hinv, hctx, hkey, hiv, hin⟩
  obtain ⟨t, ht, hbytes⟩ := hready.ctrProcedure
  obtain ⟨_, _, _, _, _, hrk, hvalid, _⟩ := ctrProcedure_frame ht
  refine ⟨_, (exec_call hi s).trans (hready.ctrCall ht), rfl, rfl, rfl, hbytes, hvalid,
    fun a => byteAt_rk_eq_none ?_, ?_⟩
  · rw [State.completeWithResult_keys, hrk, Store.read_nil]
  · exact unchanged_mono
      (unchanged_trans (unchanged_ctrProcedure ht) (unchanged_completeWithResult t _))
      (by decide) (by decide)

/-! ### A call undoes a call (rule R216) -/

/-- XOR with the same keystream byte twice gives the byte back. -/
theorem resultByte_resultByte {c : Context} {key : Block} {iv : Vector Byte 32}
    {data cipher : List Byte} (h : ∀ q, cipher[q]? = resultByte c key iv data q) (q : Nat) :
    resultByte c key iv cipher q = data[q]? := by
  rw [resultByte, h q, resultByte, Option.map_map]
  have hcancel : ((fun d => d ^^^ Reference.keystreamByte c.sbox key c.rounds.toNat iv q) ∘
      fun d => d ^^^ Reference.keystreamByte c.sbox key c.rounds.toNat iv q) = id := by
    funext d
    simp only [Function.comp_apply, BitVec.xor_assoc, BitVec.xor_self, BitVec.xor_zero, id]
  rw [hcancel, Option.map_id, id]

/-- A result has the input's length. -/
theorem length_of_resultByte {c : Context} {key : Block} {iv : Vector Byte 32}
    {data cipher : List Byte} (h : ∀ q, cipher[q]? = resultByte c key iv data q) :
    cipher.length = data.length := by
  have hcipher : cipher = data.mapIdx fun q d =>
      d ^^^ Reference.keystreamByte c.sbox key c.rounds.toNat iv q :=
    List.ext_getElem? fun q => (h q).trans (by rw [resultByte, List.getElem?_mapIdx])
  rw [hcipher, List.length_mapIdx]

/-- Settles O46: the second call XORs the same keystream into what the first one left. -/
theorem decryptUndoesEncrypt : Obligations.DecryptUndoesEncrypt := by
  intro s t u key iv data cipher hinv hctx hkey hiv hin ht hcipher huctx hukey huiv huin
  have hs : CallReady s key iv data := ⟨hinv, hctx, hkey, hiv, hin⟩
  have hu : CallReady u key iv cipher :=
    ⟨contextInv_of_ctx_eq hinv huctx, huctx ▸ hctx, hukey, huiv, huin⟩
  obtain ⟨x, hx, hxbytes⟩ := hs.ctrProcedure
  obtain ⟨y, hy, hybytes⟩ := hu.ctrProcedure
  cases ht.symm.trans ((exec_call (.inl rfl) s).trans (hs.ctrCall hx))
  have hresult : ∀ q, cipher[q]? = resultByte s.ctx key iv data q := fun q =>
    (hcipher q).symm.trans (hxbytes q)
  refine ⟨_, (exec_call (.inr rfl) u).trans (hu.ctrCall hy), rfl, length_of_resultByte hresult,
    fun q => ?_⟩
  exact (hybytes q).trans (huctx ▸ resultByte_resultByte hresult q)

/-! ### A call is its program (rule R203) -/

/-- Two continuations that agree where the first part answers make the same sequence. -/
theorem andThen_congr {r : Res} {f g : State → Res} (h : ∀ t, r = .next t → f t = g t) :
    andThen r f = andThen r g := by
  cases r with
  | next t => exact h t rfl
  | fault e => rfl
  | refused e => rfl

/-- What `exec` runs for the sequencer's RELEASE. -/
theorem exec_release_seq {s : State} (h : s.ports.issuer = .seq) :
    exec .release s = .next s.discard := by
  show execRelease s = _
  rw [execRelease, h]

/-- One iteration of a call, issued one operation at a time. -/
theorem runOps_block {s : State} (hseq : s.ports.issuer = .seq) :
    runOps [.encctr, .ksxor, .incctr] s = ctrBlock s := by
  rw [runOps_cons, exec_encctr_seq hseq, ctrBlock]
  refine andThen_congr fun u hu => ?_
  have huseq : u.ports.issuer = .seq := by rw [(encCtr_frame hu).1.ports, hseq]
  rw [runOps_cons, exec_ksxor_seq huseq]
  refine andThen_congr fun v hv => ?_
  have hvseq : v.ports.issuer = .seq := by rw [(ksXor_frame hv).1.ports, huseq]
  rw [runOps_cons, exec_incctr_seq hvseq, andThen_next]
  rfl

/-- An iteration moves the stream position to the end of its chunk. -/
theorem ctrBlock_streamPosition {s t : State} (h : ctrBlock s = .next t) :
    t.seq.p = s.seq.p + min 256 (s.ops.dinDesc.len - s.seq.p) := by
  obtain ⟨u, hu, h⟩ := andThen_eq_next.mp h
  obtain ⟨v, hv, h⟩ := andThen_eq_next.mp h
  cases h
  obtain ⟨hn, hp⟩ := ksXor_seq hv
  rw [hn, encCtr_streamPosition hu, (encCtr_frame hu).1.ops] at hp
  exact hp

/-- The loop of a call is as many iterations as the rest of the input has blocks, none of them skipped. -/
theorem runOps_blocks {n : Nat} {s : State} (hseq : s.ports.issuer = .seq)
    (hn : (s.ops.dinDesc.len - s.seq.p + 255) / 256 = n) :
    runOps (List.replicate n [.encctr, .ksxor, .incctr]).flatten s = ctrLoop n s := by
  induction n generalizing s with
  | zero => rfl
  | succ n ih =>
    rw [List.replicate_succ, List.flatten_cons, runOps_append, runOps_block hseq, ctrLoop,
      if_pos (by omega)]
    refine andThen_congr fun t ht => ?_
    have hframe := (ctrBlock_frame ht).1
    have hp := ctrBlock_streamPosition ht
    exact ih (by rw [hframe.ports, hseq]) (by rw [hframe.ops]; omega)

/-- Allocating a result where `DOUT` is empty, and starting the stream where `P = 0`, change nothing. -/
theorem allocateResult_eq_self {s : State} (h : s.out.dout = []) : s.allocateResult = s := by
  rw [State.allocateResult, ← h]
  rfl

theorem setP_eq_self {s : State} (h : s.seq.p = 0) : s.setP 0 = s := by
  rw [← h]
  rfl

/-- The program of a call, from an empty result and `P = 0`, ends as the procedure of the call does, in a next
state or in the same stop. -/
theorem runOps_callProgram {s : State} (hseq : s.ports.issuer = .seq) (hdout : s.out.dout = [])
    (hp : s.seq.p = 0) : runOps (callProgram s.ctrIterations) s = s.ctrProcedure := by
  rw [callProgram, List.cons_append, List.cons_append, runOps_cons, exec_keyexpand_seq hseq,
    State.ctrProcedure]
  refine andThen_congr fun u hu => ?_
  have hframe := (expandKey_eq_next hu).1
  rw [runOps_cons, exec_ctrinit_seq (by rw [hframe.ports, hseq]),
    allocateResult_eq_self (by rw [hframe.out, hdout])]
  refine andThen_congr fun v hv => ?_
  obtain ⟨iv, _, hv⟩ := withIv_eq_next.mp hv
  cases hv
  have hvops : (u.setCnt (blockOfList iv)).ops = s.ops := hframe.ops
  have hvseq : (u.setCnt (blockOfList iv)).ports.issuer = .seq := by
    rw [State.setCnt_ports, hframe.ports, hseq]
  have hvp : (u.setCnt (blockOfList iv)).seq.p = 0 := by rw [State.setCnt_seq, hframe.p, hp]
  rw [runOps_append, runOps_blocks hvseq (by rw [hvops, hvp]; rfl), setP_eq_self hvp,
    State.ctrIterations, State.ctrIterations, hvops]
  refine andThen_congr fun w hw => ?_
  rw [runOps_cons, exec_release_seq (by rw [(ctrLoop_frame hw).1.ports, hvseq]), andThen_next]
  rfl

/-- The state from which the sequencer issues the program of a call: an empty result and `P = 0`. -/
def State.callStart (s : State) : State :=
  { s with
    out := { s.out with dout := [] }
    seq := { s.seq with p := 0 }
    ports := { s.ports with issuer := .seq } }

/-- The program of a call of `data` runs the procedure of a call from that state. -/
theorem runOps_callStart {s : State} {data : List Byte} (hin : InputSupplied s data) :
    runOps (callProgram ((data.length + 255) / 256)) s.callStart = s.callStart.ctrProcedure := by
  obtain ⟨hdesc, _⟩ := hin
  have hblocks : (data.length + 255) / 256 = s.callStart.ctrIterations := by
    rw [State.ctrIterations, State.callStart, hdesc]
  rw [hblocks, runOps_callProgram rfl rfl rfl]

/-- Settles O47: the program runs the procedure from a state with the same context and operands, and these determine
the bytes of the result. -/
theorem callIsItsProgram : Obligations.CallIsItsProgram := by
  intro i s key iv data hi hinv hctx hkey hiv hin
  have hs : CallReady s key iv data := ⟨hinv, hctx, hkey, hiv, hin⟩
  have hstart : CallReady s.callStart key iv data := hs.of_eq rfl rfl
  obtain ⟨t, ht, htbytes⟩ := hs.ctrProcedure
  obtain ⟨u, hu, hubytes⟩ := hstart.ctrProcedure
  obtain ⟨htctx, htops, _, _, _, htrk, htvalid, htwf, _⟩ := ctrProcedure_frame ht
  obtain ⟨huctx, huops, _, _, _, hurk, huvalid, huwf, _⟩ := ctrProcedure_frame hu
  exact ⟨_, u, (exec_call hi s).trans (hs.ctrCall ht), (runOps_callStart hin).trans hu,
    Store.ext_of_wf htwf huwf fun q => (htbytes q).trans (hubytes q).symm, htrk.trans hurk.symm,
    htvalid.trans huvalid.symm, htctx.trans huctx.symm, htops.trans huops.symm⟩

end Sys2Proof.Machine
end

section
/-! SUPPORT. The system family of 44_system_commands.md: what RELEASE discards (rules R230 and R231), what a host read
returns (rule R232), and what a host write stores (rule R233). -/

namespace Sys2Proof.Machine

open Sys2Proof.Safety

/-! ### RELEASE (rules R230 and R231) -/

/-- What `exec` runs for the host's RELEASE without a context. -/
theorem exec_release_noContext {s : State} (hhost : s.ports.issuer = .host)
    (hctx : s.ctx.valid = false) : exec .release s = .next (s.raise .illegalCommand) := by
  show execRelease s = _
  simp [execRelease, hhost, hctx]

/-- What `exec` runs for the host's RELEASE with a context. -/
theorem exec_release_host {s : State} (hhost : s.ports.issuer = .host) (hctx : s.ctx.valid = true) :
    exec .release s = .next s.discard.complete := by
  show execRelease s = _
  simp [execRelease, hhost, hctx]

/-- An admitted RELEASE discards, and from the host reports its completion. -/
theorem exec_release_eq_next {s t : State} (hctx : s.ports.issuer = .host → s.ctx.valid = true)
    (h : exec .release s = .next t) : t = s.discard ∨ t = s.discard.complete := by
  cases hissuer : s.ports.issuer with
  | host =>
    rw [exec_release_host hissuer (hctx hissuer)] at h
    cases h
    exact .inr rfl
  | seq =>
    rw [exec_release_seq hissuer] at h
    cases h
    exact .inl rfl

@[simp] theorem byteAt_complete (s : State) (sp : Space) (a : Nat) :
    s.complete.byteAt sp a = s.byteAt sp a := by
  cases sp
  all_goals rfl

/-- After a release no byte of `RK` holds a value. -/
theorem byteAt_rk_discard (s : State) (a : Nat) : s.discard.byteAt .rk a = none :=
  byteAt_rk_eq_none (Store.read_nil _)

/-- A release changes the buffers of a call and `RK_VALID`. -/
theorem unchanged_discard (s : State) :
    Unchanged [.rk, .t, .st, .tmp, .g, .cnt, .ks] [.rkValid] s s.discard := by
  refine ⟨fun sp hsp a => ?_, fun r hr => ?_⟩
  · cases sp with
    | rk | t | st | tmp | g | cnt | ks => simp at hsp
    | _ => rfl
  · cases r with
    | rkValid => simp at hr
    | _ => exact rfl

@[simp] theorem scrub_false {n : Nat} (b : Vector Byte n) : scrub false b = b := rfl

/-- An overwritten buffer has the same indices, with a zero at each of them. -/
@[simp] theorem getElem?_scrub_true {n : Nat} (b : Vector Byte n) (a : Nat) :
    (scrub true b)[a]? = b[a]?.map fun _ => 0#8 := by
  by_cases ha : a < n
  · simp [scrub, ha]
  · simp [scrub, ha]

/-- Where a release does not overwrite, it leaves every buffer but `RK`. -/
theorem unchanged_discard_of_left (hzeroize : Config.zeroize = false) (s : State) :
    Unchanged [.rk] [.rkValid] s s.discard := by
  refine ⟨fun sp hsp a => ?_, (unchanged_discard s).2⟩
  cases sp with
  | rk => simp at hsp
  | t | st | tmp | g | cnt | ks => simp [State.byteAt, hzeroize]
  | _ => rfl

/-- Where a release overwrites, it overwrites every fixed buffer of a call with zeros. -/
theorem byteAt_discard_of_zeroed (hzeroize : Config.zeroize = true) (s : State) {sp : Space}
    (hsp : sp ∈ [Space.t, .st, .tmp, .g, .cnt, .ks]) (a : Nat) :
    s.discard.byteAt sp a = (s.byteAt sp a).map fun _ => 0#8 := by
  cases sp with
  | t | st | tmp | g | cnt | ks => simp [State.byteAt, hzeroize]
  | _ => simp at hsp

/-- Settles O48: an admitted RELEASE ends in `discard`, and `ZEROIZE` (rule R231) is one choice for all the buffers. -/
theorem releaseRule : Obligations.ReleaseRule := by
  refine ⟨by decide, fun s => exec_release_noContext, fun s hhost hctx => ?_, fun s hseq => ?_,
    fun s t hctx h => ?_⟩
  · exact ⟨_, exec_release_host hhost hctx, rfl, rfl, rfl,
      fun a => (byteAt_complete _ _ a).trans (byteAt_rk_discard s a),
      unchanged_mono (unchanged_complete (unchanged_discard s)) (List.Subset.refl _) (by decide),
      (exec_blockenc _).trans (execBlockenc_notAdmitted (.inr rfl))⟩
  · exact ⟨_, exec_release_seq hseq, rfl, byteAt_rk_discard s, unchanged_discard s⟩
  · have hended := exec_release_eq_next hctx h
    cases hzeroize : Config.zeroize with
    | false =>
      have hleft := unchanged_discard_of_left hzeroize s
      rcases hended with rfl | rfl
      · exact .inl (unchanged_mono hleft (List.Subset.refl _) (by decide))
      · exact .inl (unchanged_mono (unchanged_complete hleft) (List.Subset.refl _) (by decide))
    | true =>
      have hzeroed := fun sp hsp => byteAt_discard_of_zeroed hzeroize s (sp := sp) hsp
      rcases hended with rfl | rfl
      · exact .inr hzeroed
      · exact .inr fun sp hsp a => (byteAt_complete _ sp a).trans (hzeroed sp hsp a)

/-! ### Host reads (rule R232) -/

/-- The registers a host can read, each with the flag that its value needs (rules R42, R43 and R46). -/
theorem registerValue_eq (s : State) (reg : Nat) :
    s.registerValue reg =
      if reg = 1 then some (.status s.status)
      else if reg = 5 ∧ s.out.valid = true then some (.doutLen s.out.len)
      else if reg = 6 ∧ s.ctx.valid = true then some (.cfgR s.ctx.rounds)
      else none := by
  unfold State.registerValue
  by_cases h5 : reg = 5
  · simp [h5]
  · by_cases h6 : reg = 6
    · simp [h6]
    · simp [h5, h6]

/-- A read outside the result, or of no result, has no value. -/
theorem spaceBytes_eq_none {s : State} {sp : Space} {addr n : Nat}
    (h : sp ≠ .dout ∨ s.out.valid = false ∨ s.out.len < addr + n) : s.spaceBytes sp addr n = none := by
  refine if_neg ?_
  rintro ⟨hsp, hvalid, hlen⟩
  rcases h with h | h | h
  · exact h hsp
  · rw [h] at hvalid
    cases hvalid
  · omega

/-- A read inside a result returns its bytes, each of which holds a value (rule R38). -/
theorem spaceBytes_result {s : State} {addr n : Nat} (hinv : BoundaryInv s) (hvalid : s.out.valid = true)
    (hlen : addr + n ≤ s.out.len) :
    ∃ bytes : List Byte, s.spaceBytes .dout addr n = some bytes ∧ bytes.length = n ∧
      ∀ j, j < n → bytes[j]? = s.byteAt .dout (addr + j) := by
  have hheld : (Memory.readBytes s.out.dout addr n).isSome :=
    (Memory.readBytes_isSome _ _ _).mpr fun j hj =>
      (hinv.resultBytes hvalid (addr + j)).mpr (by omega)
  obtain ⟨bytes, hread⟩ := Option.isSome_iff_exists.mp hheld
  obtain ⟨hlength, hbytes⟩ := (Memory.readBytes_eq_some _ _ _ _).mp hread
  exact ⟨bytes, (if_pos ⟨rfl, hvalid, hlen⟩).trans hread, hlength, fun j hj => (hbytes j hj).symm⟩

/-- A step that reads a register delivers its value. -/
theorem step_readReg {s : State} {reg : Nat} {rest : List HostAction} (hidle : s.ports.seqWords = [])
    (ha : s.ports.hostActions = .readReg reg :: rest) :
    step s = (s.awaiting rest).deliver (s.registerValue reg) :=
  step_hostAct hidle ha

/-- A step that reads bytes delivers them. -/
theorem step_readBytes {s : State} {sp : Space} {addr n : Nat} {rest : List HostAction}
    (hidle : s.ports.seqWords = []) (ha : s.ports.hostActions = .readBytes sp addr n :: rest) :
    step s = (s.awaiting rest).deliver ((s.spaceBytes sp addr n).map .bytes) :=
  step_hostAct hidle ha

/-- Settles O49: a step that reads delivers the value read, or is refused where there is none. -/
theorem hostReads : Obligations.HostReads := by
  refine ⟨fun s reg rest hidle ha => ?_, fun s sp addr n rest hidle ha h => ?_,
    fun s addr n rest hinv ha hvalid hlen => ?_⟩
  · rw [step_readReg hidle ha, registerValue_eq]
    split_ifs
    all_goals rfl
  · rw [step_readBytes hidle ha, spaceBytes_eq_none h]
    rfl
  · obtain ⟨bytes, hread, hlength, hbytes⟩ := spaceBytes_result hinv hvalid hlen
    refine ⟨bytes, hlength, hbytes, ?_⟩
    rw [step_readBytes hinv.idle ha, hread]
    rfl

/-! ### Host writes (rule R233) -/

/-- The frame of a host write: it takes the host's action and changes the operands in which the new ones differ. -/
theorem unchanged_hostWrite {spaces : List Space} {regs : List Register} (s : State)
    (rest : List HostAction) {o : Operands} (hports : .ports ∈ regs)
    (hkey : .key ∉ spaces → o.key = s.ops.key := by exact fun _ => rfl)
    (hiv : .iv ∉ spaces → o.iv = s.ops.iv := by exact fun _ => rfl)
    (hdin : .din ∉ spaces → o.din = s.ops.din := by exact fun _ => rfl)
    (hkeyDesc : .keyDesc ∉ regs → o.keyDesc = s.ops.keyDesc := by exact fun _ => rfl)
    (hivDesc : .ivDesc ∉ regs → o.ivDesc = s.ops.ivDesc := by exact fun _ => rfl)
    (hdinDesc : .dinDesc ∉ regs → o.dinDesc = s.ops.dinDesc := by exact fun _ => rfl) :
    Unchanged spaces regs s { s.awaiting rest with ops := o } := by
  refine ⟨fun sp hsp a => ?_, fun r hr => ?_⟩
  · cases sp with
    | key => simp only [State.byteAt, hkey hsp]
    | iv => simp only [State.byteAt, hiv hsp]
    | din => simp only [State.byteAt, hdin hsp]
    | _ => rfl
  · cases r with
    | keyDesc => exact hkeyDesc hr
    | ivDesc => exact hivDesc hr
    | dinDesc => exact hdinDesc hr
    | ports => exact absurd hports hr
    | _ => exact rfl

/-- A host write of a register that is not of a word to `CMD` is a write of an operand descriptor. -/
theorem hostAct_writeReg {s : State} {reg : Nat} {d : RegData} (h : reg = 0 → ∀ w, d ≠ .word w) :
    s.hostAct (.writeReg reg d) = s.writeRegister reg d := by
  cases d with
  | word w =>
    cases reg with
    | zero => exact absurd rfl (h rfl w)
    | succ reg => rfl
  | desc present len => cases reg with | zero | succ reg => rfl
  | length len => cases reg with | zero | succ reg => rfl

/-- A host write of a register that is no operand descriptor, or of other data than the descriptor's, is refused. -/
theorem writeRegister_refused {s : State} {reg : Nat} {d : RegData}
    (hdesc : reg = 2 ∨ reg = 3 → ∀ p n, d ≠ .desc p n) (hlen : reg = 4 → ∀ n, d ≠ .length n) :
    s.writeRegister reg d = .refused .hostWriteRefused := by
  unfold State.writeRegister
  split
  · exact absurd rfl (hdesc (.inl rfl) _ _)
  · exact absurd rfl (hdesc (.inr rfl) _ _)
  · exact absurd rfl (hlen rfl _)
  · rfl

/-- A host write of bytes to a space that the host owns takes the action, stores the bytes at every index, and
changes nothing else. -/
theorem writeSpace_owned (s : State) (rest : List HostAction) {sp : Space}
    (hsp : sp ∈ [Space.key, .iv, .din]) (addr : Nat) (bytes : List Byte) :
    ∃ t, (s.awaiting rest).writeSpace sp addr bytes = .next t ∧
      (∀ a, t.byteAt sp a =
        if addr ≤ a ∧ a < addr + bytes.length then bytes[a - addr]? else s.byteAt sp a) ∧
      t.ports = { s.ports with hostActions := rest } ∧ Unchanged [sp] [.ports] s t := by
  cases sp with
  | key => exact ⟨_, rfl, Memory.byte?_writeBytes _ _ _, rfl,
      unchanged_hostWrite s rest (by simp) (hkey := by simp)⟩
  | iv => exact ⟨_, rfl, Memory.byte?_writeBytes _ _ _, rfl,
      unchanged_hostWrite s rest (by simp) (hiv := by simp)⟩
  | din => exact ⟨_, rfl, Memory.byte?_writeBytes _ _ _, rfl,
      unchanged_hostWrite s rest (by simp) (hdin := by simp)⟩
  | _ => simp at hsp

/-- A host write of bytes to any other space is refused. -/
theorem writeSpace_refused (s : State) {sp : Space} (hsp : sp ∉ [Space.key, .iv, .din]) (addr : Nat)
    (bytes : List Byte) : s.writeSpace sp addr bytes = .refused .hostWriteRefused := by
  cases sp with
  | key | iv | din => simp at hsp
  | _ => rfl

/-- A step that writes bytes is the host write of a space. -/
theorem step_writeBytes {s : State} {sp : Space} {addr : Nat} {bytes : List Byte}
    {rest : List HostAction} (hidle : s.ports.seqWords = [])
    (ha : s.ports.hostActions = .writeBytes sp addr bytes :: rest) :
    step s = (s.awaiting rest).writeSpace sp addr bytes :=
  step_hostAct hidle ha

/-- Settles O50: a step that writes an operand stores it in the operands, and any other write is refused. -/
theorem hostWrites : Obligations.HostWrites := by
  refine ⟨fun s reg len present rest hidle ha => ⟨?_, ?_⟩, fun s len rest hidle ha => ?_,
    fun s reg d rest hidle ha h => ?_,
    fun s sp addr bytes rest hidle ha => ⟨fun hsp => ?_, fun hsp => ?_⟩⟩
  · rintro rfl
    exact ⟨_, step_hostAct hidle ha, rfl, rfl,
      unchanged_hostWrite s rest (by simp) (hkeyDesc := by simp)⟩
  · rintro rfl
    exact ⟨_, step_hostAct hidle ha, rfl, rfl,
      unchanged_hostWrite s rest (by simp) (hivDesc := by simp)⟩
  · exact ⟨_, step_hostAct hidle ha, rfl, rfl,
      unchanged_hostWrite s rest (by simp) (hdinDesc := by simp)⟩
  · have hword : reg = 0 → ∀ w, d ≠ .word w := by rintro rfl; simpa using h
    have hdesc : reg = 2 ∨ reg = 3 → ∀ p n, d ≠ .desc p n := by
      rintro (rfl | rfl)
      all_goals simpa using h
    have hlen : reg = 4 → ∀ n, d ≠ .length n := by rintro rfl; simpa using h
    rw [step_hostAct hidle ha, hostAct_writeReg hword]
    exact writeRegister_refused hdesc hlen
  · obtain ⟨t, ht, hbytes, hports, hframe⟩ := writeSpace_owned s rest hsp addr bytes
    refine ⟨t, (step_writeBytes hidle ha).trans ht, fun j hj => ?_, fun a houtside => ?_, hports, hframe⟩
    · rw [hbytes, if_pos (by omega), Nat.add_sub_cancel_left]
    · rw [hbytes, if_neg houtside]
  · exact (step_writeBytes hidle ha).trans (writeSpace_refused _ hsp addr bytes)

end Sys2Proof.Machine
end

section
/-! SUPPORT. The error model of 60_exceptions.md: the codes of `STATUS.ERR` (rule R255), the precision of an error
(rule R258), and the idle core (rule R272). -/

namespace Sys2Proof.Machine

open Sys2Proof.Safety

/-! ### The codes of `STATUS.ERR` (rule R255) -/

theorem errCode_of_none {s : State} (h : s.err = none) : s.errCode = 0#4 := by
  simp [State.errCode, h]

theorem errCode_of_some {s : State} {k : ErrKind} (h : s.err = some k) : s.errCode = k.code := by
  simp [State.errCode, h]

/-- The code of an error is not that of "no error". -/
theorem ErrKind.code_ne_zero (k : ErrKind) : k.code ≠ 0#4 := by
  cases k
  all_goals decide

/-- Each kind has a code of its own. -/
theorem ErrKind.code_injective : Function.Injective ErrKind.code := by
  rintro ⟨⟩ ⟨⟩
  all_goals decide

/-- The codes 4 to 14 belong to no kind. -/
theorem ErrKind.code_not_reserved (k : ErrKind) : ¬ (4 ≤ k.code.toNat ∧ k.code.toNat ≤ 14) := by
  cases k
  all_goals decide

theorem errCode_eq_zero_iff (s : State) : s.errCode = 0#4 ↔ s.err = none := by
  refine ⟨fun h => ?_, errCode_of_none⟩
  cases herr : s.err with
  | none => rfl
  | some k => exact absurd ((errCode_of_some herr).symm.trans h) k.code_ne_zero

theorem errCode_eq_code_iff (s : State) (k : ErrKind) : s.errCode = k.code ↔ s.err = some k := by
  refine ⟨fun h => ?_, errCode_of_some⟩
  cases herr : s.err with
  | none => exact absurd (h.symm.trans (errCode_of_none herr)) k.code_ne_zero
  | some k' => rw [ErrKind.code_injective ((errCode_of_some herr).symm.trans h)]

/-- Settles O10: `STATUS.ERR` holds the code of the error kind, or 0, and the kinds have codes of their own. -/
theorem errorCodes : Obligations.ErrorCodes := by
  refine ⟨errCode_eq_zero_iff, fun s => errCode_eq_code_iff s .invalidKeyLength,
    fun s => errCode_eq_code_iff s .invalidIvLength,
    fun s => errCode_eq_code_iff s .invalidBlockLength,
    fun s => errCode_eq_code_iff s .illegalCommand, fun s => ?_⟩
  cases herr : s.err with
  | none =>
    rw [errCode_of_none herr]
    decide
  | some k =>
    rw [errCode_of_some herr]
    exact k.code_not_reserved

/-! ### The precision of an error (rule R258) -/

/-- A host-issued operation that ends with an error reported has done nothing but raise it: every other way to
answer ends with `STATUS.ERR` cleared. -/
theorem Effect.eq_raise {s t : State} {i : Instr} {k : ErrKind} (h : Effect s i t)
    (hhost : s.ports.issuer = .host) (herr : t.err = some k) :
    ∃ n, t = State.raise { s with freeIndex := n } k := by
  cases h with
  | raised _ k' n =>
    cases herr
    exact ⟨n, rfl⟩
  | constructed | released | expanded | blockDone | callDone => cases herr
  | sequenced hseq hframe =>
    rw [hhost] at hseq
    cases hseq

/-- Raising an error changes the report in `STATUS`, and may use up the model's next free choice. -/
theorem unchanged_freeIndex_raise (s : State) (n : Nat) (k : ErrKind) :
    Unchanged [] [.err, .outValid, .freeIndex] s (State.raise { s with freeIndex := n } k) := by
  refine ⟨fun sp _ a => ?_, fun r hr => ?_⟩
  · cases sp
    all_goals rfl
  · cases r with
    | err | outValid | freeIndex => simp at hr
    | _ => exact rfl

/-- Settles O11: an operation that reports an error has raised it, from the state before the command. -/
theorem errorsArePrecise : Obligations.ErrorsArePrecise := by
  intro i s t k hhost h herr
  obtain ⟨n, rfl⟩ := (exec_effect h).eq_raise hhost herr
  exact ⟨errCode_of_some herr, rfl, unchanged_freeIndex_raise s n k⟩

/-! ### The idle core (rule R272) -/

/-- Settles O8: with both queues empty `step` takes its last branch. -/
theorem idleKeepsState : Obligations.IdleKeepsState := fun _ => step_idle

end Sys2Proof.Machine
end

section
/-! SUPPORT. The totality of the host's commands (rules R95 and R261): with the operands written, each of the six
operations the host may issue either raises an error or runs its body to the end, and every other word raises. -/

namespace Sys2Proof.Machine

open Sys2Proof.Safety

/-! ### The bodies of the commands -/

/-- A sequence completes where its first part does and its second part does from every state. -/
theorem andThen_completes {r : Res} {f : State → Res} (hr : ∃ s, r = .next s)
    (hf : ∀ s, r = .next s → ∃ t, f s = .next t) : ∃ t, andThen r f = .next t := by
  obtain ⟨s, hs⟩ := hr
  obtain ⟨t, ht⟩ := hf s hs
  exact ⟨t, andThen_eq_next.mpr ⟨s, hs, ht⟩⟩

/-- The expansion completes where the bytes of the key are there. -/
theorem expandKey_completes {s : State}
    (hkey : ∀ j, j < 256 → (Memory.byte? s.ops.key j).isSome = true) :
    ∃ t, s.expandKey = .next t := by
  obtain ⟨key, hread⟩ := exists_readBytes hkey
  obtain ⟨t, ht, _⟩ := expandKey_eq hread
  exact ⟨t, ht⟩

/-- The procedure of a call completes in a context, where the bytes it reads are there. -/
theorem ctrProcedure_completes {s : State} (hinv : ContextInv s) (hctx : s.ctx.valid = true)
    (hbytes : CallBytesWritten s.ops) : ∃ t, s.ctrProcedure = .next t := by
  obtain ⟨key, hkey⟩ := exists_readBytes hbytes.key
  obtain ⟨iv, hiv⟩ := exists_readBytes hbytes.iv
  obtain ⟨t, ht, _⟩ := ctrProcedure_eq hkey hiv (perm_eq_buildPerm hinv hctx) hbytes.din
  exact ⟨t, ht⟩

/-- LDST 0 completes where the block is there, and changes the state buffer only. -/
theorem loadSt_zero_completes {s : State}
    (hdin : ∀ j, j < 256 → (Memory.byte? s.ops.din j).isSome = true) :
    ∃ t, s.loadSt 0 = .next t ∧ FrameBlk s t := by
  obtain ⟨block, hread⟩ := exists_readBytes hdin
  exact ⟨_, loadSt_zero_eq hread, frameBlk_setSt s block⟩

/-! ### What the obligation of rule R46 gives a command -/

theorem callDescriptorsWritten_iff (s : State) :
    s.callDescriptorsWritten = true ↔ s.ops.keyDesc.written = true ∧
      s.ops.ivDesc.written = true ∧ s.ops.dinDesc.written = true := by
  simp [State.callDescriptorsWritten, and_assoc]

/-- `Validate` reports no error only where both lengths are right (rule R202). -/
theorem validate_eq_none_iff (s : State) :
    s.validate = none ↔ s.keyBad = false ∧ s.ivBad = false := by
  refine ⟨fun h => ?_, fun ⟨hkey, hiv⟩ => validate_eq_none hkey hiv⟩
  cases hkey : s.keyBad with
  | false =>
    cases hiv : s.ivBad with
    | false => exact ⟨rfl, rfl⟩
    | true => simp [(validate_ivBad hkey hiv).1] at h
  | true =>
    cases hiv : s.ivBad with
    | false => simp [(validate_keyBad hkey hiv).1] at h
    | true =>
      rcases validate_bothBad hkey hiv with hk | hk
      · simp [hk] at h
      · simp [hk] at h

/-- At a command boundary with expanded keys every round key holds a value (rules R29 and R30). -/
theorem holdsRoundKeys_of_boundary {s : State} (h : BoundaryInv s) (hkeys : s.keys.valid = true) :
    s.HoldsRoundKeys :=
  fun w hw => (h.roundKeys w).mpr ⟨hkeys, hw⟩

/-! ### The host's commands -/

theorem execConstruct_completes (r : BitVec 16) (s : State) : ∃ t, execConstruct r s = .next t := by
  unfold execConstruct
  split
  · exact ⟨_, rfl⟩
  split
  · exact ⟨_, rfl⟩
  · exact ⟨_, rfl⟩

theorem execRelease_completes (s : State) : ∃ t, execRelease s = .next t := by
  unfold execRelease
  split
  · exact ⟨_, rfl⟩
  split
  · exact ⟨_, rfl⟩
  · exact ⟨_, rfl⟩

/-- KEYEXPAND reads the key only where its length is right, and then its bytes are there. -/
theorem execKeyexpand_completes {s : State} (hhost : s.ports.issuer = .host)
    (hops : OperandsWritten s) : ∃ t, execKeyexpand s = .next t := by
  obtain ⟨hdesc, hkey, _, _⟩ := hops
  obtain ⟨hkeyDesc, _, _⟩ := (callDescriptorsWritten_iff s).mp hdesc
  cases hctx : s.ctx.valid with
  | false => exact ⟨_, execKeyexpand_noContext hhost hctx⟩
  | true =>
    cases hbad : s.keyBad with
    | true => exact ⟨_, execKeyexpand_keyBad hhost hctx hkeyDesc hbad⟩
    | false =>
      rw [execKeyexpand_eq hhost hctx hkeyDesc hbad]
      exact andThen_completes (expandKey_completes (hkey hbad)) fun u _ => ⟨_, rfl⟩

/-- BLOCKENC reads the round keys only where `RK_VALID = 1`, and the input only where it is one block long. -/
theorem execBlockenc_completes {s : State} (hinv : BoundaryInv s) (hops : OperandsWritten s) :
    ∃ t, execBlockenc s = .next t := by
  obtain ⟨hdesc, _, _, hdin⟩ := hops
  obtain ⟨_, _, hdinDesc⟩ := (callDescriptorsWritten_iff s).mp hdesc
  cases hkeys : s.keys.valid with
  | false => exact ⟨_, execBlockenc_notAdmitted (.inr hkeys)⟩
  | true =>
    have hctx := hinv.keysNeedContext hkeys
    by_cases hlen : s.ops.dinDesc.len = 256
    case neg => exact ⟨_, execBlockenc_badLength hctx hkeys hdinDesc hlen⟩
    rw [hlen] at hdin
    obtain ⟨u, hu, hframe⟩ := loadSt_zero_completes (s := s.allocateResult) hdin
    have hrk : s.HoldsRoundKeys := holdsRoundKeys_of_boundary hinv hkeys
    rw [execBlockenc_eq hctx hkeys hdinDesc hlen, hu, andThen_next]
    exact andThen_completes (encryptState_completes (hframe.holdsRoundKeys hrk)) fun v _ => ⟨_, rfl⟩

/-- A call reads its operands only where both lengths are right, and then their bytes are there. -/
theorem ctrCall_completes {s : State} (hinv : ContextInv s) (hops : OperandsWritten s) :
    ∃ t, s.ctrCall = .next t := by
  obtain ⟨hdesc, hkey, hiv, hdin⟩ := hops
  cases hctx : s.ctx.valid with
  | false => exact ⟨_, ctrCall_noContext hctx⟩
  | true =>
    cases hvalid : s.validate with
    | some k => exact ⟨_, ctrCall_invalid hctx hdesc hvalid⟩
    | none =>
      obtain ⟨hkeyBad, hivBad⟩ := (validate_eq_none_iff s).mp hvalid
      rw [ctrCall_eq hctx hdesc hvalid]
      exact andThen_completes
        (ctrProcedure_completes hinv hctx ⟨hkey hkeyBad, hiv hivBad, hdin⟩) fun u _ => ⟨_, rfl⟩

/-- Every operation that the host issues at a command boundary with the operands written completes. -/
theorem exec_completes {s : State} (hhost : s.ports.issuer = .host) (hinv : BoundaryInv s)
    (hops : OperandsWritten s) (i : Instr) : ∃ t, exec i s = .next t := by
  cases i with
  | construct r => exact execConstruct_completes r s
  | encrypt => exact ctrCall_completes hinv.context hops
  | decrypt => exact ctrCall_completes hinv.context hops
  | release => exact execRelease_completes s
  | keyexpand => exact execKeyexpand_completes hhost hops
  | blockenc => exact execBlockenc_completes hinv hops
  | _ => exact ⟨_, seqOnly_host _ hhost⟩

/-- Every word the host writes to `CMD` there completes; one that is not well formed raises (rule R95). -/
theorem hostCommand_completes {s : State} (hinv : BoundaryInv s) (hops : OperandsWritten s)
    (w : Word32) : ∃ t, s.hostCommand w = .next t := by
  have hissued : BoundaryInv (s.issuedBy .host) := boundaryInv_of_ports hinv hinv.idle
  cases hd : decode w with
  | ok i =>
    rw [hostCommand_ok hd]
    exact exec_completes rfl hissued hops i
  | error e => exact ⟨_, hostCommand_error hd⟩

/-- Settles O59: the step is the host's write to `CMD`, and that completes whatever the word. -/
theorem hostCommandsComplete : Obligations.HostCommandsComplete := by
  intro s w rest hinv hops ha
  have hawaiting : BoundaryInv (s.awaiting rest) := boundaryInv_of_ports hinv hinv.idle
  rw [step_hostAct hinv.idle ha]
  exact hostCommand_completes hawaiting hops w

end Sys2Proof.Machine
end

section
/-! SUPPORT. The two paths by which a word comes into execution (30_encoding.md rule R93): the sequencer's queue, and a
word placed for the next step. The queues are the model's (assumption log 4). -/

namespace Sys2Proof.Machine

/-! ### The sequencer's path -/

/-- A word of an operation the sequencer may issue is executed, as the sequencer issues it. -/
theorem seqCommand_ok {s : State} {w : Word32} {i : Instr} (hd : decode w = .ok i)
    (hi : i.hostOnly = false) : s.seqCommand w = exec i (s.issuedBy .seq) := by
  simp [State.seqCommand, hd, hi]

/-- A word of an operation that only the host may issue is refused. -/
theorem seqCommand_hostOnly {s : State} {w : Word32} {i : Instr} (hd : decode w = .ok i)
    (hi : i.hostOnly = true) : s.seqCommand w = .refused .notForSequencer := by
  simp [State.seqCommand, hd, hi]

/-- A word that is not well formed is refused. -/
theorem seqCommand_error {s : State} {w : Word32} {e : Reject} (hd : decode w = .error e) :
    s.seqCommand w = .refused .notForSequencer := by
  simp [State.seqCommand, hd]

/-- Settles O6: the step is the sequencer's word, and that has the three cases above. -/
theorem stepRunsSequencerWord : Obligations.StepRunsSequencerWord := by
  intro s w rest hw
  rw [step_seqCommand hw]
  exact ⟨fun i => seqCommand_ok, fun i => seqCommand_hostOnly, fun e => seqCommand_error⟩

/-! ### A word placed for the next step -/

/-- No operation is both for the sequencer alone and for the host alone (rule R93). -/
theorem hostOnly_of_seqOnly {i : Instr} (h : i.seqOnly = true) : i.hostOnly = false := by
  cases i with
  | construct | encrypt | decrypt | release | keyexpand | blockenc => cases h
  | _ => rfl

/-- A word of 32 bits is placed as it is. -/
theorem withFetchWord_toNat (s : State) (w : Word32) : s.withFetchWord 32 w.toNat = s.withWord w := by
  rw [State.withFetchWord, Nat.mod_eq_of_lt w.isLt, BitVec.ofNat_toNat, BitVec.setWidth_eq]

/-- A word of an operation for the sequencer alone is placed first in the sequencer's queue. -/
theorem withWord_seqOnly (s : State) {w : Word32} {i : Instr} (hd : decode w = .ok i)
    (hi : i.seqOnly = true) :
    s.withWord w = { s with ports.seqWords := w :: s.ports.seqWords } := by
  simp [State.withWord, (decode_eq_ok_iff.mp hd).1, hi]

/-- A word of an operation that the host may issue is placed as the host's next write of `CMD`, with the sequencer
idle. -/
theorem withWord_host (s : State) {w : Word32} {i : Instr} (hd : decode w = .ok i)
    (hi : i.seqOnly = false) :
    s.withWord w = { s with
      ports.seqWords := []
      ports.hostActions := .writeReg 0 (.word w) :: s.ports.hostActions } := by
  simp [State.withWord, (decode_eq_ok_iff.mp hd).1, hi]

/-- Settles O7: the placed word is the next of the queue it is placed in, and the step takes it from there. -/
theorem stepRunsFetchWord : Obligations.StepRunsFetchWord := by
  intro s w i hd
  rw [withFetchWord_toNat]
  refine ⟨fun hhost => ?_, fun hseq => ?_⟩
  · rw [withWord_host s hd hhost]
    exact stepRunsHostCommand _ w s.ports.hostActions i rfl rfl hd
  · rw [withWord_seqOnly s hd hseq]
    exact (stepRunsSequencerWord _ w s.ports.seqWords rfl).1 i hd (hostOnly_of_seqOnly hseq)

end Sys2Proof.Machine
end

section
/-! SUPPORT. The reset event (70_reset_and_hazards.md section 1): what it leaves holds the values of the state after
reset, but for the model's own fields. -/

namespace Sys2Proof.Machine

open Sys2Proof.Safety

/-- After a reset event `STATUS` is that of the state after reset (rule R48). -/
theorem status_resetEvent (s : State) : s.resetEvent.status = 0#32 := by
  have hsame : s.resetEvent.status = State.reset.status := rfl
  rw [hsame]
  exact resetState.1

/-- A reset event leaves the state after reset wherever a value is held; the ports and the free index stay. -/
theorem sameVisible_resetEvent (s : State) :
    SameVisible s.resetEvent { State.reset with ports := s.ports, freeIndex := s.freeIndex } :=
  ⟨rfl, fun _ => rfl, rfl, fun _ => rfl, rfl, rfl, fun _ => rfl, rfl, rfl, rfl⟩

/-- Settles O13: the step is the platform's reset event, whose flags are all clear. -/
theorem resetEvent : Obligations.ResetEvent := by
  intro s rest hidle ha
  exact ⟨(s.awaiting rest).resetEvent, step_hostAct hidle ha, status_resetEvent _, rfl,
    hideResidue_eq_iff.mpr (sameVisible_resetEvent (s.awaiting rest))⟩

end Sys2Proof.Machine
end

section
/-! SUPPORT. The stops of the micro-operations: an index outside the range of rule R92, a round key that holds no value
(rule R46), and a stream position beyond the input (rule R36). The stops are the model's (assumption logs 6 and 12). -/

namespace Sys2Proof.Machine

/-- An index outside `1..R` stops an operation of the key schedule. -/
theorem withIndex_beyond {s : State} {w : Nat} (effect : Res)
    (h : w = 0 ∨ s.ctx.rounds.toNat < w) : s.withIndex w effect = .fault .noSuchRoundKey :=
  if_pos h

/-- An index beyond `R` stops an access to a round key. -/
theorem withWindow_beyond {s : State} {r : Nat} (use : Block → Res) (h : s.ctx.rounds.toNat < r) :
    s.withWindow r use = .fault .noSuchRoundKey :=
  if_pos h

/-- An access to a round key that holds no value is refused. -/
theorem withWindow_unwritten {s : State} {r : Nat} (use : Block → Res)
    (hr : r ≤ s.ctx.rounds.toNat) (hread : Store.read s.keys.rk r = none) :
    s.withWindow r use = .refused .roundKeyHoldsNoValue := by
  simp [State.withWindow, Nat.not_lt.mpr hr, hread]

/-- A window whose first byte holds no value holds none. -/
theorem read_eq_none_of_byteAt_rk {s : State} {r : Nat} (h : s.byteAt .rk (256 * r) = none) :
    Store.read s.keys.rk r = none :=
  Option.map_eq_none_iff.mp ((byteAt_rk_window s r 0).symm.trans h)

/-- A stream position beyond the input stops KSXOR. -/
theorem ksXor_beyond {s : State} (h : s.ops.dinDesc.len < s.seq.p) :
    s.ksXor = .fault .streamPositionOutOfRange :=
  if_pos h

/-- Settles O54: each operation checks its index before it reads a round key, and reads it before it has an effect. -/
theorem indexStops : Obligations.IndexStops := by
  intro s w hseq
  refine ⟨fun hbeyond => ?_, fun hrange => ?_, fun hR hnone => ?_, fun h1 hR hnone => ?_,
    fun hp => ?_⟩
  · rw [exec_addkey_seq hseq]
    exact withWindow_beyond _ hbeyond
  · have hrange' : w.toNat = 0 ∨ s.ctx.rounds.toNat < w.toNat :=
      hrange.imp_left fun hw => congrArg BitVec.toNat hw
    rw [exec_ksload_seq hseq, exec_ksrcon_seq hseq, exec_ksxorp_seq hseq, exec_ksstore_seq hseq]
    exact ⟨withIndex_beyond _ hrange', withIndex_beyond _ hrange', withIndex_beyond _ hrange',
      withIndex_beyond _ hrange'⟩
  · rw [exec_addkey_seq hseq]
    exact withWindow_unwritten _ hR (read_eq_none_of_byteAt_rk hnone)
  · have hread := read_eq_none_of_byteAt_rk hnone
    have hprev : w.toNat - 1 ≤ s.ctx.rounds.toNat := by omega
    rw [exec_ksload_seq hseq, exec_ksxorp_seq hseq, State.ksLoad, State.ksXorp,
      withIndex_of_le _ h1 hR, withIndex_of_le _ h1 hR]
    exact ⟨withWindow_unwritten _ hprev hread, withWindow_unwritten _ hprev hread⟩
  · rw [exec_ksxor_seq hseq]
    exact ksXor_beyond hp

end Sys2Proof.Machine
end

section
/-! SUPPORT. The canonical form of the storages (20_memory.md section 1). The operands' three storages are written by
the host alone; `RK` and `DOUT` are written by operations, which leave them, empty them, or write runs into them. -/

namespace Sys2Proof.Machine

open Sys2Proof.Safety

/-! ### The storages that operations write -/

/-- `RK` and `DOUT` are in canonical form. -/
structure StoresWf (s : State) : Prop where
  rk : Store.wf s.keys.rk
  dout : Memory.wf s.out.dout

/-- The canonical form of all five storages is that of the operands and that of `RK` and `DOUT`. -/
theorem memoryInv_iff {s : State} : MemoryInv s ↔ OperandsWf s.ops ∧ StoresWf s :=
  ⟨fun h => ⟨⟨h.key, h.iv, h.din⟩, ⟨h.rk, h.dout⟩⟩,
    fun ⟨hops, hs⟩ => ⟨hops.key, hops.iv, hops.din, hs.dout, hs.rk⟩⟩

theorem storesWf_of_eq {s t : State} (hs : StoresWf s) (hrk : t.keys.rk = s.keys.rk)
    (hdout : t.out.dout = s.out.dout) : StoresWf t :=
  ⟨hrk ▸ hs.rk, hdout ▸ hs.dout⟩

/-- Released round keys are an empty storage. -/
theorem storesWf_of_released {s : State} (hrk : s.keys.rk = []) (hdout : Memory.wf s.out.dout) :
    StoresWf s :=
  ⟨hrk ▸ Store.wf_nil, hdout⟩

/-- The block-primitive unit holds neither storage. -/
theorem FrameBlk.storesWf {s t : State} (h : FrameBlk s t) (hs : StoresWf s) : StoresWf t :=
  storesWf_of_eq hs (by rw [h.keys]) (by rw [h.out])

theorem storesWf_setT {s : State} (hs : StoresWf s) (b : Block) : StoresWf (s.setT b) :=
  storesWf_of_eq hs rfl rfl

/-! ### The micro-operations -/

/-- The expansion leaves round keys in canonical form, and `DOUT` as it was. -/
theorem storesWf_expandKey {s t : State} (h : s.expandKey = .next t) (hs : StoresWf s) :
    StoresWf t := by
  obtain ⟨hframe, _, hwf, _⟩ := expandKey_eq_next h
  exact ⟨hwf, hframe.out ▸ hs.dout⟩

/-- KSINIT leaves one window. -/
theorem storesWf_ksInit {s t : State} (h : s.ksInit = .next t) (hs : StoresWf s) : StoresWf t := by
  obtain ⟨l, _, h⟩ := withKey_eq_next.mp h
  cases h
  exact ⟨Store.wf_run [blockOfList l] 0, hs.dout⟩

/-- An operation that takes the preceding window into `T`, as KSLOAD and KSXORP do. -/
theorem storesWf_windowIntoT {s t : State} {w r : Nat} {f : Block → Block}
    (h : s.withIndex w (s.withWindow r fun prev => .next (s.setT (f prev))) = .next t)
    (hs : StoresWf s) : StoresWf t := by
  obtain ⟨_, _, h⟩ := withIndex_eq_next.mp h
  obtain ⟨_, prev, _, h⟩ := withWindow_eq_next.mp h
  cases h
  exact storesWf_setT hs _

theorem storesWf_ksRcon {s t : State} {w : Nat} (h : s.ksRcon w = .next t) (hs : StoresWf s) :
    StoresWf t := by
  obtain ⟨_, _, h⟩ := withIndex_eq_next.mp h
  cases h
  exact storesWf_setT hs _

/-- KSSTORE writes one window of `RK`. -/
theorem storesWf_ksStore {s t : State} {w : Nat} (h : s.ksStore w = .next t) (hs : StoresWf s) :
    StoresWf t := by
  obtain ⟨_, _, h⟩ := withIndex_eq_next.mp h
  cases h
  exact ⟨Store.wf_write hs.rk w s.keys.t, hs.dout⟩

theorem storesWf_loadSt {s t : State} {sel : Nat} (h : s.loadSt sel = .next t) (hs : StoresWf s) :
    StoresWf t := by
  unfold State.loadSt at h
  split at h
  · obtain ⟨l, _, h⟩ := withDin_eq_next.mp h
    cases h
    exact (frameBlk_setSt s _).storesWf hs
  · cases h
    exact (frameBlk_setSt s _).storesWf hs

/-- STST 0 writes a run of 256 bytes of `DOUT`. -/
theorem storesWf_storeSt {s : State} (hs : StoresWf s) (sel : Nat) : StoresWf (s.storeSt sel) := by
  unfold State.storeSt
  split
  · exact ⟨hs.rk, Memory.wf_writeBytes hs.dout 0 s.blk.st.toList⟩
  · exact storesWf_of_eq hs rfl rfl

theorem storesWf_ctrInit {s t : State} (h : s.ctrInit = .next t) (hs : StoresWf s) : StoresWf t := by
  obtain ⟨l, _, h⟩ := withIv_eq_next.mp h
  cases h
  exact storesWf_of_eq hs rfl rfl

theorem storesWf_encCtr {s t : State} (h : s.encCtr = .next t) (hs : StoresWf s) : StoresWf t := by
  obtain ⟨hframe, hout, _⟩ := encCtr_frame h
  exact storesWf_of_eq hs (by rw [hframe.keys]) (by rw [hout])

/-- KSXOR writes a run of bytes of `DOUT`. -/
theorem storesWf_ksXor {s t : State} (h : s.ksXor = .next t) (hs : StoresWf s) : StoresWf t := by
  obtain ⟨hframe, _, _, hdout⟩ := ksXor_frame h
  exact ⟨hframe.keys ▸ hs.rk, hdout hs.dout⟩

/-! ### What the sequencer issues (rule R94) -/

/-- A sequencer-only operation keeps the canonical form where its effect does: the host's issue of it raises. -/
theorem storesWf_of_seqOnly {s t : State} {effect : Res} (h : s.seqOnly effect = .next t)
    (hs : StoresWf s) (heffect : effect = .next t → StoresWf s → StoresWf t) : StoresWf t := by
  rcases seqOnly_eq_next.mp h with ⟨_, he⟩ | ⟨_, rfl⟩
  · exact heffect he hs
  · exact storesWf_of_eq hs rfl rfl

/-- A sequencer-only operation whose effect is an update that always answers. -/
theorem storesWf_of_seqOnly_next {s t u : State} (h : s.seqOnly (.next u) = .next t)
    (hs : StoresWf s) (hu : StoresWf u) : StoresWf t :=
  storesWf_of_seqOnly h hs fun he _ => by cases he; exact hu

/-- Every operation that the sequencer issues keeps `RK` and `DOUT` in canonical form. -/
theorem storesWf_exec_seq {i : Instr} {s t : State} (hseq : s.ports.issuer = .seq)
    (hi : i.hostOnly = false) (h : exec i s = .next t) (hs : StoresWf s) : StoresWf t := by
  cases i with
  | construct | encrypt | decrypt | blockenc => cases hi
  | release =>
    rw [exec_release_seq hseq] at h
    cases h
    exact storesWf_of_released rfl hs.dout
  | keyexpand =>
    rw [exec_keyexpand_seq hseq] at h
    exact storesWf_expandKey h hs
  | ctrinit => exact storesWf_of_seqOnly h hs storesWf_ctrInit
  | encctr => exact storesWf_of_seqOnly h hs storesWf_encCtr
  | ksxor => exact storesWf_of_seqOnly h hs storesWf_ksXor
  | ldst sel => exact storesWf_of_seqOnly h hs storesWf_loadSt
  | stst sel => exact storesWf_of_seqOnly_next h hs (storesWf_storeSt hs _)
  | addkey r => exact storesWf_of_seqOnly h hs fun he => (addKey_frame he).storesWf
  | ksinit => exact storesWf_of_seqOnly h hs storesWf_ksInit
  | ksload w => exact storesWf_of_seqOnly h hs (storesWf_windowIntoT (f := id))
  | ksrcon w => exact storesWf_of_seqOnly h hs storesWf_ksRcon
  | ksxorp w => exact storesWf_of_seqOnly h hs storesWf_windowIntoT
  | ksstore w => exact storesWf_of_seqOnly h hs storesWf_ksStore
  | incctr | subbytes | permute | mixcol | rotl | xormask | rdt | ksrot3 | kssub4 =>
    exact storesWf_of_seqOnly_next h hs (storesWf_of_eq hs (by simp) (by simp))

/-! ### What the host issues -/

/-- Every operation that the host issues keeps `RK` and `DOUT` in canonical form. -/
theorem Effect.storesWf {s t : State} {i : Instr} (h : Effect s i t)
    (hhost : s.ports.issuer = .host) (hs : StoresWf s) : StoresWf t := by
  cases h with
  | raised k n => exact storesWf_of_eq hs rfl rfl
  | constructed hnone hr => exact storesWf_of_eq hs rfl rfl
  | released hctx => exact storesWf_of_released rfl hs.dout
  | expanded hctx hu => exact storesWf_of_eq (storesWf_expandKey hu hs) rfl rfl
  | @blockDone u hctx hkeys hu =>
    have hfresh : StoresWf s.allocateResult := ⟨hs.rk, Store.wf_nil⟩
    exact storesWf_of_eq (storesWf_storeSt (hu.storesWf hfresh) 0) rfl rfl
  | callDone hi hctx hu =>
    obtain ⟨_, _, _, _, _, hrk, _, hdout, _⟩ := ctrProcedure_frame hu
    exact storesWf_of_released hrk hdout
  | sequenced hseq hframe =>
    rw [hhost] at hseq
    cases hseq

/-! ### Every step -/

/-- A word of the sequencer's keeps the canonical form. -/
theorem memoryInv_seqCommand {s t : State} {w : Word32} (h : s.seqCommand w = .next t)
    (hs : MemoryInv s) : MemoryInv t := by
  obtain ⟨hops, hstores⟩ := memoryInv_iff.mp hs
  obtain ⟨i, hd, he⟩ := seqCommand_eq_next h
  have hi : i.hostOnly = false := by
    by_contra hi
    rw [seqCommand_hostOnly hd (by simpa using hi)] at h
    cases h
  exact memoryInv_iff.mpr ⟨(exec_effect he).operandsWf hops,
    storesWf_exec_seq (s := s.issuedBy .seq) rfl hi he (storesWf_of_eq hstores rfl rfl)⟩

/-- With the sequencer idle, what a step has done keeps the canonical form: the host's writes keep that of the
operands, and the reset event empties every storage. -/
theorem StepEffect.memoryInv {s t : State} (h : StepEffect s t) (hidle : s.ports.seqWords = [])
    (hs : MemoryInv s) : MemoryInv t := by
  obtain ⟨hops, hstores⟩ := memoryInv_iff.mp hs
  rw [memoryInv_iff]
  cases h with
  | sequencerWord hw he =>
    rw [hidle] at hw
    cases hw
  | hostCommand hidle' hhost he =>
    exact ⟨he.operandsWf hops, he.storesWf hhost (storesWf_of_eq hstores rfl rfl)⟩
  | hostAccess hidle' hwf => exact ⟨hwf hops, storesWf_of_eq hstores rfl rfl⟩
  | resetEvent hidle' ha =>
    exact ⟨⟨Store.wf_nil, Store.wf_nil, Store.wf_nil⟩, storesWf_of_released rfl Store.wf_nil⟩

/-- Settles O55: a step is a word of the sequencer's, or the sequencer is idle and the host or the platform acts. -/
theorem memoryInvKept : Obligations.MemoryInvKept := by
  intro s t hs h
  cases hw : s.ports.seqWords with
  | cons w rest =>
    have hpopped : MemoryInv { s with ports.seqWords := rest } :=
      ⟨hs.key, hs.iv, hs.din, hs.dout, hs.rk⟩
    rw [step_seqCommand hw] at h
    exact memoryInv_seqCommand h hpopped
  | nil => exact (step_effect h).memoryInv hw hs

end Sys2Proof.Machine
end
